-- ==== Sys2Proof/Word.lean ====
section
/-! DEFINITION. The word types of the hardware (spec/00_scope.md R7, R8, R10; spec/30_encoding.md R110). -/

namespace Sys2Proof

/-- A 64-bit operand or result word (R110). -/
abbrev Word64 := BitVec 64

/-- A 32-bit command word (R112). -/
abbrev CmdWord := BitVec 32

/-- An IEEE 754 binary32 value, as its bits (R7, R10). -/
abbrev B32 := BitVec 32

/-- An IEEE 754 binary64 value, as its bits (R7, R10). -/
abbrev B64 := BitVec 64

/-- An unsigned 32-bit counter (R7). -/
abbrev U32 := BitVec 32

/-- An unsigned 33-bit counter: the step counts of a ramp (R34). -/
abbrev U33 := BitVec 33

/-- A sample: the tuple of its `C` binary32 lanes, lane 0 first (R8). -/
abbrev Sample := List B32

end Sys2Proof
end

