-- ==== Sys2Proof/Config.lean ====
section
/-! DEFINITION. What is fixed when an instance is built (spec/00_scope.md R3, R6), and the values the spec leaves open. -/

namespace Sys2Proof

/-- The configuration an instance is built as, the parameter `INSTANCE_KIND` (R3). -/
inductive Kind where
  | engine | cbuf | ramp | grain | pool | evsched | lem
deriving DecidableEq, Repr

/-- The construction parameters of R6, under the spec's letters. `S` is not among them: it is always `L + M`. -/
structure Params where
  /-- lanes per sample -/
  C : Nat
  /-- capacity of a standalone CBUF, in samples -/
  N : Nat
  /-- capacity of the rolling buffer, in samples -/
  R : Nat
  /-- loopable-region length, in samples -/
  L : Nat
  /-- static margin, in samples -/
  M : Nat
  /-- number of grain slots -/
  G : Nat
  /-- capacity of the event queue, in entries -/
  Q : Nat
  /-- maximum fade, in samples -/
  F : Nat
deriving DecidableEq, Repr

/-- The capacity of the static buffer, `S = L + M` (R6, R230). -/
def Params.S (p : Params) : Nat := p.L + p.M

/-- The two-operand arithmetic operations of R14, as names. -/
inductive FloatOp where
  | add | sub | mul | div
deriving DecidableEq, Repr

/-- FREE VALUE (log entry 2; R14, I-NUM-1 "any value"): the sign and the 22 payload bits of the quiet NaN that a binary32
operation delivers for these operands. -/
opaque Config.nan32 : FloatOp → B32 → B32 → BitVec 23

/-- FREE VALUE (log entry 2): the sign and the 51 payload bits of the quiet NaN that a binary64 operation delivers. -/
opaque Config.nan64 : FloatOp → B64 → B64 → BitVec 52

/-- FREE VALUE (log entry 2): the sign and the 22 payload bits of the quiet NaN that `to32` delivers for a NaN (R16). -/
opaque Config.nanTo32 : B64 → BitVec 23

/-- FREE VALUE (log entry 3): `ceil` of a binary64 value that is not finite; R16 and R291 define it for finite values only. -/
opaque Config.ceilNonFinite : B64 → B64

/-- FREE VALUE (log entry 4): whether an ILLEGAL command word whose (UNIT, OP) pair names a command with one result word
returns that one zero word, or none; R386 counts by command and an illegal word is no command. -/
opaque Config.illegalWordHasResult : Kind → CmdWord → Bool

end Sys2Proof
end

