-- ==== Sys2Proof/Syntax.lean ====
section
/-! DEFINITION. The commands of MLC-1: one constructor per row of spec/opcode_table.json, with the operands of
spec/30_encoding.md R115 and R116, and the transaction that carries one (R110). -/

namespace Sys2Proof

/-- One command transaction as the host presents it: the command word and the three operand words (R110). -/
structure Transaction where
  cw : CmdWord
  a : Word64
  b : Word64
  k : Word64
deriving DecidableEq, Repr

/-- A command with its operands. A sample operand `smp(W)` is kept as its 64-bit operand word, because how many of its lanes
count depends on the construction parameter `C` (R116). -/
inductive Instr where
  -- ENGINE (spec/46_loop_engine.md)
  | eTick (beatTime : B64) (input : Word64)
  | eSetGrid (beats : B64)
  | eSetLoopOffset (beats : B64)
  | eSetFadeTime (beats : B64)
  | eSetTempo (bpm : B64)
  | eSetSampleRate (hz : B64)
  | eSetReverse (r : Bool)
  | eSetSpeed (factor : B32)
  | eStartLooping
  | eStopLooping
  | eReset
  | eReadReg (reg : BitVec 8)
  -- CBUF (spec/40_circular_buffer.md)
  | cbTick (v : Word64)
  | cbRead (d : U32)
  | cbReadInterp (d : B32)
  | cbReset
  -- RAMP (spec/41_ramped_value.md)
  | rvSet (v : B32)
  | rvRamp (target : B32) (n : U32)
  | rvTick
  -- GRAIN (spec/42_grain.md)
  | grNew (wait duration : U32) (offset speed : B32) (fade : U32) (reverse : Bool)
  | grTick
  | grStop
  | grIsFinished
  | grIsWaiting
  | grIsPlaying
  | grIsFadingIn
  | grIsFadingOut
  -- POOL (spec/43_grain_pool.md)
  | gpSchedule (wait duration : U32) (offset speed : B32) (fade : U32) (reverse : Bool)
  | gpStartLooping
  | gpStopLooping
  | gpTick (input : Word64)
  | gpStopAll
  | gpCountPlaying
  | gpCountWaiting
  | gpCountFinished
  | gpMostRecent
  | gpReset
  -- EVSCHED (spec/44_event_scheduler.md)
  | esSchedule (time : B64) (payload : Word64)
  | esTick (now : B64)
  | esClear
  -- LEM (spec/45_loop_event_machine.md)
  | lmStartLooping
  | lmStopLooping
  | lmSetGridInterval (new : B64)
  | lmTick (songTime : B64)
  | lmSetFadeInTime (lead : B64)
  | lmReset
deriving DecidableEq, Repr

/-- The configuration a command belongs to: the one that accepts it (R3, R113, R114). -/
def Instr.kind : Instr → Kind
  | .eTick _ _ | .eSetGrid _ | .eSetLoopOffset _ | .eSetFadeTime _ | .eSetTempo _ | .eSetSampleRate _ | .eSetReverse _
  | .eSetSpeed _ | .eStartLooping | .eStopLooping | .eReset | .eReadReg _ => .engine
  | .cbTick _ | .cbRead _ | .cbReadInterp _ | .cbReset => .cbuf
  | .rvSet _ | .rvRamp _ _ | .rvTick => .ramp
  | .grNew _ _ _ _ _ _ | .grTick | .grStop | .grIsFinished | .grIsWaiting | .grIsPlaying | .grIsFadingIn
  | .grIsFadingOut => .grain
  | .gpSchedule _ _ _ _ _ _ | .gpStartLooping | .gpStopLooping | .gpTick _ | .gpStopAll | .gpCountPlaying
  | .gpCountWaiting | .gpCountFinished | .gpMostRecent | .gpReset => .pool
  | .esSchedule _ _ | .esTick _ | .esClear => .evsched
  | .lmStartLooping | .lmStopLooping | .lmSetGridInterval _ | .lmTick _ | .lmSetFadeInTime _ | .lmReset => .lem

end Sys2Proof
end

