-- ==== Sys2Proof/WellFormed.lean ====
section
/-! DEFINITION. Which commands a configuration may be given (spec/30_encoding.md R113), and which construction parameters
make a valid configuration (spec/00_scope.md R6). Every field of an `Instr` fits its encoding by its type, so that the unit
check is the one check of a command. -/

namespace Sys2Proof

/-- A configuration accepts only the commands of its own unit (R3, R113). -/
abbrev Instr.WellFormed (k : Kind) (i : Instr) : Prop := i.kind = k

/-- `C` is 1 or 2. -/
abbrev Params.validC (p : Params) : Prop := p.C = 1 ∨ p.C = 2
/-- `1 ≤ N ≤ 2^24`. -/
abbrev Params.validN (p : Params) : Prop := 1 ≤ p.N ∧ p.N ≤ 2 ^ 24
/-- `L < R ≤ 2^24`. -/
abbrev Params.validR (p : Params) : Prop := p.L < p.R ∧ p.R ≤ 2 ^ 24
/-- `1 ≤ L`. -/
abbrev Params.validL (p : Params) : Prop := 1 ≤ p.L
/-- `S = L + M ≤ 2^24` (`0 ≤ M` holds of every `Nat`). -/
abbrev Params.validS (p : Params) : Prop := p.S ≤ 2 ^ 24
/-- `1 ≤ G ≤ 256`. -/
abbrev Params.validG (p : Params) : Prop := 1 ≤ p.G ∧ p.G ≤ 256
/-- `4 ≤ Q ≤ 255`. -/
abbrev Params.validQ (p : Params) : Prop := 4 ≤ p.Q ∧ p.Q ≤ 255
/-- `0 ≤ F ≤ 2^24`. -/
abbrev Params.validF (p : Params) : Prop := p.F ≤ 2 ^ 24

/-- The constraints on the parameters that the pool uses (R6, column "used by"). -/
abbrev Params.validPool (p : Params) : Prop := p.validC ∧ p.validR ∧ p.validL ∧ p.validS ∧ p.validG

/-- The construction is a valid configuration: every constraint of R6 on a parameter that this kind uses holds. -/
def Params.validB (p : Params) : Kind → Bool
  | .engine => decide (p.validPool ∧ p.validQ ∧ p.validF)
  | .cbuf => decide (p.validC ∧ p.validN)
  | .ramp => true
  | .grain => true
  | .pool => decide p.validPool
  | .evsched => decide p.validQ
  | .lem => decide p.validQ

/-- `Params.validB` as a proposition. -/
abbrev Params.Valid (p : Params) (k : Kind) : Prop := p.validB k = true

end Sys2Proof
end

