-- ==== Sys2Proof/Decode.lean ====
section
/-! DEFINITION. Decoding a command transaction, total on every word and rejecting by name (spec/30_encoding.md R112 to R121),
and the encoder written from the same tables. -/

namespace Sys2Proof

/-- The unit code of a configuration's own commands (R113). -/
def Kind.code : Kind → BitVec 4
  | .engine => 0x0
  | .cbuf => 0x1
  | .ramp => 0x2
  | .grain => 0x3
  | .pool => 0x4
  | .evsched => 0x5
  | .lem => 0x6

/-- The configuration that a unit code names; 0x7 to 0xE are reserved and 0xF is the custom space (R113, R119). -/
def kindOfCode (u : BitVec 4) : Option Kind :=
  [Kind.engine, .cbuf, .ramp, .grain, .pool, .evsched, .lem].find? fun k => k.code == u

/-- UNIT, bits [31:28] of the command word (R112). -/
def Transaction.unit (t : Transaction) : BitVec 4 := t.cw.extractLsb' 28 4
/-- OP, bits [27:24] of the command word (R112). -/
def Transaction.op (t : Transaction) : BitVec 4 := t.cw.extractLsb' 24 4
/-- RSV, bits [23:16] of the command word (R112). -/
def Transaction.rsv (t : Transaction) : BitVec 8 := t.cw.extractLsb' 16 8
/-- IMM, bits [15:0] of the command word (R112). -/
def Transaction.imm (t : Transaction) : BitVec 16 := t.cw.extractLsb' 0 16

/-- Bits [31:0] of an operand word (R116). -/
def lowHalf (w : Word64) : BitVec 32 := w.extractLsb' 0 32
/-- Bits [63:32] of an operand word (R116). -/
def highHalf (w : Word64) : BitVec 32 := w.extractLsb' 32 32
/-- Two 32-bit values in one word, `{hi, lo}` (R9, R116, R118). -/
def halves (hi lo : BitVec 32) : Word64 := hi ++ lo

/-- IMM[0] as a flag: the reverse flag of E.SET_REVERSE, GR.NEW and GP.SCHEDULE (R115). -/
def Transaction.reverseBit (t : Transaction) : Bool := t.imm.getLsbD 0
/-- IMM[7:0]: the register number of E.READ_REG (R115). -/
def Transaction.regNumber (t : Transaction) : BitVec 8 := t.imm.extractLsb' 0 8

/-- A row of the opcode map of R114: its (UNIT, OP) pair, the IMM bits a legal word may set (`imm_mask`, R121), how many result
words a faulting or rejected command of this row returns (R386), and how the operands are read (R115, R116). -/
structure OpRow where
  kind : Kind
  op : BitVec 4
  immMask : BitVec 16
  zeroWords : Nat
  build : Transaction → Instr

/-- The opcode map of R114, with the immediate masks of R121, the result counts of R386 and the layouts of R116. -/
def opTable : List OpRow := [
  ⟨.engine, 0x0, 0x0000, 1, fun t => .eTick t.a t.b⟩,
  ⟨.engine, 0x1, 0x0000, 0, fun t => .eSetGrid t.a⟩,
  ⟨.engine, 0x2, 0x0000, 0, fun t => .eSetLoopOffset t.a⟩,
  ⟨.engine, 0x3, 0x0000, 0, fun t => .eSetFadeTime t.a⟩,
  ⟨.engine, 0x4, 0x0000, 0, fun t => .eSetTempo t.a⟩,
  ⟨.engine, 0x5, 0x0000, 0, fun t => .eSetSampleRate t.a⟩,
  ⟨.engine, 0x6, 0x0001, 0, fun t => .eSetReverse t.reverseBit⟩,
  ⟨.engine, 0x7, 0x0000, 0, fun t => .eSetSpeed (lowHalf t.a)⟩,
  ⟨.engine, 0x8, 0x0000, 0, fun _ => .eStartLooping⟩,
  ⟨.engine, 0x9, 0x0000, 0, fun _ => .eStopLooping⟩,
  ⟨.engine, 0xA, 0x0000, 0, fun _ => .eReset⟩,
  ⟨.engine, 0xB, 0x00FF, 1, fun t => .eReadReg t.regNumber⟩,
  ⟨.cbuf, 0x0, 0x0000, 0, fun t => .cbTick t.b⟩,
  ⟨.cbuf, 0x1, 0x0000, 1, fun t => .cbRead (lowHalf t.a)⟩,
  ⟨.cbuf, 0x2, 0x0000, 1, fun t => .cbReadInterp (lowHalf t.a)⟩,
  ⟨.cbuf, 0x3, 0x0000, 0, fun _ => .cbReset⟩,
  ⟨.ramp, 0x0, 0x0000, 0, fun t => .rvSet (lowHalf t.a)⟩,
  ⟨.ramp, 0x1, 0x0000, 0, fun t => .rvRamp (lowHalf t.a) (highHalf t.a)⟩,
  ⟨.ramp, 0x2, 0x0000, 1, fun _ => .rvTick⟩,
  ⟨.grain, 0x0, 0x0001, 0, fun t =>
    .grNew (lowHalf t.a) (highHalf t.a) (lowHalf t.b) (highHalf t.b) (lowHalf t.k) t.reverseBit⟩,
  ⟨.grain, 0x1, 0x0000, 1, fun _ => .grTick⟩,
  ⟨.grain, 0x2, 0x0000, 0, fun _ => .grStop⟩,
  ⟨.grain, 0x3, 0x0000, 1, fun _ => .grIsFinished⟩,
  ⟨.grain, 0x4, 0x0000, 1, fun _ => .grIsWaiting⟩,
  ⟨.grain, 0x5, 0x0000, 1, fun _ => .grIsPlaying⟩,
  ⟨.grain, 0x6, 0x0000, 1, fun _ => .grIsFadingIn⟩,
  ⟨.grain, 0x7, 0x0000, 1, fun _ => .grIsFadingOut⟩,
  ⟨.pool, 0x0, 0x0001, 0, fun t =>
    .gpSchedule (lowHalf t.a) (highHalf t.a) (lowHalf t.b) (highHalf t.b) (lowHalf t.k) t.reverseBit⟩,
  ⟨.pool, 0x1, 0x0000, 0, fun _ => .gpStartLooping⟩,
  ⟨.pool, 0x2, 0x0000, 0, fun _ => .gpStopLooping⟩,
  ⟨.pool, 0x3, 0x0000, 1, fun t => .gpTick t.b⟩,
  ⟨.pool, 0x4, 0x0000, 0, fun _ => .gpStopAll⟩,
  ⟨.pool, 0x5, 0x0000, 1, fun _ => .gpCountPlaying⟩,
  ⟨.pool, 0x6, 0x0000, 1, fun _ => .gpCountWaiting⟩,
  ⟨.pool, 0x7, 0x0000, 1, fun _ => .gpCountFinished⟩,
  ⟨.pool, 0x8, 0x0000, 1, fun _ => .gpMostRecent⟩,
  ⟨.pool, 0x9, 0x0000, 0, fun _ => .gpReset⟩,
  ⟨.evsched, 0x0, 0x0000, 0, fun t => .esSchedule t.a t.b⟩,
  ⟨.evsched, 0x1, 0x0000, 1, fun t => .esTick t.a⟩,
  ⟨.evsched, 0x2, 0x0000, 0, fun _ => .esClear⟩,
  ⟨.lem, 0x0, 0x0000, 0, fun _ => .lmStartLooping⟩,
  ⟨.lem, 0x1, 0x0000, 0, fun _ => .lmStopLooping⟩,
  ⟨.lem, 0x2, 0x0000, 0, fun t => .lmSetGridInterval t.a⟩,
  ⟨.lem, 0x3, 0x0000, 1, fun t => .lmTick t.a⟩,
  ⟨.lem, 0x4, 0x0000, 0, fun t => .lmSetFadeInTime t.a⟩,
  ⟨.lem, 0x5, 0x0000, 0, fun _ => .lmReset⟩]

/-- The row of the opcode map with this (UNIT, OP) pair, if it has one. -/
def opRow (unit op : BitVec 4) : Option OpRow :=
  opTable.find? fun r => r.kind.code == unit && r.op == op

/-- Why a word is no legal command: the four conditions of R117, and a transport that ended before the words were complete. -/
inductive DecodeError where
  /-- UNIT is not the configuration's own unit code -/
  | wrongUnit
  /-- (UNIT, OP) is not in the opcode map -/
  | unknownOp
  /-- RSV is not zero -/
  | reservedNonzero
  /-- IMM has a nonzero bit outside the command's mask -/
  | immediateNonzero
  /-- the byte transport held fewer bytes than a transaction has -/
  | truncated
deriving DecidableEq, Repr

/-- The decoding procedure of R121, in its order of checks, with the operands read by R115 and R116. -/
def decode (k : Kind) (t : Transaction) : Except DecodeError Instr :=
  if t.unit ≠ k.code then .error .wrongUnit
  else
    match opRow t.unit t.op with
    | none => .error .unknownOp
    | some r =>
      if t.rsv ≠ 0 then .error .reservedNonzero
      else if t.imm &&& ~~~r.immMask ≠ 0 then .error .immediateNonzero
      else .ok (r.build t)

/-- The OP code of a command (R114). -/
def Instr.op : Instr → BitVec 4
  | .eTick _ _ => 0x0
  | .eSetGrid _ => 0x1
  | .eSetLoopOffset _ => 0x2
  | .eSetFadeTime _ => 0x3
  | .eSetTempo _ => 0x4
  | .eSetSampleRate _ => 0x5
  | .eSetReverse _ => 0x6
  | .eSetSpeed _ => 0x7
  | .eStartLooping => 0x8
  | .eStopLooping => 0x9
  | .eReset => 0xA
  | .eReadReg _ => 0xB
  | .cbTick _ => 0x0
  | .cbRead _ => 0x1
  | .cbReadInterp _ => 0x2
  | .cbReset => 0x3
  | .rvSet _ => 0x0
  | .rvRamp _ _ => 0x1
  | .rvTick => 0x2
  | .grNew _ _ _ _ _ _ => 0x0
  | .grTick => 0x1
  | .grStop => 0x2
  | .grIsFinished => 0x3
  | .grIsWaiting => 0x4
  | .grIsPlaying => 0x5
  | .grIsFadingIn => 0x6
  | .grIsFadingOut => 0x7
  | .gpSchedule _ _ _ _ _ _ => 0x0
  | .gpStartLooping => 0x1
  | .gpStopLooping => 0x2
  | .gpTick _ => 0x3
  | .gpStopAll => 0x4
  | .gpCountPlaying => 0x5
  | .gpCountWaiting => 0x6
  | .gpCountFinished => 0x7
  | .gpMostRecent => 0x8
  | .gpReset => 0x9
  | .esSchedule _ _ => 0x0
  | .esTick _ => 0x1
  | .esClear => 0x2
  | .lmStartLooping => 0x0
  | .lmStopLooping => 0x1
  | .lmSetGridInterval _ => 0x2
  | .lmTick _ => 0x3
  | .lmSetFadeInTime _ => 0x4
  | .lmReset => 0x5

/-- How many zero result words a command returns when it faults or is rejected (R386): the third column of its row. -/
def Instr.zeroWords (i : Instr) : Nat :=
  match opRow i.kind.code i.op with
  | some r => r.zeroWords
  | none => 0

/-- The immediate field of a command (R115). -/
def Instr.imm : Instr → BitVec 16
  | .eSetReverse r => BitVec.setWidth 16 (BitVec.ofBool r)
  | .eReadReg reg => BitVec.setWidth 16 reg
  | .grNew _ _ _ _ _ r => BitVec.setWidth 16 (BitVec.ofBool r)
  | .gpSchedule _ _ _ _ _ r => BitVec.setWidth 16 (BitVec.ofBool r)
  | _ => 0

/-- The operand word A of a command (R116); zero where the command does not use it. -/
def Instr.wordA : Instr → Word64
  | .eTick t _ => t
  | .eSetGrid x => x
  | .eSetLoopOffset x => x
  | .eSetFadeTime x => x
  | .eSetTempo x => x
  | .eSetSampleRate x => x
  | .eSetSpeed x => halves 0 x
  | .cbRead d => halves 0 d
  | .cbReadInterp d => halves 0 d
  | .rvSet v => halves 0 v
  | .rvRamp target n => halves n target
  | .grNew wait duration _ _ _ _ => halves duration wait
  | .gpSchedule wait duration _ _ _ _ => halves duration wait
  | .esSchedule time _ => time
  | .esTick now => now
  | .lmSetGridInterval x => x
  | .lmTick x => x
  | .lmSetFadeInTime x => x
  | _ => 0

/-- The operand word B of a command (R116); zero where the command does not use it. -/
def Instr.wordB : Instr → Word64
  | .eTick _ input => input
  | .cbTick v => v
  | .grNew _ _ offset speed _ _ => halves speed offset
  | .gpSchedule _ _ offset speed _ _ => halves speed offset
  | .gpTick input => input
  | .esSchedule _ payload => payload
  | _ => 0

/-- The operand word K of a command (R116); zero where the command does not use it. -/
def Instr.wordK : Instr → Word64
  | .grNew _ _ _ _ fade _ => halves 0 fade
  | .gpSchedule _ _ _ _ fade _ => halves 0 fade
  | _ => 0

/-- The command word `(UNIT << 28) | (OP << 24) | IMM` (R121). -/
def Instr.cw (i : Instr) : CmdWord := i.kind.code ++ i.op ++ (0 : BitVec 8) ++ i.imm

/-- The transaction that presents a command: its command word and operand words. -/
def encode (i : Instr) : Transaction := ⟨i.cw, i.wordA, i.wordB, i.wordK⟩

/-- The low `n` bytes of a number, the least-significant byte first (R90). -/
def leBytes : Nat → Nat → List (BitVec 8)
  | 0, _ => []
  | n + 1, w => BitVec.ofNat 8 w :: leBytes n (w / 256)

/-- The number that a list of bytes carries, the least-significant byte first (R90). -/
def ofLeBytes : List (BitVec 8) → Nat
  | [] => 0
  | x :: xs => x.toNat + 256 * ofLeBytes xs

/-- A transaction serialised into bytes, each word least-significant byte first (R90); the order CW, A, B, K of the words is
the model's (log entry 5). -/
def Transaction.serialise (t : Transaction) : List (BitVec 8) :=
  leBytes 4 t.cw.toNat ++ leBytes 8 t.a.toNat ++ leBytes 8 t.b.toNat ++ leBytes 8 t.k.toNat

/-- The transaction that the first 28 of these bytes carry, and the bytes after it; `none` when there are fewer. -/
def deserialise (bytes : List (BitVec 8)) : Option (Transaction × List (BitVec 8)) :=
  if bytes.length < 28 then none
  else
    some (⟨BitVec.ofNat 32 (ofLeBytes (bytes.take 4)), BitVec.ofNat 64 (ofLeBytes ((bytes.drop 4).take 8)),
      BitVec.ofNat 64 (ofLeBytes ((bytes.drop 12).take 8)), BitVec.ofNat 64 (ofLeBytes ((bytes.drop 20).take 8))⟩,
      bytes.drop 28)

/-- Decoding from a byte transport, total on any bytes: the command and the bytes after it. -/
def decodeBytes (k : Kind) (bytes : List (BitVec 8)) : Except DecodeError (Instr × List (BitVec 8)) :=
  match deserialise bytes with
  | none => .error .truncated
  | some (t, rest) =>
    match decode k t with
    | .ok i => .ok (i, rest)
    | .error e => .error e

/-- The transaction whose bits are `w` as the opcode table numbers them: bit 0 is bit 0 of the command word and the operand
words follow; every bit from `nbits` up is zero. -/
def tableTransaction (nbits w : Nat) : Transaction :=
  let v := w % 2 ^ nbits
  ⟨BitVec.ofNat 32 v, BitVec.ofNat 64 (v / 2 ^ 32), BitVec.ofNat 64 (v / 2 ^ 96), BitVec.ofNat 64 (v / 2 ^ 160)⟩

/-- The command the decoder reads from an instruction whose bits are `w`, laid out in the bytes of R90 and given to the decoder
of the configuration that the word's UNIT field names. -/
def decodeTableWord (nbits w : Nat) : Option Instr :=
  let t := tableTransaction nbits w
  match kindOfCode t.unit with
  | none => none
  | some k =>
    match decodeBytes k t.serialise with
    | .ok (i, _) => some i
    | .error _ => none

end Sys2Proof
end

