-- ==== Sys2Proof/Machine/Float.lean ====
section
/-! DEFINITION. IEEE 754 arithmetic, comparison and conversion in binary32 and binary64 (spec/00_scope.md R14 to R18).

A finite value is held exactly as a whole number of units, one unit being the smallest positive subnormal of the format
(2^-149 or 2^-1074), so that a sum is a sum of integers and every operation is an exact rational result rounded once. -/

namespace Sys2Proof.Machine

/-- A binary floating-point format: the bits of its significand, the place of 1.0 in units (1.0 is `2 ^ scale` units) and the
magnitude bits of infinity. -/
structure Fmt where
  p : Nat
  scale : Nat
  inf : Nat
deriving DecidableEq, Repr

/-- binary32 (R7). -/
def fmt32 : Fmt := ⟨24, 149, 0x7F800000⟩
/-- binary64 (R7). -/
def fmt64 : Fmt := ⟨53, 1074, 0x7FF0000000000000⟩

/-- A floating-point datum as its sign and its magnitude bits (exponent and fraction fields together). -/
structure Flt where
  neg : Bool
  mag : Nat
deriving DecidableEq, Repr

def Flt.isNaN (f : Fmt) (x : Flt) : Bool := decide (f.inf < x.mag)
def Flt.isInf (f : Fmt) (x : Flt) : Bool := decide (x.mag = f.inf)
def Flt.isFinite (f : Fmt) (x : Flt) : Bool := decide (x.mag < f.inf)

/-- The magnitude of a finite datum in units: fraction field alone in the lowest binade, with the hidden bit above it. -/
def magUnits (f : Fmt) (mag : Nat) : Nat :=
  let e := mag / 2 ^ (f.p - 1)
  let m := mag % 2 ^ (f.p - 1)
  if e = 0 then m else (2 ^ (f.p - 1) + m) * 2 ^ (e - 1)

/-- The value of a finite datum in units. -/
def Flt.units (f : Fmt) (x : Flt) : Int := if x.neg then -(magUnits f x.mag : Int) else magUnits f x.mag

/-- A nonnegative rational `num / den` of units, rounded to nearest, ties to even, as magnitude bits (R14). `k` binades above
the lowest the significand has weight `2 ^ k`; the bits of a significand `q` there are `k * 2 ^ (p - 1) + q`, in the lowest
binade as in every other, a carry out of the significand included; from the bits of infinity up the result is infinity. -/
def roundMag (f : Fmt) (num den : Nat) : Nat :=
  let k := Nat.log2 (num / den) + 1 - f.p
  let d := den * 2 ^ k
  let q := num / d
  let r := num % d
  min (k * 2 ^ (f.p - 1) + (if d < 2 * r ∨ (2 * r = d ∧ q % 2 = 1) then q + 1 else q)) f.inf

/-- Addition (R14): the exact integer sum of units, rounded once; an exact zero is negative only if both operands are. `none`
stands for a NaN result. -/
def Flt.add (f : Fmt) (x y : Flt) : Option Flt :=
  if x.isNaN f || y.isNaN f then none
  else if x.isInf f then (if y.isInf f && (x.neg != y.neg) then none else some x)
  else if y.isInf f then some y
  else
    let z := x.units f + y.units f
    some ⟨if z = 0 then x.neg && y.neg else decide (z < 0), roundMag f z.natAbs 1⟩

/-- Multiplication (R14): the exact product of units, whose unit is `2 ^ -scale` of a unit, rounded once. -/
def Flt.mul (f : Fmt) (x y : Flt) : Option Flt :=
  if x.isNaN f || y.isNaN f then none
  else if x.isInf f then (if y.mag = 0 then none else some ⟨x.neg != y.neg, f.inf⟩)
  else if y.isInf f then (if x.mag = 0 then none else some ⟨x.neg != y.neg, f.inf⟩)
  else some ⟨x.neg != y.neg, roundMag f (magUnits f x.mag * magUnits f y.mag) (2 ^ f.scale)⟩

/-- Division (R14): the exact quotient of units, rounded once. -/
def Flt.div (f : Fmt) (x y : Flt) : Option Flt :=
  if x.isNaN f || y.isNaN f then none
  else if x.isInf f then (if y.isInf f then none else some ⟨x.neg != y.neg, f.inf⟩)
  else if y.isInf f then some ⟨x.neg != y.neg, 0⟩
  else if y.mag = 0 then (if x.mag = 0 then none else some ⟨x.neg != y.neg, f.inf⟩)
  else some ⟨x.neg != y.neg, roundMag f (magUnits f x.mag * 2 ^ f.scale) (magUnits f y.mag)⟩

/-- The sign and magnitude of a binary32 word. -/
def unpack32 (x : B32) : Flt := ⟨x.msb, x.toNat % 2 ^ 31⟩
/-- The sign and magnitude of a binary64 word. -/
def unpack64 (x : B64) : Flt := ⟨x.msb, x.toNat % 2 ^ 63⟩
/-- The binary32 word of a sign and magnitude. -/
def pack32 (x : Flt) : B32 := BitVec.ofNat 32 (x.mag + if x.neg then 2 ^ 31 else 0)
/-- The binary64 word of a sign and magnitude. -/
def pack64 (x : Flt) : B64 := BitVec.ofNat 64 (x.mag + if x.neg then 2 ^ 63 else 0)

/-- The quiet NaN of binary32 with this sign (top bit) and payload: the quiet bit is set, the rest is free (R14, I-NUM-1). -/
def quietNaN32 (v : BitVec 23) : B32 := pack32 ⟨v.msb, 0x7FC00000 + v.toNat % 2 ^ 22⟩
/-- The quiet NaN of binary64 with this sign (top bit) and payload. -/
def quietNaN64 (v : BitVec 52) : B64 := pack64 ⟨v.msb, 0x7FF8000000000000 + v.toNat % 2 ^ 51⟩

/-- A binary32 result: the word of a datum, or a quiet NaN of open payload for these operands. -/
def result32 (op : FloatOp) (x y : B32) (r : Option Flt) : B32 :=
  match r with
  | some z => pack32 z
  | none => quietNaN32 (Config.nan32 op x y)

/-- A binary64 result: the word of a datum, or a quiet NaN of open payload for these operands. -/
def result64 (op : FloatOp) (x y : B64) (r : Option Flt) : B64 :=
  match r with
  | some z => pack64 z
  | none => quietNaN64 (Config.nan64 op x y)

/-- Unary minus flips the sign bit (R14). -/
def neg32 (x : B32) : B32 := x ^^^ 0x80000000#32
/-- Unary minus flips the sign bit (R14). -/
def neg64 (x : B64) : B64 := x ^^^ 0x8000000000000000#64

def add32 (x y : B32) : B32 := result32 .add x y (Flt.add fmt32 (unpack32 x) (unpack32 y))
/-- Subtraction is addition of the operand with its sign flipped; a NaN operand gives a NaN either way. -/
def sub32 (x y : B32) : B32 := result32 .sub x y (Flt.add fmt32 (unpack32 x) (unpack32 (neg32 y)))
def mul32 (x y : B32) : B32 := result32 .mul x y (Flt.mul fmt32 (unpack32 x) (unpack32 y))
def div32 (x y : B32) : B32 := result32 .div x y (Flt.div fmt32 (unpack32 x) (unpack32 y))

def add64 (x y : B64) : B64 := result64 .add x y (Flt.add fmt64 (unpack64 x) (unpack64 y))
/-- Subtraction is addition of the operand with its sign flipped; a NaN operand gives a NaN either way. -/
def sub64 (x y : B64) : B64 := result64 .sub x y (Flt.add fmt64 (unpack64 x) (unpack64 (neg64 y)))
def mul64 (x y : B64) : B64 := result64 .mul x y (Flt.mul fmt64 (unpack64 x) (unpack64 y))
def div64 (x y : B64) : B64 := result64 .div x y (Flt.div fmt64 (unpack64 x) (unpack64 y))

def isNaN32 (x : B32) : Bool := (unpack32 x).isNaN fmt32
def isNaN64 (x : B64) : Bool := (unpack64 x).isNaN fmt64
/-- `finite(x)`: neither an infinity nor a NaN (R15). -/
def finite32 (x : B32) : Bool := (unpack32 x).isFinite fmt32
/-- `finite(x)`: neither an infinity nor a NaN (R15). -/
def finite64 (x : B64) : Bool := (unpack64 x).isFinite fmt64

/-- The magnitude bits with their sign: on values that are no NaN, an order that is the order of the values, the two zeros
being one (R15). -/
def Flt.key (x : Flt) : Int := if x.neg then -(x.mag : Int) else x.mag

/-- `x < y` (R15): false with a NaN. -/
def lt32 (x y : B32) : Bool := !isNaN32 x && !isNaN32 y && decide ((unpack32 x).key < (unpack32 y).key)
/-- `x < y` (R15): false with a NaN. -/
def lt64 (x y : B64) : Bool := !isNaN64 x && !isNaN64 y && decide ((unpack64 x).key < (unpack64 y).key)
/-- `x ≤ y` (R15): false with a NaN. -/
def le64 (x y : B64) : Bool := !isNaN64 x && !isNaN64 y && decide ((unpack64 x).key ≤ (unpack64 y).key)
/-- `x == y` (R15): false with a NaN, and `+0 == -0`. -/
def eq64 (x y : B64) : Bool := !isNaN64 x && !isNaN64 y && decide ((unpack64 x).key = (unpack64 y).key)

/-- `to32(x)` (R16): a binary64 value rounded once to binary32. -/
def to32 (x : B64) : B32 :=
  let u := unpack64 x
  if u.isNaN fmt64 then quietNaN32 (Config.nanTo32 x)
  else if u.isInf fmt64 then pack32 ⟨u.neg, fmt32.inf⟩
  else pack32 ⟨u.neg, roundMag fmt32 (magUnits fmt64 u.mag) (2 ^ (fmt64.scale - fmt32.scale))⟩

/-- `f32(n)` (R16): an integer count rounded once to binary32. -/
def f32 (n : Nat) : B32 := pack32 ⟨false, roundMag fmt32 (n * 2 ^ fmt32.scale) 1⟩
/-- `f64(n)` (R16): an integer count rounded once to binary64. -/
def f64 (n : Nat) : B64 := pack64 ⟨false, roundMag fmt64 (n * 2 ^ fmt64.scale) 1⟩

/-- `floor(x)` of a finite binary32 value (R16). -/
def floor32 (x : B32) : Int := (unpack32 x).units fmt32 / (2 ^ fmt32.scale : Int)
/-- `ceil(x)` of a finite binary32 value (R16). -/
def ceil32 (x : B32) : Int := -(-(unpack32 x).units fmt32 / (2 ^ fmt32.scale : Int))

/-- `ceil(x)` of a finite binary64 value as an integer (R16). -/
def ceilInt64 (x : B64) : Int := -(-(unpack64 x).units fmt64 / (2 ^ fmt64.scale : Int))

/-- `ceil(x)` as the binary64 operand that R291 multiplies; exact, and of the sign of `x`, so that `ceil(-0.3)` is `-0.0`
(log entry 6, from V-NGB row 10). Of a value that is not finite it is a free value (log entry 3). -/
def ceil64 (x : B64) : B64 :=
  if finite64 x then
    pack64 ⟨(unpack64 x).neg, roundMag fmt64 ((ceilInt64 x).natAbs * 2 ^ fmt64.scale) 1⟩
  else Config.ceilNonFinite x

/-- `round_away(x)` of a finite binary64 value (R17): the nearest integer, a tie going away from zero. -/
def roundAway (x : B64) : Int :=
  let u := unpack64 x
  let n := (2 * magUnits fmt64 u.mag + 2 ^ fmt64.scale) / 2 ^ (fmt64.scale + 1)
  if u.neg then -(n : Int) else n

/-- `+0.0` and `1.0` in binary32. -/
def zero32 : B32 := 0x00000000#32
def one32 : B32 := 0x3F800000#32
/-- `+0.0`, `1.0` and `60.0` in binary64. -/
def zero64 : B64 := 0x0000000000000000#64
def one64 : B64 := 0x3FF0000000000000#64
def sixty64 : B64 := 0x404E000000000000#64

/-- `0̄`: the sample with `+0.0` in every lane (R18). -/
def zeroSample (c : Nat) : Sample := List.replicate c zero32
/-- `a + b`, lane by lane (R8, R18). -/
def Sample.add (a b : Sample) : Sample := List.zipWith add32 a b
/-- `a - b`, lane by lane (R8, R18). -/
def Sample.sub (a b : Sample) : Sample := List.zipWith sub32 a b
/-- `a × s`, the same factor in every lane (R8, R18). -/
def Sample.scale (a : Sample) (s : B32) : Sample := a.map fun x => mul32 x s

end Sys2Proof.Machine
end

