-- ==== Sys2Proof/Machine/Units.lean ====
section
/-! DEFINITION. The state of the seven units, as plain data (spec/10_state.md R32 to R45). -/

namespace Sys2Proof.Machine

/-- The causes of a fault, codes 1 to 9 of spec/60_exceptions.md R381; code 0 is "no fault has occurred". -/
inductive Cause where
  | illegalCommand
  | cbufReadRange
  | schedNonMonotonic
  | schedFull
  | timeNotIncreasing
  | fadeExceedsDuration
  | loopTooLong
  | badParameter
  | fadeTooLong
deriving DecidableEq, Repr

/-- The fault register FAULT (R32). -/
structure FaultReg where
  valid : Bool
  cause : BitVec 8
  unit : BitVec 4
  op : BitVec 4
deriving DecidableEq, Repr

/-- A circular buffer (R33). The slots are held as the list of those that differ from `0̄`, by rising index: a slot that is not
listed holds `0̄`, which is what it holds at power-on. The capacity is a construction parameter, not state. -/
structure CBuf where
  cells : List (Nat × Sample)
  w : Nat
deriving DecidableEq, Repr

/-- A ramped value (R34). -/
structure Ramp where
  v : B32
  s : B32
  t : B32
  rem : U33
  tot : U33
deriving DecidableEq, Repr

/-- A grain (R35). -/
structure Grain where
  wait : U32
  pos : B32
  dur : U32
  fade : U32
  el : U32
  inc : B32
  env : Ramp
deriving DecidableEq, Repr

/-- The pool's buffer-handoff phase (R37); the code 3 is never held. -/
inductive Phase where
  | notLooping | fillingStatic | usingStatic
deriving DecidableEq, Repr

/-- A grain pool (R37). `grain` holds the `G` slots, slot 0 first. -/
structure Pool where
  grain : List Grain
  ROLL : CBuf
  STAT : CBuf
  roff : U32
  copy : U32
  phase : Phase
deriving DecidableEq, Repr

/-- A pending entry of an event queue: its time and its payload (R39). -/
structure Entry (α : Type) where
  time : B64
  payload : α
deriving DecidableEq, Repr

/-- The kinds of loop event (R40); the codes 6 to 15 are never created. -/
inductive EventKind where
  | startGrain | startLegatoGrain | stopGrain | fadeOutDry | fadeInDry | nextLoop
deriving DecidableEq, Repr

/-- A loop event record (R40). -/
structure LoopEvent where
  kind : EventKind
  dur : B64
  red : B64
deriving DecidableEq, Repr

/-- An event queue: its pending entries `e[0 … n-1]`, first to fire first; `n` is the length (R39). Entries at index `n` and
above are not observable and are not held (log entry 8). -/
abbrev EvQueue (α : Type) := List (Entry α)

/-- A loop event machine (R41). -/
structure Lem where
  q : EvQueue LoopEvent
  grid : B64
  lead : B64
  cst : Option B64
  looping : Bool
  tli : B64
  first : Bool
deriving DecidableEq, Repr

/-- The ENGINE: its pool, its loop event machine, its dry ramp and its parameter registers (R43, R44). -/
structure Engine where
  P : Pool
  E : Lem
  DRY : Ramp
  offset : B64
  tempo : B64
  sr : B64
  speed : B32
  reverse : Bool
deriving DecidableEq, Repr

/-- The one unit an instance is built as, with its state (R3). -/
inductive UnitState where
  | engine (e : Engine)
  | cbuf (b : CBuf)
  | ramp (r : Ramp)
  | grain (g : Grain)
  | pool (p : Pool)
  | evsched (q : EvQueue Word64)
  | lem (m : Lem)
deriving DecidableEq, Repr

/-- The status of a command (R110); the code 3 is never returned. -/
inductive Status where
  | ok | fault | faulted
deriving DecidableEq, Repr

/-- What a command returns: its status ST and its result words RES (R110). -/
structure Response where
  st : Status
  res : List Word64
deriving DecidableEq, Repr

/-- What the host does at the hardware: present a command on the command port (R110), or assert the reset input (R410). -/
inductive PortInput where
  | command (t : Transaction)
  | reset
deriving DecidableEq, Repr

end Sys2Proof.Machine
end

