-- ==== Sys2Proof/Machine/Operands.lean ====
section
/-! DEFINITION. How values are carried in operand and result words (spec/30_encoding.md R116, R118; spec/20_memory.md R90), the
codes of named values, and the pseudo-instruction E.RUN (R123). The operand fields themselves are read in Decode.lean. -/

namespace Sys2Proof.Machine

/-- `smp(W)`: lane `k < C` is bits [32k+31:32k] of the word (R116). -/
def smp (c : Nat) (w : Word64) : Sample := (List.range c).map fun k => w.extractLsb' (32 * k) 32

/-- A sample as a result word: lane `k` in bits [32k+31:32k], unused bits zero (R118). -/
def sampleWord : Sample → Word64
  | [] => 0
  | l :: ls => (sampleWord ls <<< 32) ||| BitVec.setWidth 64 l

/-- A 32-bit value as a result word: bits [31:0], [63:32] zero (R118). -/
def word32 (x : BitVec 32) : Word64 := BitVec.setWidth 64 x
/-- A count as a result word (R118). -/
def wordNat (n : Nat) : Word64 := BitVec.ofNat 64 n
/-- A condition as a result word: 1 or 0 (R118). -/
def wordBool (b : Bool) : Word64 := BitVec.setWidth 64 (BitVec.ofBool b)

/-- The 8-bit code of a cause (R381). -/
def Cause.code : Cause → BitVec 8
  | .illegalCommand => 1
  | .cbufReadRange => 2
  | .schedNonMonotonic => 3
  | .schedFull => 4
  | .timeNotIncreasing => 5
  | .fadeExceedsDuration => 6
  | .loopTooLong => 7
  | .badParameter => 8
  | .fadeTooLong => 9

/-- The 2-bit code of a status (R110). -/
def Status.code : Status → BitVec 2
  | .ok => 0
  | .fault => 1
  | .faulted => 2

/-- The 2-bit code of a phase (R37). -/
def Phase.code : Phase → BitVec 2
  | .notLooping => 0
  | .fillingStatic => 1
  | .usingStatic => 2

/-- The 4-bit code of an event kind (R40). -/
def EventKind.code : EventKind → BitVec 4
  | .startGrain => 0
  | .startLegatoGrain => 1
  | .stopGrain => 2
  | .fadeOutDry => 3
  | .fadeInDry => 4
  | .nextLoop => 5

/-- The three result words of an event: kind, dur, red (R118). -/
def LoopEvent.words (e : LoopEvent) : List Word64 := [BitVec.setWidth 64 e.kind.code, e.dur, e.red]

/-- The results of ES.TICK: how many events, then their payloads in order (R118). -/
def payloadWords (ps : List Word64) : List Word64 := wordNat ps.length :: ps
/-- The results of LM.TICK: how many events, then three words for each in order (R118). -/
def eventWords (es : List LoopEvent) : List Word64 := wordNat es.length :: es.flatMap LoopEvent.words

/-- The result of GR.TICK: the delay position in [31:0], the gain in [63:32] (R118). -/
def positionGainWord (pos gain : B32) : Word64 := halves gain pos

/-- The result of GP.MOST_RECENT: valid in [0], the slot in [15:8], the grain's elapsed count in [63:32] (R118). -/
def mostRecentWord : Option (Nat × Grain) → Word64
  | none => 0
  | some (slot, g) => halves g.el ((0 : BitVec 16) ++ BitVec.ofNat 8 slot ++ (0x01 : BitVec 8))

/-- `E.RUN in=[x0, x1, …], k0=K, spb=P`: one E.TICK for each input word, the `i`-th at beat time `f64(K + i) / P` (R123). -/
def eRun (inputs : List Word64) (k0 : Nat) (spb : B64) : List Instr :=
  inputs.mapIdx fun i x => .eTick (div64 (f64 (k0 + i)) spb) x

end Sys2Proof.Machine
end

