-- ==== Sys2Proof/Machine/PowerOn.lean ====
section
/-! DEFINITION. The power-on value of every element (spec/10_state.md R32 to R44, R49), and the construction parameters that
the reset state is built with (log entry 1). -/

namespace Sys2Proof.Machine

/-- FAULT at power-on (R32). -/
def powerOnFault : FaultReg := ⟨false, 0, 0, 0⟩
/-- A buffer at power-on: every slot `0̄`, the cursor 0 (R33). -/
def powerOnCBuf : CBuf := ⟨[], 0⟩
/-- A ramp whose value, start and target are all `x`, with no step left: a standalone RAMP at power-on and a grain's envelope
with `x = +0.0` (R34, R35), the dry ramp with `x = 1.0` (R44). -/
def steadyRamp (x : B32) : Ramp := ⟨x, x, x, 0, 0⟩
/-- A grain at power-on: finished (R35). -/
def powerOnGrain : Grain := ⟨0, 0x00000000, 0, 0, 0, 0x00000000, steadyRamp 0x00000000⟩
/-- A pool of `g` slots at power-on (R37). -/
def powerOnPool (g : Nat) : Pool := ⟨List.replicate g powerOnGrain, powerOnCBuf, powerOnCBuf, 0, 0, .notLooping⟩
/-- A loop event machine at power-on: grid 1.0, lead 0.0 (R41). -/
def powerOnLem : Lem := ⟨[], 0x3FF0000000000000, 0, none, false, 0, false⟩
/-- The ENGINE at power-on: offset 1.0, tempo 120.0, sample rate 48000.0, speed 1.0, forward, dry level 1.0 (R43, R44). -/
def powerOnEngine (g : Nat) : Engine :=
  ⟨powerOnPool g, powerOnLem, steadyRamp 0x3F800000, 0x3FF0000000000000, 0x405E000000000000, 0x40E7700000000000,
    0x3F800000, false⟩

/-- The power-on state of a configuration (R49). -/
def powerOnUnit (p : Params) : Kind → UnitState
  | .engine => .engine (powerOnEngine p.G)
  | .cbuf => .cbuf powerOnCBuf
  | .ramp => .ramp (steadyRamp 0x00000000)
  | .grain => .grain powerOnGrain
  | .pool => .pool (powerOnPool p.G)
  | .evsched => .evsched []
  | .lem => .lem powerOnLem

/-- DESIGN CHOICE (log entry 1): the configuration of the reset state is the full block. -/
def resetKind : Kind := .engine

/-- DESIGN CHOICE (log entry 1): the construction parameters of the reset state. The spec leaves them OPEN (D7); these are the
ENGINE values that spec/95_test_vectors.md uses, and `N = 4` of its CBUF vectors. -/
def resetParams : Params := { C := 1, N := 4, R := 64, L := 20, M := 5, G := 4, Q := 8, F := 10 }

end Sys2Proof.Machine
end

