-- ==== Sys2Proof/Machine/State.lean ====
section
/-! DEFINITION. The state of the machine, its stops, and the machine right after reset. -/

namespace Sys2Proof.Machine

/-- Why the machine would stop for good. There is no constructor: a contract violation of this hardware is a sticky fault that
it latches in FAULT and goes on from (spec/60_exceptions.md R384, R389), so that every step of the model answers a next state.
Safe: no behaviour of the hardware is cut off. -/
inductive Fault
deriving DecidableEq, Repr

/-- Why the model has no meaning for what it is given. -/
inductive Refusal where
  /-- Raised by an arm of `exec` whose command has no meaning in the model yet; no arm raises it. Safe. -/
  | notModelled (mnemonic : String)
  /-- Raised by `construct` for construction parameters that break a constraint of R6: "a model refuses it" (R6, I-CFG-1). No
  command raises it. Safe. -/
  | illegalConstruction
deriving DecidableEq, Repr

/-- The whole machine. `params`, `fault` and `unit` are the hardware's own state (spec/10_state.md); `port` and `resp` are the
two ends of its command port: what the host will do next, first thing first (spec/20_memory.md R95), and what the last command
returned (spec/30_encoding.md R110). -/
structure State where
  /-- the construction parameters of R6; no command changes one -/
  params : Params
  /-- the fault register FAULT (R32) -/
  fault : FaultReg
  /-- the unit the instance is built as, with its state (R3, R33 to R44) -/
  unit : UnitState
  /-- MODEL's own: what the host presents, in order (log entry 7) -/
  port : List PortInput
  /-- MODEL's own: the status and result words the last command returned; none before the first (log entry 7) -/
  resp : Option Response
deriving DecidableEq, Repr

/-- The state of an instance right after construction or hardware reset, with nothing presented (R49, R410). -/
def State.powerOn (p : Params) (k : Kind) : State := ⟨p, powerOnFault, powerOnUnit p k, [], none⟩

/-- Building an instance: a construction whose parameters break a constraint of R6 is refused. -/
def construct (p : Params) (k : Kind) : Except Refusal State :=
  if p.Valid k then .ok (State.powerOn p k) else .error .illegalConstruction

/-- The machine right after reset, with the kind and parameters of log entry 1. -/
def State.reset : State := State.powerOn resetParams resetKind

end Sys2Proof.Machine
end

