-- ==== Sys2Proof/Machine/Flags.lean ====
section
/-! DEFINITION. The status bits, derived and stored (spec/10_state.md R36, R45; spec/42_grain.md R200 to R204; spec/43_grain_pool.md
R241 to R243), and the fault outputs of the port (spec/60_exceptions.md R387). Counters are compared as integers, so that no
sum or difference wraps. -/

namespace Sys2Proof.Machine

/-- `finished(g) = el ≥ dur` (R200). -/
def Grain.finished (g : Grain) : Bool := decide (g.dur.toNat ≤ g.el.toNat)
/-- `waiting(g) = ¬finished(g) ∧ wait > 0` (R201). -/
def Grain.waiting (g : Grain) : Bool := !g.finished && decide (0 < g.wait.toNat)
/-- `playing(g) = ¬finished(g) ∧ wait = 0` (R202). -/
def Grain.playing (g : Grain) : Bool := !g.finished && decide (g.wait.toNat = 0)
/-- `el ≥ dur - fade` in integers: the fade-out region of R196. -/
def Grain.inFadeOutRegion (g : Grain) : Bool := decide (g.dur.toNat ≤ g.el.toNat + g.fade.toNat)
/-- `fading_in(g) = playing(g) ∧ el < fade` (R203). -/
def Grain.fadingIn (g : Grain) : Bool := g.playing && decide (g.el.toNat < g.fade.toNat)
/-- `fading_out(g) = playing(g) ∧ el ≥ dur - fade` (R204). -/
def Grain.fadingOut (g : Grain) : Bool := g.playing && g.inFadeOutRegion

/-- The number of slots whose grain is playing (R241). -/
def Pool.countPlaying (p : Pool) : Nat := p.grain.countP Grain.playing
/-- The number of slots whose grain is waiting (R242). -/
def Pool.countWaiting (p : Pool) : Nat := p.grain.countP Grain.waiting
/-- The number of slots whose grain is finished (R243). -/
def Pool.countFinished (p : Pool) : Nat := p.grain.countP Grain.finished

/-- Dry ramping: `DRY.rem > 0` (R45). -/
def Engine.dryRamping (e : Engine) : Bool := decide (0 < e.DRY.rem.toNat)
/-- Song time valid: `cst ≠ none` (R45). -/
def Lem.songTimeValid (m : Lem) : Bool := m.cst.isSome

/-- The level outputs `fault`, `fault_cause`, `fault_unit` and `fault_op` that every configuration drives (R387). -/
structure FaultPins where
  fault : BitVec 1
  faultCause : BitVec 8
  faultUnit : BitVec 4
  faultOp : BitVec 4
deriving DecidableEq, Repr

/-- The port drives the fault register, continuously (R387). -/
def State.faultPins (s : State) : FaultPins := ⟨BitVec.ofBool s.fault.valid, s.fault.cause, s.fault.unit, s.fault.op⟩

end Sys2Proof.Machine
end

