-- ==== Sys2Proof/Machine/Ops.lean ====
section
/-! DEFINITION. The shared operations: the sample memories, what a command returns, taking a fault, rejecting a command, and the
frame every command runs in (spec/20_memory.md, spec/60_exceptions.md R383 to R386). -/

namespace Sys2Proof.Machine

/-- The sample a slot holds; a slot that is not listed holds `z`, the sample `0̄` (R33). -/
def cellsGet (z : Sample) : List (Nat × Sample) → Nat → Sample
  | [], _ => z
  | (j, u) :: rest, i => if i = j then u else cellsGet z rest i

/-- One slot written, the canonical form kept: indices strictly rising, and no entry equal to `z`. -/
def cellsSet (z : Sample) (i : Nat) (v : Sample) : List (Nat × Sample) → List (Nat × Sample)
  | [] => if v = z then [] else [(i, v)]
  | (j, u) :: rest =>
    if i < j then (if v = z then (j, u) :: rest else (i, v) :: (j, u) :: rest)
    else if i = j then (if v = z then rest else (i, v) :: rest)
    else (j, u) :: cellsSet z i v rest

/-- The canonical form of a sample memory: indices strictly rising, and no entry equal to what an unlisted slot holds. -/
abbrev CellsWf (z : Sample) (m : List (Nat × Sample)) : Prop :=
  List.Pairwise (fun a b : Nat × Sample => a.1 < b.1) m ∧ ∀ e ∈ m, e.2 ≠ z

/-- `b.slot[i]` of a buffer of `c` lanes (R33). -/
def CBuf.slot (c : Nat) (b : CBuf) (i : Nat) : Sample := cellsGet (zeroSample c) b.cells i

/-- CBUF.tick: write at the cursor, then advance it modulo the capacity `n` (R151; R12 `BufWrite`). -/
def CBuf.tick (n c : Nat) (b : CBuf) (v : Sample) : CBuf :=
  ⟨cellsSet (zeroSample c) b.w v b.cells, (b.w + 1) % n⟩

/-- The slot of the sample written `d` writes ago: `(w - 1 - d) mod n`, for `d < n` (R150). -/
def CBuf.slotIndex (n : Nat) (b : CBuf) (d : Nat) : Nat := (b.w + (n - 1 - d)) % n

/-- CBUF.read: the sample at an integer delay, out of range from `n` up (R152; R12 `BufRead`). -/
def CBuf.read (n c : Nat) (b : CBuf) (d : Nat) : Except Cause Sample :=
  if n ≤ d then .error .cbufReadRange else .ok (b.slot c (b.slotIndex n d))

/-- CBUF.read_interp: the sample at a fractional delay (R153; R12 `BufReadInterp`). -/
def CBuf.readInterp (n c : Nat) (b : CBuf) (d : B32) : Except Cause Sample :=
  if !finite32 d || lt32 d zero32 then .error .cbufReadRange
  else
    let i := (floor32 d).toNat
    let j := (ceil32 d).toNat
    if n ≤ j then .error .cbufReadRange
    else if i = j then b.read n c i
    else
      match b.read n c i, b.read n c j with
      | .ok lo, .ok hi => .ok (Sample.add lo (Sample.scale (Sample.sub hi lo) (sub32 d (f32 i))))
      | .error e, _ => .error e
      | _, .error e => .error e

/-- The configuration this instance is built as (R3). -/
def UnitState.kind : UnitState → Kind
  | .engine _ => .engine
  | .cbuf _ => .cbuf
  | .ramp _ => .ramp
  | .grain _ => .grain
  | .pool _ => .pool
  | .evsched _ => .evsched
  | .lem _ => .lem

/-- The configuration this instance is built as (R3). -/
def State.kind (s : State) : Kind := s.unit.kind

/-- The command returns: its status and result words (R110). -/
def State.respond (s : State) (st : Status) (res : List Word64) : State := { s with resp := some ⟨st, res⟩ }

/-- The zero result words of a faulting or rejected command (R386). -/
def zeroResults (n : Nat) : List Word64 := List.replicate n 0

/-- TAKING A FAULT (R384): `s` is the state before the command, so that nothing the command wrote remains; FAULT records the
cause and the UNIT and OP fields of the command word, and the command returns FAULT with zero words. There is no return from a
fault but a hardware reset (R390). -/
def State.takeFault (s : State) (cause : Cause) (unit op : BitVec 4) (zeros : Nat) : State :=
  { s with fault := ⟨true, cause.code, unit, op⟩, resp := some ⟨.fault, zeroResults zeros⟩ }

/-- Rejecting a command while FAULT.valid = 1: no effect, status FAULTED, zero words (R385, R386). -/
def State.reject (s : State) (zeros : Nat) : State := s.respond .faulted (zeroResults zeros)

/-- LEAVING A FAULT, and the reset input at any time (R410): the instance as it was constructed, with the same kind and
parameters, every element at its power-on value; what the host presents next is not the hardware's and stays. -/
def State.hardwareReset (s : State) : State := { State.powerOn s.params s.kind with port := s.port }

/-- How many zero words an illegal command word returns (R386, log entry 4): none where its (UNIT, OP) pair names no command
with a result word, and otherwise one or none, which the spec leaves open. -/
def illegalZeroWords (k : Kind) (cw : CmdWord) (unit op : BitVec 4) : Nat :=
  match opRow unit op with
  | none => 0
  | some r => if r.zeroWords = 0 then 0 else if Config.illegalWordHasResult k cw then r.zeroWords else 0

/-- An illegal command word (R117): rejected while faulted (R383, R385), and otherwise ILLEGAL_COMMAND and no other effect. -/
def State.illegalWord (s : State) (cw : CmdWord) (unit op : BitVec 4) : State :=
  let zeros := illegalZeroWords s.kind cw unit op
  if s.fault.valid then s.reject zeros else s.takeFault .illegalCommand unit op zeros

/-- The end of a command's pseudocode: the unit as it leaves it and its result words, or the fault it raised (R13, R384). -/
def State.complete (s : State) (i : Instr) (r : Except Cause (UnitState × List Word64)) : State :=
  match r with
  | .ok (u, res) => { s with unit := u, resp := some ⟨.ok, res⟩ }
  | .error cause => s.takeFault cause i.kind.code i.op i.zeroWords

/-- THE FRAME OF EVERY COMMAND, in the order of R383: in a configuration of another unit its word is illegal (R113, R117); while
faulted it is rejected (R385); otherwise its pseudocode `body` runs on the unit that `sel` finds and `put` puts back. -/
def State.command {α : Type} (s : State) (i : Instr) (sel : UnitState → Option α) (put : α → UnitState)
    (body : α → Except Cause (α × List Word64)) : State :=
  match sel s.unit with
  | none => s.illegalWord i.cw i.kind.code i.op
  | some a =>
    if s.fault.valid then s.reject i.zeroWords
    else
      s.complete i
        (match body a with
        | .ok (a', res) => .ok (put a', res)
        | .error cause => .error cause)

def UnitState.engine? : UnitState → Option Engine
  | .engine e => some e
  | _ => none
def UnitState.cbuf? : UnitState → Option CBuf
  | .cbuf b => some b
  | _ => none
def UnitState.ramp? : UnitState → Option Ramp
  | .ramp r => some r
  | _ => none
def UnitState.grain? : UnitState → Option Grain
  | .grain g => some g
  | _ => none
def UnitState.pool? : UnitState → Option Pool
  | .pool p => some p
  | _ => none
def UnitState.evsched? : UnitState → Option (EvQueue Word64)
  | .evsched q => some q
  | _ => none
def UnitState.lem? : UnitState → Option Lem
  | .lem m => some m
  | _ => none

/-- A command of the ENGINE configuration. -/
def State.onEngine (s : State) (i : Instr) (body : Engine → Except Cause (Engine × List Word64)) :
    Host.Outcome State Fault Refusal := .next (s.command i UnitState.engine? UnitState.engine body)
/-- A command of the CBUF configuration. -/
def State.onCBuf (s : State) (i : Instr) (body : CBuf → Except Cause (CBuf × List Word64)) :
    Host.Outcome State Fault Refusal := .next (s.command i UnitState.cbuf? UnitState.cbuf body)
/-- A command of the RAMP configuration. -/
def State.onRamp (s : State) (i : Instr) (body : Ramp → Except Cause (Ramp × List Word64)) :
    Host.Outcome State Fault Refusal := .next (s.command i UnitState.ramp? UnitState.ramp body)
/-- A command of the GRAIN configuration. -/
def State.onGrain (s : State) (i : Instr) (body : Grain → Except Cause (Grain × List Word64)) :
    Host.Outcome State Fault Refusal := .next (s.command i UnitState.grain? UnitState.grain body)
/-- A command of the POOL configuration. -/
def State.onPool (s : State) (i : Instr) (body : Pool → Except Cause (Pool × List Word64)) :
    Host.Outcome State Fault Refusal := .next (s.command i UnitState.pool? UnitState.pool body)
/-- A command of the EVSCHED configuration. -/
def State.onEvsched (s : State) (i : Instr) (body : EvQueue Word64 → Except Cause (EvQueue Word64 × List Word64)) :
    Host.Outcome State Fault Refusal := .next (s.command i UnitState.evsched? UnitState.evsched body)
/-- A command of the LEM configuration. -/
def State.onLem (s : State) (i : Instr) (body : Lem → Except Cause (Lem × List Word64)) :
    Host.Outcome State Fault Refusal := .next (s.command i UnitState.lem? UnitState.lem body)

end Sys2Proof.Machine
end

