-- ==== Sys2Proof/Machine/Evsched.lean ====
section
/-! DEFINITION. EVSCHED, the fixed-capacity monotonic event scheduler (spec/44_event_scheduler.md), for any payload: opaque words in
a standalone EVSCHED, loop events in a LEM (R40). -/

namespace Sys2Proof.Machine

/-- The time is earlier than that of the last pending entry, if there is one (R270). -/
def beforeLast {α : Type} (q : EvQueue α) (time : B64) : Bool :=
  match q.getLast? with
  | some e => lt64 time e.time
  | none => false

/-- EVSCHED.schedule on a queue of capacity `cap`: append an event, or the fault it raises, in the order of R270. -/
def evSchedule {α : Type} (cap : Nat) (q : EvQueue α) (time : B64) (e : α) : Except Cause (EvQueue α) :=
  if !finite64 time then .error .badParameter
  else if beforeLast q time then .error .schedNonMonotonic
  else if q.length = cap then .error .schedFull
  else .ok (q ++ [⟨time, e⟩])

/-- The entries that are due at `now`: the longest prefix whose times are at most `now` (R271). -/
def evDue {α : Type} (q : EvQueue α) (now : B64) : List α :=
  (q.takeWhile fun e => le64 e.time now).map Entry.payload

/-- The entries that stay when the due ones are popped, in order (R271). -/
def evRest {α : Type} (q : EvQueue α) (now : B64) : EvQueue α := q.dropWhile fun e => le64 e.time now

/-- EVSCHED.tick: the payloads that are due and the queue without them (R271). -/
def evTick {α : Type} (q : EvQueue α) (now : B64) : Except Cause (List α × EvQueue α) :=
  if !finite64 now then .error .badParameter else .ok (evDue q now, evRest q now)

/-- ES.SCHEDULE (R270). -/
def execEsSchedule (time : B64) (payload : Word64) (s : State) : Host.Outcome State Fault Refusal :=
  s.onEvsched (.esSchedule time payload) fun q =>
    match evSchedule s.params.Q q time payload with
    | .ok q' => .ok (q', [])
    | .error cause => .error cause

/-- ES.TICK (R271). -/
def execEsTick (now : B64) (s : State) : Host.Outcome State Fault Refusal :=
  s.onEvsched (.esTick now) fun q =>
    match evTick q now with
    | .ok (due, rest) => .ok (rest, payloadWords due)
    | .error cause => .error cause

/-- ES.CLEAR (R272). -/
def execEsClear (s : State) : Host.Outcome State Fault Refusal :=
  s.onEvsched .esClear fun _ => .ok ([], [])

end Sys2Proof.Machine
end

