-- ==== Sys2Proof/Machine/Lem.lean ====
section
/-! DEFINITION. LEM, the beat-grid loop event machine (spec/45_loop_event_machine.md). `cap` is the queue capacity `Q`. -/

namespace Sys2Proof.Machine

/-- The song time a control command uses: that of the last accepted tick, or 0.0 (R290). -/
def Lem.songTime (m : Lem) : B64 := m.cst.getD zero64

/-- The next grid boundary, `ceil((t + lead) / I) × I - lead` (R291). -/
def ngb (t i lead : B64) : B64 := sub64 (mul64 (ceil64 (div64 (add64 t lead) i)) i) lead

/-- The loop events without fields: the unused ones hold +0.0 (R40). -/
def stopGrainEvent : LoopEvent := ⟨.stopGrain, zero64, zero64⟩
def fadeOutDryEvent : LoopEvent := ⟨.fadeOutDry, zero64, zero64⟩
def fadeInDryEvent : LoopEvent := ⟨.fadeInDry, zero64, zero64⟩
def nextLoopEvent : LoopEvent := ⟨.nextLoop, zero64, zero64⟩
/-- StartGrain of a duration in beats (R40). -/
def startGrainEvent (dur : B64) : LoopEvent := ⟨.startGrain, dur, zero64⟩
/-- StartLegatoGrain of a duration and an offset reduction in beats (R40). -/
def startLegatoGrainEvent (dur red : B64) : LoopEvent := ⟨.startLegatoGrain, dur, red⟩

/-- The machine with an event appended to its queue, or the fault EVSCHED.schedule raises (R270). -/
def Lem.schedule (cap : Nat) (m : Lem) (time : B64) (e : LoopEvent) : Except Cause Lem :=
  match evSchedule cap m.q time e with
  | .ok q => .ok { m with q := q }
  | .error cause => .error cause

/-- Two events appended at one time, the first first (R293, R294, R296, R297). -/
def Lem.scheduleTwo (cap : Nat) (m : Lem) (time : B64) (e₁ e₂ : LoopEvent) : Except Cause Lem :=
  match m.schedule cap time e₁ with
  | .ok m' => m'.schedule cap time e₂
  | .error cause => .error cause

/-- The loop of LEM.tick over the due events at song time `st`: a NextLoop becomes the StartGrain of the current grid and is
scheduled again one grid after `st`; every other event is returned as it is (R292). -/
def Lem.fire (cap : Nat) (st : B64) : Lem → List LoopEvent → Except Cause (Lem × List LoopEvent)
  | m, [] => .ok (m, [])
  | m, e :: es =>
    if e.kind = .nextLoop then
      match Lem.schedule cap { m with first := false } (add64 st m.grid) nextLoopEvent with
      | .error cause => .error cause
      | .ok m' =>
        match Lem.fire cap st m' es with
        | .error cause => .error cause
        | .ok (m'', out) => .ok (m'', startGrainEvent m.grid :: out)
    else
      match Lem.fire cap st m es with
      | .error cause => .error cause
      | .ok (m', out) => .ok (m', e :: out)

/-- The song time does not increase strictly: there was an accepted tick and not `st > cst` (R292). -/
def Lem.timeNotIncreasing (m : Lem) (st : B64) : Bool :=
  match m.cst with
  | some c => !lt64 c st
  | none => false

/-- LEM.tick: the machine after the tick, and the events it returns (R292). -/
def Lem.tick (cap : Nat) (m : Lem) (st : B64) : Except Cause (Lem × List LoopEvent) :=
  if !finite64 st then .error .badParameter
  else if m.timeNotIncreasing st then .error .timeNotIncreasing
  else
    match evTick m.q st with
    | .error cause => .error cause
    | .ok (due, rest) => Lem.fire cap st { m with cst := some st, q := rest } due

/-- LEM.start_looping (R293); a fault of a schedule is its fault (R19, R270; log entry 11 for a boundary that is not finite). -/
def Lem.startLooping (cap : Nat) (m : Lem) : Except Cause Lem :=
  if m.looping then .ok m
  else
    Lem.scheduleTwo cap { m with looping := true, first := true, tli := m.songTime }
      (ngb m.songTime m.grid m.lead) nextLoopEvent fadeOutDryEvent

/-- LEM.stop_looping (R294); a fault of a schedule is its fault (R19, R270; log entry 11 for a boundary that is not finite). -/
def Lem.stopLooping (cap : Nat) (m : Lem) : Except Cause Lem :=
  if !m.looping then .ok m
  else
    Lem.scheduleTwo cap { m with looping := false, first := false, q := [] }
      (ngb m.songTime m.grid m.lead) stopGrainEvent fadeInDryEvent

/-- Shortening while looping, after the first boundary: the active loop is cut short at the new, closer boundary (R296). -/
def Lem.shorten (cap : Nat) (m : Lem) (t new : B64) : Except Cause Lem :=
  Lem.scheduleTwo cap { m with q := [] } (ngb t new m.lead) stopGrainEvent nextLoopEvent

/-- A grid edit before the first boundary: the pending start moves to the new grid (R297). -/
def Lem.firstBoundaryEdit (cap : Nat) (m : Lem) (t new : B64) : Except Cause Lem :=
  Lem.scheduleTwo cap { m with q := [] } (ngb t new m.lead) nextLoopEvent fadeOutDryEvent

/-- The time of the pending NextLoop, if one is pending (R298). -/
def Lem.nextLoopTime? (m : Lem) : Option B64 :=
  (m.q.find? fun e => e.payload.kind == .nextLoop).map Entry.time

/-- Lengthening while looping, after the first boundary: a legato grain bridges from the old boundary to the new one where the
history since the start is shorter than the new grid and the new boundary is the later one (R298). -/
def Lem.lengthen (cap : Nat) (m : Lem) (t old new : B64) : Except Cause Lem :=
  let bOld := m.nextLoopTime?.getD (ngb t old m.lead)
  let bNew := ngb t new m.lead
  let m' : Lem := { m with q := [] }
  if lt64 (sub64 t m.tli) new && lt64 bOld bNew then
    match m'.schedule cap bOld (startLegatoGrainEvent (sub64 bNew bOld) old) with
    | .ok m'' => m''.schedule cap bNew nextLoopEvent
    | .error cause => .error cause
  else m'.schedule cap bNew nextLoopEvent

/-- LEM.set_grid_interval (R295). -/
def Lem.setGridInterval (cap : Nat) (m : Lem) (new : B64) : Except Cause Lem :=
  if !finite64 new || !lt64 zero64 new then .error .badParameter
  else if !m.looping || eq64 new m.grid then .ok { m with grid := new }
  else
    let m' : Lem := { m with grid := new }
    if m.first then m'.firstBoundaryEdit cap m.songTime new
    else if lt64 new m.grid then m'.shorten cap m.songTime new
    else m'.lengthen cap m.songTime m.grid new

/-- LEM.set_fade_in_time (R299). -/
def Lem.setFadeInTime (m : Lem) (lead : B64) : Except Cause Lem :=
  if !finite64 lead || lt64 lead zero64 then .error .badParameter else .ok { m with lead := lead }

/-- LEM.reset: the pending events and the transient state discarded, grid and lead kept (R300). -/
def Lem.reset (m : Lem) : Lem := { m with q := [], cst := none, looping := false, tli := zero64, first := false }

/-- An operation of a standalone LEM with no result. -/
def Lem.silently (r : Except Cause Lem) : Except Cause (Lem × List Word64) :=
  match r with
  | .ok m => .ok (m, [])
  | .error cause => .error cause

/-- LM.START_LOOPING (R293). -/
def execLmStartLooping (s : State) : Host.Outcome State Fault Refusal :=
  s.onLem .lmStartLooping fun m => Lem.silently (m.startLooping s.params.Q)

/-- LM.STOP_LOOPING (R294). -/
def execLmStopLooping (s : State) : Host.Outcome State Fault Refusal :=
  s.onLem .lmStopLooping fun m => Lem.silently (m.stopLooping s.params.Q)

/-- LM.SET_GRID_INTERVAL (R295 to R298). -/
def execLmSetGridInterval (new : B64) (s : State) : Host.Outcome State Fault Refusal :=
  s.onLem (.lmSetGridInterval new) fun m => Lem.silently (m.setGridInterval s.params.Q new)

/-- LM.TICK (R292). -/
def execLmTick (songTime : B64) (s : State) : Host.Outcome State Fault Refusal :=
  s.onLem (.lmTick songTime) fun m =>
    match m.tick s.params.Q songTime with
    | .ok (m', evs) => .ok (m', eventWords evs)
    | .error cause => .error cause

/-- LM.SET_FADE_IN_TIME (R299). -/
def execLmSetFadeInTime (lead : B64) (s : State) : Host.Outcome State Fault Refusal :=
  s.onLem (.lmSetFadeInTime lead) fun m => Lem.silently (m.setFadeInTime lead)

/-- LM.RESET (R300). -/
def execLmReset (s : State) : Host.Outcome State Fault Refusal :=
  s.onLem .lmReset fun m => .ok (m.reset, [])

end Sys2Proof.Machine
end

