-- ==== Sys2Proof/Machine/CBuf.lean ====
section
/-! DEFINITION. CBUF, the circular sample buffer as a configuration of its own (spec/40_circular_buffer.md). Its operations, which
the pool shares, are in Ops.lean. -/

namespace Sys2Proof.Machine

/-- CB.TICK: write one sample (R151). -/
def execCbTick (v : Word64) (s : State) : Host.Outcome State Fault Refusal :=
  s.onCBuf (.cbTick v) fun b => .ok (b.tick s.params.N s.params.C (smp s.params.C v), [])

/-- A read of a buffer that changes nothing: its sample is the result (R152, R153). -/
def CBuf.reading (b : CBuf) (r : Except Cause Sample) : Except Cause (CBuf × List Word64) :=
  match r with
  | .ok x => .ok (b, [sampleWord x])
  | .error cause => .error cause

/-- CB.READ: integer-delay read (R152). -/
def execCbRead (d : U32) (s : State) : Host.Outcome State Fault Refusal :=
  s.onCBuf (.cbRead d) fun b => b.reading (b.read s.params.N s.params.C d.toNat)

/-- CB.READ_INTERP: fractional-delay read (R153). -/
def execCbReadInterp (d : B32) (s : State) : Host.Outcome State Fault Refusal :=
  s.onCBuf (.cbReadInterp d) fun b => b.reading (b.readInterp s.params.N s.params.C d)

/-- CB.RESET: every slot `0̄`, the cursor 0 (R154). -/
def execCbReset (s : State) : Host.Outcome State Fault Refusal :=
  s.onCBuf .cbReset fun _ => .ok (powerOnCBuf, [])

end Sys2Proof.Machine
end

