-- ==== Sys2Proof/Machine/Ramp.lean ====
section
/-! DEFINITION. RAMP, the ramped envelope and crossfade generator (spec/41_ramped_value.md). -/

namespace Sys2Proof.Machine

/-- RAMP.set: jump to a value, cancelling a ramp in flight (R171). -/
def Ramp.set (_r : Ramp) (v : B32) : Ramp := ⟨v, v, v, 0, 0⟩

/-- RAMP.ramp: begin a ramp of `n + 1` steps from the current value, which the next tick is the first to change (R172). -/
def Ramp.ramp (r : Ramp) (target : B32) (n : U32) : Ramp :=
  { r with s := r.v, t := target, tot := BitVec.setWidth 33 n + 1, rem := BitVec.setWidth 33 n + 1 }

/-- The value `rem` steps before the end of a ramp, `t + (s - t) × (f32(rem) / f32(tot))` (R173). -/
def Ramp.between (r : Ramp) (rem : U33) : B32 :=
  add32 r.t (mul32 (sub32 r.s r.t) (div32 (f32 rem.toNat) (f32 r.tot.toNat)))

/-- RAMP.tick: one step; the last step assigns the target, and so does every tick after it (R173). -/
def Ramp.tick (r : Ramp) : Ramp :=
  if 0 < r.rem.toNat then
    let rem := r.rem - 1
    { r with rem := rem, v := if rem = 0 then r.t else r.between rem }
  else { r with v := r.t }

/-- RV.SET (R171). -/
def execRvSet (v : B32) (s : State) : Host.Outcome State Fault Refusal :=
  s.onRamp (.rvSet v) fun r => .ok (r.set v, [])

/-- RV.RAMP (R172). -/
def execRvRamp (target : B32) (n : U32) (s : State) : Host.Outcome State Fault Refusal :=
  s.onRamp (.rvRamp target n) fun r => .ok (r.ramp target n, [])

/-- RV.TICK: the new value is the result (R173). -/
def execRvTick (s : State) : Host.Outcome State Fault Refusal :=
  s.onRamp .rvTick fun r => .ok (r.tick, [word32 r.tick.v])

end Sys2Proof.Machine
end

