-- ==== Sys2Proof/Machine/Grain.lean ====
section
/-! DEFINITION. GRAIN, the grain playback state machine (spec/42_grain.md). -/

namespace Sys2Proof.Machine

/-- The fade after the clamp of R192: half the duration, rounded down, where twice the fade exceeds the duration; the doubling
does not wrap. -/
def clampFade (duration fade : U32) : U32 := if duration.toNat < 2 * fade.toNat then duration / 2 else fade

/-- GRAIN.new: a grain from its operands, or the fault that they raise, in the order of R191. -/
def Grain.new (wait : U32) (offset : B32) (duration fade : U32) (reverse : Bool) (speed : B32) : Except Cause Grain :=
  if !finite32 offset || !finite32 speed then .error .badParameter
  else if duration.toNat < fade.toNat then .error .fadeExceedsDuration
  else
    .ok
      { wait := wait
        dur := duration
        fade := clampFade duration fade
        el := 0
        env := steadyRamp zero32
        pos := if reverse then sub32 offset (f32 duration.toNat) else sub32 offset one32
        inc := if reverse then speed else neg32 speed }

/-- The envelope on an active tick, before it is ticked: a fade-in begins on the first active tick and a fade-out where the
fade-out region begins, checked in that order, so that on one tick the fade-out replaces the fade-in (R194, R195). -/
def Grain.startRamps (g : Grain) : Ramp :=
  let r := if g.el = 0 then g.env.ramp one32 g.fade else g.env
  if g.el.toNat + g.fade.toNat = g.dur.toNat then r.ramp zero32 g.fade else r

/-- GRAIN.tick: the grain after one tick, and the delay position and gain it returns (R194). -/
def Grain.tick (g : Grain) : Grain × B32 × B32 :=
  if g.finished then (g, zero32, zero32)
  else if 0 < g.wait.toNat then ({ g with wait := g.wait - 1 }, zero32, zero32)
  else
    let env := g.startRamps.tick
    ({ g with env := env, pos := add32 g.pos g.inc, el := g.el + 1 }, g.pos, env.v)

/-- GRAIN.stop: the duration cut to one fade from here, unless the grain is in its fade-out region or finished (R196). -/
def Grain.stop (g : Grain) : Grain :=
  if g.inFadeOutRegion then g else { g with dur := g.el + g.fade }

/-- A constructed grain as the grain of a standalone GRAIN (R191). -/
def Grain.installing (r : Except Cause Grain) : Except Cause (Grain × List Word64) :=
  match r with
  | .ok g => .ok (g, [])
  | .error cause => .error cause

/-- GR.NEW (R191). -/
def execGrNew (wait duration : U32) (offset speed : B32) (fade : U32) (reverse : Bool) (s : State) :
    Host.Outcome State Fault Refusal :=
  s.onGrain (.grNew wait duration offset speed fade reverse) fun _ =>
    Grain.installing (Grain.new wait offset duration fade reverse speed)

/-- GR.TICK (R194). -/
def execGrTick (s : State) : Host.Outcome State Fault Refusal :=
  s.onGrain .grTick fun g => .ok (g.tick.1, [positionGainWord g.tick.2.1 g.tick.2.2])

/-- GR.STOP (R196). -/
def execGrStop (s : State) : Host.Outcome State Fault Refusal :=
  s.onGrain .grStop fun g => .ok (g.stop, [])

/-- GR.IS_FINISHED (R200). -/
def execGrIsFinished (s : State) : Host.Outcome State Fault Refusal :=
  s.onGrain .grIsFinished fun g => .ok (g, [wordBool g.finished])

/-- GR.IS_WAITING (R201). -/
def execGrIsWaiting (s : State) : Host.Outcome State Fault Refusal :=
  s.onGrain .grIsWaiting fun g => .ok (g, [wordBool g.waiting])

/-- GR.IS_PLAYING (R202). -/
def execGrIsPlaying (s : State) : Host.Outcome State Fault Refusal :=
  s.onGrain .grIsPlaying fun g => .ok (g, [wordBool g.playing])

/-- GR.IS_FADING_IN (R203). -/
def execGrIsFadingIn (s : State) : Host.Outcome State Fault Refusal :=
  s.onGrain .grIsFadingIn fun g => .ok (g, [wordBool g.fadingIn])

/-- GR.IS_FADING_OUT (R204). -/
def execGrIsFadingOut (s : State) : Host.Outcome State Fault Refusal :=
  s.onGrain .grIsFadingOut fun g => .ok (g, [wordBool g.fadingOut])

end Sys2Proof.Machine
end

