-- ==== Sys2Proof/Machine/Pool.lean ====
section
/-! DEFINITION. POOL, the grain pool accumulator with its rolling-to-static handoff (spec/43_grain_pool.md). -/

namespace Sys2Proof.Machine

/-- A grain put into the first finished slot, in ascending slot order; dropped when no slot is finished (R231). -/
def installGrain (n : Grain) : List Grain → List Grain
  | [] => []
  | g :: gs => if g.finished then n :: gs else g :: installGrain n gs

/-- POOL.schedule (R231). -/
def Pool.schedule (p : Pool) (n : Grain) : Pool := { p with grain := installGrain n p.grain }

/-- POOL.start_looping (R233). -/
def Pool.startLooping (p : Pool) : Pool := { p with roff := 0, copy := 0, phase := .fillingStatic }

/-- POOL.stop_looping: only a copy in progress is halted (R234). -/
def Pool.stopLooping (p : Pool) : Pool :=
  { p with phase := match p.phase with
      | .fillingStatic => .notLooping
      | .notLooping => .notLooping
      | .usingStatic => .usingStatic }

/-- `min(x + 1, 2^32 - 1)` (R235). -/
def saturatingSucc (x : U32) : U32 := if x = 0xFFFFFFFF#32 then x else x + 1

/-- Step (1) of POOL.tick: the input into the rolling buffer, one more tick since the reference point (R235). -/
def Pool.takeInput (prm : Params) (p : Pool) (x : Sample) : Pool :=
  { p with ROLL := p.ROLL.tick prm.R prm.C x, roff := saturatingSucc p.roff }

/-- Step (2) of POOL.tick: while FillingStatic, one sample of the rolling buffer at delay `L` into the static buffer, and the
handoff when `S` samples are copied (R235, R236). -/
def Pool.advanceCopy (prm : Params) (p : Pool) : Except Cause Pool :=
  if p.phase = .fillingStatic then
    match p.ROLL.read prm.R prm.C prm.L with
    | .error cause => .error cause
    | .ok x =>
      .ok { p with
        STAT := p.STAT.tick prm.S prm.C x
        copy := p.copy + 1
        phase := if (p.copy + 1).toNat = prm.S then .usingStatic else .fillingStatic }
  else .ok p

/-- The delay at which the authoritative buffer holds the sample a grain position names (R232, R235). -/
def Pool.grainDelay (prm : Params) (p : Pool) (pos : B32) : B32 :=
  if p.phase = .usingStatic then add32 pos (f32 prm.M) else add32 pos (f32 p.roff.toNat)

/-- The interpolated read of the authoritative buffer at a grain position (R232, R235, R238). -/
def Pool.grainRead (prm : Params) (p : Pool) (pos : B32) : Except Cause Sample :=
  if p.phase = .usingStatic then p.STAT.readInterp prm.S prm.C (p.grainDelay prm pos)
  else p.ROLL.readInterp prm.R prm.C (p.grainDelay prm pos)

/-- Step (3) of POOL.tick, in ascending slot order: a finished grain is passed over, a waiting one ticks with no output, a
playing one ticks and adds the sample at its position times its gain (R235). -/
def Pool.sumGrains (prm : Params) (p : Pool) : Sample → List Grain → Except Cause (Sample × List Grain)
  | acc, [] => .ok (acc, [])
  | acc, g :: gs =>
    if g.finished then
      match Pool.sumGrains prm p acc gs with
      | .ok (y, gs') => .ok (y, g :: gs')
      | .error cause => .error cause
    else if g.waiting then
      match Pool.sumGrains prm p acc gs with
      | .ok (y, gs') => .ok (y, g.tick.1 :: gs')
      | .error cause => .error cause
    else
      match p.grainRead prm g.tick.2.1 with
      | .error cause => .error cause
      | .ok x =>
        match Pool.sumGrains prm p (Sample.add acc (Sample.scale x g.tick.2.2)) gs with
        | .ok (y, gs') => .ok (y, g.tick.1 :: gs')
        | .error cause => .error cause

/-- POOL.tick: the pool after one tick, and the wet sample (R235). -/
def Pool.tick (prm : Params) (p : Pool) (x : Sample) : Except Cause (Pool × Sample) :=
  match (p.takeInput prm x).advanceCopy prm with
  | .error cause => .error cause
  | .ok p' =>
    match p'.sumGrains prm (zeroSample prm.C) p'.grain with
    | .error cause => .error cause
    | .ok (y, gs) => .ok ({ p' with grain := gs }, y)

/-- POOL.stop_all (R240). -/
def Pool.stopAll (p : Pool) : Pool := { p with grain := p.grain.map Grain.stop }

/-- The search of POOL.most_recent from slot `i` on, `best` being the best of the slots before it (R244). -/
def mostRecentFrom (i : Nat) (best : Option (Nat × Grain)) : List Grain → Option (Nat × Grain)
  | [] => best
  | g :: gs =>
    let better :=
      match best with
      | none => true
      | some (_, h) => decide (g.el.toNat < h.el.toNat)
    mostRecentFrom (i + 1) (if g.playing && better then some (i, g) else best) gs

/-- POOL.most_recent: the playing grain of the smallest elapsed count, the lowest slot in a tie (R244). -/
def Pool.mostRecent (p : Pool) : Option (Nat × Grain) := mostRecentFrom 0 none p.grain

/-- POOL.reset: the pool as at power-on (R245). -/
def Pool.reset (prm : Params) (_p : Pool) : Pool := powerOnPool prm.G

/-- GP.SCHEDULE: the grain is constructed, and its faults raised, before a slot is chosen (R231). -/
def execGpSchedule (wait duration : U32) (offset speed : B32) (fade : U32) (reverse : Bool) (s : State) :
    Host.Outcome State Fault Refusal :=
  s.onPool (.gpSchedule wait duration offset speed fade reverse) fun p =>
    match Grain.new wait offset duration fade reverse speed with
    | .ok n => .ok (p.schedule n, [])
    | .error cause => .error cause

/-- GP.START_LOOPING (R233). -/
def execGpStartLooping (s : State) : Host.Outcome State Fault Refusal :=
  s.onPool .gpStartLooping fun p => .ok (p.startLooping, [])

/-- GP.STOP_LOOPING (R234). -/
def execGpStopLooping (s : State) : Host.Outcome State Fault Refusal :=
  s.onPool .gpStopLooping fun p => .ok (p.stopLooping, [])

/-- GP.TICK (R235). -/
def execGpTick (input : Word64) (s : State) : Host.Outcome State Fault Refusal :=
  s.onPool (.gpTick input) fun p =>
    match p.tick s.params (smp s.params.C input) with
    | .ok (p', y) => .ok (p', [sampleWord y])
    | .error cause => .error cause

/-- GP.STOP_ALL (R240). -/
def execGpStopAll (s : State) : Host.Outcome State Fault Refusal :=
  s.onPool .gpStopAll fun p => .ok (p.stopAll, [])

/-- GP.COUNT_PLAYING (R241). -/
def execGpCountPlaying (s : State) : Host.Outcome State Fault Refusal :=
  s.onPool .gpCountPlaying fun p => .ok (p, [wordNat p.countPlaying])

/-- GP.COUNT_WAITING (R242). -/
def execGpCountWaiting (s : State) : Host.Outcome State Fault Refusal :=
  s.onPool .gpCountWaiting fun p => .ok (p, [wordNat p.countWaiting])

/-- GP.COUNT_FINISHED (R243). -/
def execGpCountFinished (s : State) : Host.Outcome State Fault Refusal :=
  s.onPool .gpCountFinished fun p => .ok (p, [wordNat p.countFinished])

/-- GP.MOST_RECENT (R244). -/
def execGpMostRecent (s : State) : Host.Outcome State Fault Refusal :=
  s.onPool .gpMostRecent fun p => .ok (p, [mostRecentWord p.mostRecent])

/-- GP.RESET (R245). -/
def execGpReset (s : State) : Host.Outcome State Fault Refusal :=
  s.onPool .gpReset fun p => .ok (p.reset s.params, [])

end Sys2Proof.Machine
end

