-- ==== Sys2Proof/Machine/Engine.lean ====
section
/-! DEFINITION. ENGINE, the loop engine orchestrator (spec/46_loop_engine.md), and its register map (spec/10_state.md R46). -/

namespace Sys2Proof.Machine

/-- Samples per beat, `(sr × 60.0) / tempo` (R331). -/
def Engine.spb (e : Engine) : B64 := div64 (mul64 e.sr sixty64) e.tempo

/-- `b2i`: a length in beats as a count of samples, or the given fault (R332). -/
def Engine.beatsToSamples (e : Engine) (x : B64) (cause : Cause) : Except Cause U32 :=
  let y := mul64 x e.spb
  if !finite64 y then .error cause
  else
    let n := roundAway y
    if n < 0 ∨ 2 ^ 32 - 1 < n then .error cause else .ok (BitVec.ofNat 32 n.toNat)

/-- `fade_samples` (R332). -/
def Engine.fadeSamples (e : Engine) : Except Cause U32 := e.beatsToSamples e.E.lead .fadeTooLong

/-- The offset in beats of a requested grain: `offset`, less the offset reduction of a legato grain (R333). -/
def Engine.grainOffsetBeats (e : Engine) : Option B64 → B64
  | none => e.offset
  | some red => sub64 e.offset red

/-- `make_grain`: the grain of a duration in beats and, for a legato grain, its offset reduction (R333). -/
def Engine.makeGrain (prm : Params) (e : Engine) (dur : B64) (red : Option B64) : Except Cause Grain :=
  match e.beatsToSamples dur .loopTooLong with
  | .error cause => .error cause
  | .ok n =>
    if prm.L < n.toNat then .error .loopTooLong
    else
      match e.fadeSamples with
      | .error cause => .error cause
      | .ok f =>
        if prm.F < f.toNat then .error .fadeTooLong
        else Grain.new 0 (to32 (mul64 (e.grainOffsetBeats red) e.spb)) (n + f) f e.reverse e.speed

/-- A requested grain scheduled on the pool (R335); a saturated pool drops it (R231). -/
def Engine.requestGrain (prm : Params) (e : Engine) (dur : B64) (red : Option B64) : Except Cause Engine :=
  match e.makeGrain prm dur red with
  | .ok g => .ok { e with P := e.P.schedule g }
  | .error cause => .error cause

/-- The dry ramp started toward a level over `fade_samples` (R335). -/
def Engine.fadeDry (e : Engine) (level : B32) : Except Cause Engine :=
  match e.fadeSamples with
  | .ok f => .ok { e with DRY := e.DRY.ramp level f }
  | .error cause => .error cause

/-- The processing of one event (R335). The LEM never returns a NextLoop (R292, R40); one would do nothing. -/
def Engine.process (prm : Params) (e : Engine) (ev : LoopEvent) : Except Cause Engine :=
  match ev.kind with
  | .startGrain => e.requestGrain prm ev.dur none
  | .startLegatoGrain => e.requestGrain prm ev.dur (some ev.red)
  | .stopGrain => .ok { e with P := e.P.stopAll }
  | .fadeOutDry => e.fadeDry zero32
  | .fadeInDry => e.fadeDry one32
  | .nextLoop => .ok e

/-- The events of a tick, processed in order (R334). -/
def Engine.processAll (prm : Params) : Engine → List LoopEvent → Except Cause Engine
  | e, [] => .ok e
  | e, ev :: evs =>
    match e.process prm ev with
    | .ok e' => Engine.processAll prm e' evs
    | .error cause => .error cause

/-- ENGINE.tick: the events, then the pool, then the dry ramp; the output is the wet sample plus the input at the dry level
(R334). -/
def Engine.tick (prm : Params) (e : Engine) (x : Sample) (beatTime : B64) : Except Cause (Engine × Sample) :=
  match e.E.tick prm.Q beatTime with
  | .error cause => .error cause
  | .ok (m, evs) =>
    match Engine.processAll prm { e with E := m } evs with
    | .error cause => .error cause
    | .ok e' =>
      match e'.P.tick prm x with
      | .error cause => .error cause
      | .ok (p, wet) =>
        let d := e'.DRY.tick
        .ok ({ e' with P := p, DRY := d }, Sample.add wet (Sample.scale x d.v))

/-- E.SET_LOOP_OFFSET's rule (R337). -/
def Engine.setLoopOffset (e : Engine) (beats : B64) : Except Cause Engine :=
  if !finite64 beats then .error .badParameter else .ok { e with offset := beats }

/-- E.SET_TEMPO's rule: while looping the offset is rescaled by the tempo ratio (R339). -/
def Engine.setTempo (e : Engine) (bpm : B64) : Except Cause Engine :=
  if !finite64 bpm || !lt64 zero64 bpm then .error .badParameter
  else
    .ok { e with
      offset := if e.E.looping then div64 (mul64 e.offset bpm) e.tempo else e.offset
      tempo := bpm }

/-- E.SET_SAMPLE_RATE's rule (R340). -/
def Engine.setSampleRate (e : Engine) (hz : B64) : Except Cause Engine :=
  if !finite64 hz || !lt64 zero64 hz then .error .badParameter else .ok { e with sr := hz }

/-- E.SET_SPEED's rule (R342). -/
def Engine.setSpeed (e : Engine) (factor : B32) : Except Cause Engine :=
  if !finite32 factor then .error .badParameter else .ok { e with speed := factor }

/-- An operation of the LEM `E` inside the ENGINE (R330). -/
def Engine.withLem (e : Engine) (r : Except Cause Lem) : Except Cause Engine :=
  match r with
  | .ok m => .ok { e with E := m }
  | .error cause => .error cause

/-- E.START_LOOPING's rule: guarded, so that a start while looping moves nothing (R343). -/
def Engine.startLooping (prm : Params) (e : Engine) : Except Cause Engine :=
  if e.E.looping then .ok e
  else
    match e.E.startLooping prm.Q with
    | .ok m => .ok { e with E := m, P := e.P.startLooping }
    | .error cause => .error cause

/-- E.STOP_LOOPING's rule (R344). -/
def Engine.stopLooping (prm : Params) (e : Engine) : Except Cause Engine :=
  if !e.E.looping then .ok e
  else
    match e.E.stopLooping prm.Q with
    | .ok m => .ok { e with E := m, P := e.P.stopLooping }
    | .error cause => .error cause

/-- E.RESET's rule: the transient state to power-on, the parameters kept (R345). -/
def Engine.reset (prm : Params) (e : Engine) : Engine :=
  { e with P := e.P.reset prm, E := e.E.reset, DRY := e.DRY.set one32 }

/-- STATUS, register 0x00, its fields from bit 63 down (R46). -/
def Engine.statusWord (fr : FaultReg) (e : Engine) : Word64 :=
  (0 : BitVec 34) ++ BitVec.ofBool e.dryRamping ++ BitVec.ofBool e.E.songTimeValid ++ BitVec.ofBool e.E.first
    ++ e.P.phase.code ++ BitVec.ofBool e.E.looping ++ fr.op ++ fr.unit ++ fr.cause ++ (0 : BitVec 7)
    ++ BitVec.ofBool fr.valid

/-- GRAIN_COUNTS, register 0x0E, its fields from bit 63 down (R46). -/
def Pool.countsWord (p : Pool) : Word64 :=
  (0 : BitVec 16) ++ BitVec.ofNat 16 p.countFinished ++ BitVec.ofNat 16 p.countWaiting ++ BitVec.ofNat 16 p.countPlaying

/-- The register map of the ENGINE: the value of a register, or `none` for a reserved number (R46). -/
def Engine.readReg (prm : Params) (fr : FaultReg) (e : Engine) (reg : BitVec 8) : Option Word64 :=
  match reg.toNat with
  | 0x00 => some (e.statusWord fr)
  | 0x01 => some e.E.grid
  | 0x02 => some e.offset
  | 0x03 => some e.E.lead
  | 0x04 => some e.tempo
  | 0x05 => some e.sr
  | 0x06 => some (word32 e.speed)
  | 0x07 => some (wordBool e.reverse)
  | 0x08 => some (e.E.cst.getD zero64)
  | 0x09 => some e.E.tli
  | 0x0A => some (word32 e.P.roff)
  | 0x0B => some (word32 e.P.copy)
  | 0x0C => some (word32 e.DRY.v)
  | 0x0D => some (wordNat e.E.q.length)
  | 0x0E => some e.P.countsWord
  | 0x10 => some (wordNat prm.R)
  | 0x11 => some (wordNat prm.L)
  | 0x12 => some (wordNat prm.M)
  | 0x13 => some (wordNat prm.G)
  | 0x14 => some (wordNat prm.Q)
  | 0x15 => some (wordNat prm.F)
  | 0x16 => some (wordNat prm.C)
  | _ => none

/-- An operation of the ENGINE with no result. -/
def Engine.silently (r : Except Cause Engine) : Except Cause (Engine × List Word64) :=
  match r with
  | .ok e => .ok (e, [])
  | .error cause => .error cause

/-- E.TICK (R334). -/
def execETick (beatTime : B64) (input : Word64) (s : State) : Host.Outcome State Fault Refusal :=
  s.onEngine (.eTick beatTime input) fun e =>
    match e.tick s.params (smp s.params.C input) beatTime with
    | .ok (e', y) => .ok (e', [sampleWord y])
    | .error cause => .error cause

/-- E.SET_GRID (R336). -/
def execESetGrid (beats : B64) (s : State) : Host.Outcome State Fault Refusal :=
  s.onEngine (.eSetGrid beats) fun e => Engine.silently (e.withLem (e.E.setGridInterval s.params.Q beats))

/-- E.SET_LOOP_OFFSET (R337). -/
def execESetLoopOffset (beats : B64) (s : State) : Host.Outcome State Fault Refusal :=
  s.onEngine (.eSetLoopOffset beats) fun e => Engine.silently (e.setLoopOffset beats)

/-- E.SET_FADE_TIME (R338). -/
def execESetFadeTime (beats : B64) (s : State) : Host.Outcome State Fault Refusal :=
  s.onEngine (.eSetFadeTime beats) fun e => Engine.silently (e.withLem (e.E.setFadeInTime beats))

/-- E.SET_TEMPO (R339). -/
def execESetTempo (bpm : B64) (s : State) : Host.Outcome State Fault Refusal :=
  s.onEngine (.eSetTempo bpm) fun e => Engine.silently (e.setTempo bpm)

/-- E.SET_SAMPLE_RATE (R340). -/
def execESetSampleRate (hz : B64) (s : State) : Host.Outcome State Fault Refusal :=
  s.onEngine (.eSetSampleRate hz) fun e => Engine.silently (e.setSampleRate hz)

/-- E.SET_REVERSE (R341). -/
def execESetReverse (r : Bool) (s : State) : Host.Outcome State Fault Refusal :=
  s.onEngine (.eSetReverse r) fun e => .ok ({ e with reverse := r }, [])

/-- E.SET_SPEED (R342). -/
def execESetSpeed (factor : B32) (s : State) : Host.Outcome State Fault Refusal :=
  s.onEngine (.eSetSpeed factor) fun e => Engine.silently (e.setSpeed factor)

/-- E.START_LOOPING (R343). -/
def execEStartLooping (s : State) : Host.Outcome State Fault Refusal :=
  s.onEngine .eStartLooping fun e => Engine.silently (e.startLooping s.params)

/-- E.STOP_LOOPING (R344). -/
def execEStopLooping (s : State) : Host.Outcome State Fault Refusal :=
  s.onEngine .eStopLooping fun e => Engine.silently (e.stopLooping s.params)

/-- E.RESET (R345). -/
def execEReset (s : State) : Host.Outcome State Fault Refusal :=
  s.onEngine .eReset fun e => .ok (e.reset s.params, [])

/-- E.READ_REG: the one command that also executes while faulted; a reserved register is ILLEGAL_COMMAND, or while faulted a
rejection (R346, R385). -/
def execEReadReg (reg : BitVec 8) (s : State) : Host.Outcome State Fault Refusal :=
  .next
    (match s.unit.engine? with
    | none => s.illegalWord (Instr.eReadReg reg).cw (Instr.eReadReg reg).kind.code (Instr.eReadReg reg).op
    | some e =>
      match e.readReg s.params s.fault reg with
      | some v => s.respond .ok [v]
      | none =>
        if s.fault.valid then s.reject (Instr.eReadReg reg).zeroWords
        else
          s.takeFault .illegalCommand (Instr.eReadReg reg).kind.code (Instr.eReadReg reg).op
            (Instr.eReadReg reg).zeroWords)

end Sys2Proof.Machine
end

