-- ==== Sys2Proof/Machine/Dispatch.lean ====
section
/-! DEFINITION. One arm per command: a direct call of its meaning. -/

namespace Sys2Proof.Machine

open Sys2Proof

def exec (i : Instr) (s : State) : Host.Outcome State Fault Refusal :=
  match i with
  | .eTick beatTime input => Sys2Proof.Machine.execETick beatTime input s
  | .eSetGrid beats => Sys2Proof.Machine.execESetGrid beats s
  | .eSetLoopOffset beats => Sys2Proof.Machine.execESetLoopOffset beats s
  | .eSetFadeTime beats => Sys2Proof.Machine.execESetFadeTime beats s
  | .eSetTempo bpm => Sys2Proof.Machine.execESetTempo bpm s
  | .eSetSampleRate hz => Sys2Proof.Machine.execESetSampleRate hz s
  | .eSetReverse r => Sys2Proof.Machine.execESetReverse r s
  | .eSetSpeed factor => Sys2Proof.Machine.execESetSpeed factor s
  | .eStartLooping => Sys2Proof.Machine.execEStartLooping s
  | .eStopLooping => Sys2Proof.Machine.execEStopLooping s
  | .eReset => Sys2Proof.Machine.execEReset s
  | .eReadReg reg => Sys2Proof.Machine.execEReadReg reg s
  | .cbTick v => Sys2Proof.Machine.execCbTick v s
  | .cbRead d => Sys2Proof.Machine.execCbRead d s
  | .cbReadInterp d => Sys2Proof.Machine.execCbReadInterp d s
  | .cbReset => Sys2Proof.Machine.execCbReset s
  | .rvSet v => Sys2Proof.Machine.execRvSet v s
  | .rvRamp target n => Sys2Proof.Machine.execRvRamp target n s
  | .rvTick => Sys2Proof.Machine.execRvTick s
  | .grNew wait duration offset speed fade reverse => Sys2Proof.Machine.execGrNew wait duration offset speed fade reverse s
  | .grTick => Sys2Proof.Machine.execGrTick s
  | .grStop => Sys2Proof.Machine.execGrStop s
  | .grIsFinished => Sys2Proof.Machine.execGrIsFinished s
  | .grIsWaiting => Sys2Proof.Machine.execGrIsWaiting s
  | .grIsPlaying => Sys2Proof.Machine.execGrIsPlaying s
  | .grIsFadingIn => Sys2Proof.Machine.execGrIsFadingIn s
  | .grIsFadingOut => Sys2Proof.Machine.execGrIsFadingOut s
  | .gpSchedule wait duration offset speed fade reverse => Sys2Proof.Machine.execGpSchedule wait duration offset speed fade reverse s
  | .gpStartLooping => Sys2Proof.Machine.execGpStartLooping s
  | .gpStopLooping => Sys2Proof.Machine.execGpStopLooping s
  | .gpTick input => Sys2Proof.Machine.execGpTick input s
  | .gpStopAll => Sys2Proof.Machine.execGpStopAll s
  | .gpCountPlaying => Sys2Proof.Machine.execGpCountPlaying s
  | .gpCountWaiting => Sys2Proof.Machine.execGpCountWaiting s
  | .gpCountFinished => Sys2Proof.Machine.execGpCountFinished s
  | .gpMostRecent => Sys2Proof.Machine.execGpMostRecent s
  | .gpReset => Sys2Proof.Machine.execGpReset s
  | .esSchedule time payload => Sys2Proof.Machine.execEsSchedule time payload s
  | .esTick now => Sys2Proof.Machine.execEsTick now s
  | .esClear => Sys2Proof.Machine.execEsClear s
  | .lmStartLooping => Sys2Proof.Machine.execLmStartLooping s
  | .lmStopLooping => Sys2Proof.Machine.execLmStopLooping s
  | .lmSetGridInterval new => Sys2Proof.Machine.execLmSetGridInterval new s
  | .lmTick songTime => Sys2Proof.Machine.execLmTick songTime s
  | .lmSetFadeInTime lead => Sys2Proof.Machine.execLmSetFadeInTime lead s
  | .lmReset => Sys2Proof.Machine.execLmReset s

end Sys2Proof.Machine
end

