-- ==== Sys2Proof/Machine/Step.lean ====
section
/-! DEFINITION. One step of the machine: it takes the next thing the host presents (spec/20_memory.md R95). -/

namespace Sys2Proof.Machine

/-- One command transaction: decode it for this configuration (R121) and execute it, or take the illegal word (R117, R383). -/
def runTransaction (t : Transaction) (s : State) : Host.Outcome State Fault Refusal :=
  match decode s.kind t with
  | .ok i => exec i s
  | .error _ => .next (s.illegalWord t.cw t.unit t.op)

/-- One step. With nothing presented the hardware waits and holds its state (R397, R411); a presented command is executed to its
end before the next (R95); the reset input reconstructs the instance (R410). -/
def step (s : State) : Host.Outcome State Fault Refusal :=
  match s.port with
  | [] => .next s
  | .reset :: rest => .next (State.hardwareReset { s with port := rest })
  | .command t :: rest => runTransaction t { s with port := rest }

/-- `s` built as the configuration `k` instead, its unit at power-on; `s` itself where it is built as `k` already. -/
def State.configuredAs (s : State) (k : Kind) : State :=
  if s.kind = k then s else { s with unit := powerOnUnit s.params k }

/-- `s` with the instruction whose bits are `w` presented next on the command port, in a machine built as the configuration that
accepts it (log entry 7): a configuration accepts the commands of its own unit only (R3, R113), and a word whose UNIT field
names no configuration is presented to `s` as it is. -/
def State.withFetchWord (s : State) (nbits w : Nat) : State :=
  let t := tableTransaction nbits w
  let s' :=
    match kindOfCode t.unit with
    | some k => s.configuredAs k
    | none => s
  { s' with port := .command t :: s.port }

end Sys2Proof.Machine
end

