-- ==== Sys2Proof/Safety.lean ====
section
/-! DEFINITION. What a sound state is (the invariants of spec/10_state.md), and the words the statements are written in. -/

namespace Sys2Proof.Machine

/-- A ramp: `rem ≤ tot` (R34). -/
abbrev Ramp.Wf (r : Ramp) : Prop := r.rem.toNat ≤ r.tot.toNat

/-- A grain: `el ≤ dur` and `fade ≤ dur` (R35), and its envelope is a sound ramp. -/
abbrev Grain.Wf (g : Grain) : Prop := g.el.toNat ≤ g.dur.toNat ∧ g.fade.toNat ≤ g.dur.toNat ∧ g.env.Wf

/-- A buffer of capacity `n` and `c` lanes: `0 ≤ w < n` (R33), its memory canonical, every slot in range and of `c` lanes. -/
abbrev CBuf.Wf (n c : Nat) (b : CBuf) : Prop :=
  b.w < n ∧ CellsWf (zeroSample c) b.cells ∧ ∀ e ∈ b.cells, e.1 < n ∧ e.2.length = c

/-- A pool: sound buffers, `G` sound grains, `copy ≤ S`, and `copy = S` exactly when the phase is UsingStatic (R37, R38). -/
abbrev Pool.Wf (prm : Params) (p : Pool) : Prop :=
  p.ROLL.Wf prm.R prm.C ∧ p.STAT.Wf prm.S prm.C ∧ p.grain.length = prm.G ∧ (∀ g ∈ p.grain, g.Wf)
    ∧ p.copy.toNat ≤ prm.S ∧ (p.copy.toNat = prm.S ↔ p.phase = .usingStatic)

/-- An event queue of capacity `cap`: at most `cap` entries, every time finite, times non-decreasing (R39). -/
abbrev EvQueueWf {α : Type} (cap : Nat) (q : EvQueue α) : Prop :=
  q.length ≤ cap ∧ (∀ e ∈ q, finite64 e.time = true) ∧ List.Pairwise (fun a b : Entry α => le64 a.time b.time = true) q

/-- How many NextLoop entries are pending (R42). -/
def Lem.pendingNextLoops (m : Lem) : Nat := m.q.countP fun e => e.payload.kind == .nextLoop

/-- A loop event machine: a sound queue, a finite grid > 0, a finite lead not < 0, finite times, `first` only while looping, and
exactly one NextLoop pending while looping and none otherwise (R41, R42, R295, R299). -/
abbrev Lem.Wf (cap : Nat) (m : Lem) : Prop :=
  EvQueueWf cap m.q ∧ finite64 m.grid = true ∧ lt64 zero64 m.grid = true ∧ finite64 m.lead = true
    ∧ lt64 m.lead zero64 = false ∧ m.cst.all finite64 = true ∧ finite64 m.tli = true
    ∧ (m.first = true → m.looping = true) ∧ m.pendingNextLoops = (if m.looping then 1 else 0)

/-- The ENGINE: its parts are sound, tempo and sample rate finite and > 0, speed finite (R43, R46). The offset is left out: a
tempo change may take it out of range (log entry 9). -/
abbrev Engine.Wf (prm : Params) (e : Engine) : Prop :=
  e.P.Wf prm ∧ e.E.Wf prm.Q ∧ e.DRY.Wf ∧ finite64 e.tempo = true ∧ lt64 zero64 e.tempo = true
    ∧ finite64 e.sr = true ∧ lt64 zero64 e.sr = true ∧ finite32 e.speed = true

/-- The fault register holds a cause 1 to 9 once a command has faulted, and only zeros before (R32, R381). -/
abbrev FaultReg.Wf (f : FaultReg) : Prop :=
  (f.valid = true → 1 ≤ f.cause.toNat ∧ f.cause.toNat ≤ 9)
    ∧ (f.valid = false → f.cause = 0 ∧ f.unit = 0 ∧ f.op = 0)

/-- The unit an instance is built as is sound, checked. -/
def UnitState.wfB (prm : Params) : UnitState → Bool
  | .engine e => decide (e.Wf prm)
  | .cbuf b => decide (b.Wf prm.N prm.C)
  | .ramp r => decide r.Wf
  | .grain g => decide g.Wf
  | .pool p => decide (p.Wf prm)
  | .evsched q => decide (EvQueueWf prm.Q q)
  | .lem m => decide (m.Wf prm.Q)

/-- THE INVARIANT: legal construction parameters, a sound fault register and a sound unit. -/
abbrev State.Inv (s : State) : Prop :=
  s.params.Valid s.kind ∧ s.fault.Wf ∧ s.unit.wfB s.params = true

/-- A machine built as `u`, not faulted: the condition on the state under which a command of `u`'s unit runs (R113, R385). -/
abbrev State.Ready (s : State) (u : UnitState) : Prop := s.unit = u ∧ s.fault.valid = false

/-- The state after a command of `s` that executed: its unit and its results, everything else as it was. -/
def State.executed (s : State) (u : UnitState) (res : List Word64) : State :=
  { s with unit := u, resp := some ⟨.ok, res⟩ }

/-- The state after a command of `s` that faulted with `cause`, its results `zeros` zero words: FAULT and the response written,
everything else as it was (R384, R386). -/
def State.faultedBy (s : State) (cause : Cause) (unit op : BitVec 4) (zeros : Nat) : State :=
  { s with fault := ⟨true, cause.code, unit, op⟩, resp := some ⟨.fault, List.replicate zeros 0⟩ }

/-- The host's presentation of these commands, in order. -/
def presenting (is : List Instr) : List PortInput := is.map fun i => .command (encode i)

/-- Every transaction with this command word decodes to this command, whatever its operand words hold (R111, R114, R121). -/
abbrev Encodes (k : Kind) (cw : CmdWord) (command : Word64 → Word64 → Word64 → Instr) : Prop :=
  ∀ a b x : Word64, decode k ⟨cw, a, b, x⟩ = .ok (command a b x)

/-- Bits [31:0] of an operand word, by arithmetic (R116). -/
def lowWord (w : Word64) : BitVec 32 := BitVec.ofNat 32 w.toNat
/-- Bits [63:32] of an operand word, by arithmetic (R116). -/
def highWord (w : Word64) : BitVec 32 := BitVec.ofNat 32 (w.toNat / 2 ^ 32)

/-- The phase after the copy step of a pool tick: the handoff happens on the tick that copies the last sample (R236). -/
def Pool.phaseAfterCopy (prm : Params) (p : Pool) : Phase :=
  if p.phase = .fillingStatic ∧ p.copy.toNat + 1 = prm.S then .usingStatic else p.phase

/-- The delay at which a pool tick reads for a grain: its position plus M in the static buffer, plus the ticks since the
reference point, this one included, in the rolling buffer (R232, R235). -/
def Pool.delayOnTick (prm : Params) (p : Pool) (g : Grain) : B32 :=
  add32 g.pos (f32 (if p.phaseAfterCopy prm = .usingStatic then prm.M else min (p.roff.toNat + 1) (2 ^ 32 - 1)))

/-- The sample that a pool whose input and copy steps are done reads at a delay, from the buffer that is authoritative (R38, R235);
`0̄` where the read would fault. -/
def Pool.sampleAt (prm : Params) (p : Pool) (d : B32) : Sample :=
  match (if p.phase = .usingStatic then p.STAT.readInterp prm.S prm.C d else p.ROLL.readInterp prm.R prm.C d) with
  | .ok v => v
  | .error _ => zeroSample prm.C

/-- Every playing grain of the pool reads inside its buffer on the next tick (R153, R232). -/
def Pool.Readable (prm : Params) (p : Pool) : Prop :=
  ∀ g ∈ p.grain, g.playing = true →
    finite32 (p.delayOnTick prm g) = true ∧ lt32 (p.delayOnTick prm g) zero32 = false
      ∧ ceil32 (p.delayOnTick prm g) < (if p.phaseAfterCopy prm = .usingStatic then prm.S else prm.R)

end Sys2Proof.Machine
end

