-- ==== Sys2Proof/Certificates/Slice0/Obligations.lean ====
section
/-! DEFINITION. The statements for the provers. A unit written `s.Ready u` is the one the instance is built as, not faulted; an
equation `exec i s = .next (s.executed u res)` says the whole next state, so that it is its own frame. -/

open Sys2Proof Sys2Proof.Machine

/-! ### Encoding -/

/-- Decoding gives back every encoded command, from its words and from their bytes, in its own configuration and in no other.
The order of the words in a byte transport is the model's (log entry 5). -/
def Obligations.DecodeOfEncodeGivesCommand : Prop :=
  ∀ (i : Instr) (rest : List (BitVec 8)),
    decode i.kind (encode i) = .ok i ∧
    decodeBytes i.kind ((encode i).serialise ++ rest) = .ok (i, rest) ∧
    ∀ k, k ≠ i.kind → decode k (encode i) = .error .wrongUnit

/-- R121: the command word of a legal command is `(UNIT << 28) | (OP << 24) | IMM`, and it is the encoder's. -/
def Obligations.LegalWordIsItsCommandsWord : Prop :=
  ∀ (k : Kind) (t : Transaction) (i : Instr), decode k t = .ok i →
    i.WellFormed k ∧ (encode i).cw = t.cw ∧
    t.cw.toNat = i.kind.code.toNat * 2 ^ 28 + i.op.toNat * 2 ^ 24 + i.imm.toNat

/-- R117, its four conditions by arithmetic on the word: another unit code, an operation code past the unit's last, RSV not zero,
an immediate with a bit outside the command's mask. A word that meets one takes ILLEGAL_COMMAND and has no other effect, and so
does E.READ_REG of a reserved register. How many zero words an illegal word returns is left open (log entry 4). -/
def Obligations.IllegalCommands : Prop :=
  (∀ (k : Kind) (t : Transaction),
    (∃ e, decode k t = .error e) ↔
      t.cw.toNat / 2 ^ 28
          ≠ (match k with | .engine => 0 | .cbuf => 1 | .ramp => 2 | .grain => 3 | .pool => 4 | .evsched => 5 | .lem => 6) ∨
      (match k with | .engine => 12 | .cbuf => 4 | .ramp => 3 | .grain => 8 | .pool => 10 | .evsched => 3 | .lem => 6)
          ≤ t.cw.toNat / 2 ^ 24 % 16 ∨
      t.cw.toNat / 2 ^ 16 % 256 ≠ 0 ∨
      (match k, t.cw.toNat / 2 ^ 24 % 16 with
        | .engine, 6 => 2 | .engine, 11 => 256 | .grain, 0 => 2 | .pool, 0 => 2 | _, _ => 1) ≤ t.cw.toNat % 2 ^ 16) ∧
  (∀ (s : State) (t : Transaction) (rest : List PortInput) (e : DecodeError),
    s.port = .command t :: rest → s.fault.valid = false → decode s.kind t = .error e →
    ∃ zeros ≤ 1, step s = .next (State.faultedBy { s with port := rest } .illegalCommand t.unit t.op zeros)) ∧
  (∀ (s : State) (e : Engine) (reg : BitVec 8), s.Ready (.engine e) → reg.toNat = 0x0F ∨ 0x17 ≤ reg.toNat →
    exec (.eReadReg reg) s = .next (s.faultedBy .illegalCommand 0x0 0xB 1))

/-- R114 to R116: every row of the opcode map, its word written out and its operands read from the words by arithmetic. -/
def Obligations.WrittenOutWordsDecode : Prop :=
  (Encodes .engine 0x00000000#32 (fun a b _ => .eTick a b)
    ∧ Encodes .engine 0x01000000#32 (fun a _ _ => .eSetGrid a)
    ∧ Encodes .engine 0x02000000#32 (fun a _ _ => .eSetLoopOffset a)
    ∧ Encodes .engine 0x03000000#32 (fun a _ _ => .eSetFadeTime a)
    ∧ Encodes .engine 0x04000000#32 (fun a _ _ => .eSetTempo a)
    ∧ Encodes .engine 0x05000000#32 (fun a _ _ => .eSetSampleRate a)
    ∧ Encodes .engine 0x06000000#32 (fun _ _ _ => .eSetReverse false)
    ∧ Encodes .engine 0x06000001#32 (fun _ _ _ => .eSetReverse true)
    ∧ Encodes .engine 0x07000000#32 (fun a _ _ => .eSetSpeed (lowWord a))
    ∧ Encodes .engine 0x08000000#32 (fun _ _ _ => .eStartLooping)
    ∧ Encodes .engine 0x09000000#32 (fun _ _ _ => .eStopLooping)
    ∧ Encodes .engine 0x0A000000#32 (fun _ _ _ => .eReset)
    ∧ Encodes .engine 0x0B000000#32 (fun _ _ _ => .eReadReg 0x00)
    ∧ Encodes .engine 0x0B0000FF#32 (fun _ _ _ => .eReadReg 0xFF)) ∧
  (Encodes .cbuf 0x10000000#32 (fun _ b _ => .cbTick b)
    ∧ Encodes .cbuf 0x11000000#32 (fun a _ _ => .cbRead (lowWord a))
    ∧ Encodes .cbuf 0x12000000#32 (fun a _ _ => .cbReadInterp (lowWord a))
    ∧ Encodes .cbuf 0x13000000#32 (fun _ _ _ => .cbReset)) ∧
  (Encodes .ramp 0x20000000#32 (fun a _ _ => .rvSet (lowWord a))
    ∧ Encodes .ramp 0x21000000#32 (fun a _ _ => .rvRamp (lowWord a) (highWord a))
    ∧ Encodes .ramp 0x22000000#32 (fun _ _ _ => .rvTick)) ∧
  (Encodes .grain 0x30000000#32 (fun a b k => .grNew (lowWord a) (highWord a) (lowWord b) (highWord b) (lowWord k) false)
    ∧ Encodes .grain 0x30000001#32 (fun a b k => .grNew (lowWord a) (highWord a) (lowWord b) (highWord b) (lowWord k) true)
    ∧ Encodes .grain 0x31000000#32 (fun _ _ _ => .grTick)
    ∧ Encodes .grain 0x32000000#32 (fun _ _ _ => .grStop)
    ∧ Encodes .grain 0x33000000#32 (fun _ _ _ => .grIsFinished)
    ∧ Encodes .grain 0x34000000#32 (fun _ _ _ => .grIsWaiting)
    ∧ Encodes .grain 0x35000000#32 (fun _ _ _ => .grIsPlaying)
    ∧ Encodes .grain 0x36000000#32 (fun _ _ _ => .grIsFadingIn)
    ∧ Encodes .grain 0x37000000#32 (fun _ _ _ => .grIsFadingOut)) ∧
  (Encodes .pool 0x40000000#32 (fun a b k => .gpSchedule (lowWord a) (highWord a) (lowWord b) (highWord b) (lowWord k) false)
    ∧ Encodes .pool 0x40000001#32
      (fun a b k => .gpSchedule (lowWord a) (highWord a) (lowWord b) (highWord b) (lowWord k) true)
    ∧ Encodes .pool 0x41000000#32 (fun _ _ _ => .gpStartLooping)
    ∧ Encodes .pool 0x42000000#32 (fun _ _ _ => .gpStopLooping)
    ∧ Encodes .pool 0x43000000#32 (fun _ b _ => .gpTick b)
    ∧ Encodes .pool 0x44000000#32 (fun _ _ _ => .gpStopAll)
    ∧ Encodes .pool 0x45000000#32 (fun _ _ _ => .gpCountPlaying)
    ∧ Encodes .pool 0x46000000#32 (fun _ _ _ => .gpCountWaiting)
    ∧ Encodes .pool 0x47000000#32 (fun _ _ _ => .gpCountFinished)
    ∧ Encodes .pool 0x48000000#32 (fun _ _ _ => .gpMostRecent)
    ∧ Encodes .pool 0x49000000#32 (fun _ _ _ => .gpReset)) ∧
  (Encodes .evsched 0x50000000#32 (fun a b _ => .esSchedule a b)
    ∧ Encodes .evsched 0x51000000#32 (fun a _ _ => .esTick a)
    ∧ Encodes .evsched 0x52000000#32 (fun _ _ _ => .esClear)) ∧
  (Encodes .lem 0x60000000#32 (fun _ _ _ => .lmStartLooping)
    ∧ Encodes .lem 0x61000000#32 (fun _ _ _ => .lmStopLooping)
    ∧ Encodes .lem 0x62000000#32 (fun a _ _ => .lmSetGridInterval a)
    ∧ Encodes .lem 0x63000000#32 (fun a _ _ => .lmTick a)
    ∧ Encodes .lem 0x64000000#32 (fun a _ _ => .lmSetFadeInTime a)
    ∧ Encodes .lem 0x65000000#32 (fun _ _ _ => .lmReset))

/-- R116, R118: a sample of one or two lanes goes into a result word and comes out of an operand word lane by lane. -/
def Obligations.SampleWordsCarryLanes : Prop :=
  (∀ l0 : B32, sampleWord [l0] = BitVec.ofNat 64 l0.toNat) ∧
  (∀ l0 l1 : B32, sampleWord [l0, l1] = BitVec.ofNat 64 (l1.toNat * 2 ^ 32 + l0.toNat)) ∧
  (∀ w : Word64, smp 1 w = [lowWord w]) ∧
  (∀ w : Word64, smp 2 w = [lowWord w, highWord w]) ∧
  (∀ (c : Nat) (w : Word64), c ≤ 2 → smp c (sampleWord (smp c w)) = smp c w)

/-! ### The machine -/

/-- One step with a presented command that decodes to `i` is `i` executed with that command taken off the port; with nothing
presented the machine holds its state (R95, R397, R411). The port is the model's own (log entry 7). -/
def Obligations.StepRunsPresentedCommand : Prop :=
  (∀ (s : State) (t : Transaction) (rest : List PortInput) (i : Instr),
    s.port = .command t :: rest → decode s.kind t = .ok i → step s = exec i { s with port := rest }) ∧
  (∀ s : State, s.port = [] → step s = .next s)

/-- R410: the reset input gives back the instance as constructed, every element at the power-on value that spec/10_state.md
names for it, whatever the state before, faulted or not; and only that input makes a faulted instance not faulted. How the input
is presented, and what is left of the last response, are the model's own (log entry 7). -/
def Obligations.HardwareResetGivesPowerOn : Prop :=
  (∀ (s : State) (rest : List PortInput), s.port = .reset :: rest → ∃ resp,
    step s = .next
      { params := s.params
        fault := ⟨false, 0, 0, 0⟩
        unit :=
          match s.kind with
          | .engine => .engine
              { P := ⟨List.replicate s.params.G ⟨0, 0, 0, 0, 0, 0, ⟨0, 0, 0, 0, 0⟩⟩, ⟨[], 0⟩, ⟨[], 0⟩, 0, 0, .notLooping⟩
                E := ⟨[], f64 1, 0, none, false, 0, false⟩
                DRY := ⟨f32 1, f32 1, f32 1, 0, 0⟩
                offset := f64 1
                tempo := f64 120
                sr := f64 48000
                speed := f32 1
                reverse := false }
          | .cbuf => .cbuf ⟨[], 0⟩
          | .ramp => .ramp ⟨0, 0, 0, 0, 0⟩
          | .grain => .grain ⟨0, 0, 0, 0, 0, 0, ⟨0, 0, 0, 0, 0⟩⟩
          | .pool => .pool
              ⟨List.replicate s.params.G ⟨0, 0, 0, 0, 0, 0, ⟨0, 0, 0, 0, 0⟩⟩, ⟨[], 0⟩, ⟨[], 0⟩, 0, 0, .notLooping⟩
          | .evsched => .evsched []
          | .lem => .lem ⟨[], f64 1, 0, none, false, 0, false⟩
        port := rest
        resp := resp }) ∧
  (∀ s t : State, s.fault.valid = true → step s = .next t → t.fault.valid = false → ∃ rest, s.port = .reset :: rest)

/-- No step stops the machine, changes its construction parameters or its configuration, or presents anything (R3, R6, R95, R389). -/
def Obligations.EveryStepAnswersAndKeepsConfiguration : Prop :=
  ∀ s : State, ∃ t : State, step s = .next t ∧ t.params = s.params ∧ t.kind = s.kind ∧ t.port = s.port.tail

/-- R384, R387: the fault is precise. After the command that faults only FAULT has changed (and what the command returned): it holds
a cause, the UNIT and OP fields of the command word, and the port drives it. -/
def Obligations.FaultsArePrecise : Prop :=
  ∀ (s t : State) (tx : Transaction) (rest : List PortInput), s.port = .command tx :: rest → step s = .next t →
    s.fault.valid = false → t.fault.valid = true →
    ∃ (cause : Cause) (zeros : Nat), zeros ≤ 1 ∧ (∀ i, decode s.kind tx = .ok i → zeros = i.zeroWords) ∧
      t = { params := s.params
            fault := ⟨true, cause.code, tx.unit, tx.op⟩
            unit := s.unit
            port := rest
            resp := some ⟨.fault, List.replicate zeros 0⟩ } ∧
      t.faultPins = ⟨1, cause.code, tx.unit, tx.op⟩

/-- R385, R386: while faulted every command is rejected, with zero words and no effect, an illegal word and a read of a register
that does not exist among them; only E.READ_REG of a register that exists is answered. How many zero words an illegal word returns
is left open (log entry 4). -/
def Obligations.FaultedMachineRejects : Prop :=
  ∀ (s : State) (tx : Transaction) (rest : List PortInput), s.port = .command tx :: rest → s.fault.valid = true →
    (∀ reg, decode s.kind tx = .ok (.eReadReg reg) → reg.toNat ≤ 0x16 → reg.toNat ≠ 0x0F →
      ∃ v, step s = .next { s with port := rest, resp := some ⟨.ok, [v]⟩ }) ∧
    ((∀ reg, decode s.kind tx = .ok (.eReadReg reg) → 0x16 < reg.toNat ∨ reg.toNat = 0x0F) →
      ∃ zeros ≤ 1, step s = .next { s with port := rest, resp := some ⟨.faulted, List.replicate zeros 0⟩ } ∧
        ∀ i, decode s.kind tx = .ok i → zeros =
          (match i with
          | .eTick _ _ | .gpTick _ | .cbRead _ | .cbReadInterp _ | .rvTick | .grTick | .grIsFinished | .grIsWaiting
          | .grIsPlaying | .grIsFadingIn | .grIsFadingOut | .gpCountPlaying | .gpCountWaiting | .gpCountFinished
          | .gpMostRecent | .eReadReg _ | .esTick _ | .lmTick _ => 1
          | _ => 0))

/-- R390: a fault is left only by a hardware reset. However many commands follow, FAULT keeps the first cause and no element of
the unit changes. -/
def Obligations.OnlyHardwareResetLeavesFault : Prop :=
  ∀ (n : Nat) (s t : State), s.fault.valid = true → PortInput.reset ∉ s.port.take n → Sys2Proof.core.run n s = .next t →
    t.fault = s.fault ∧ t.unit = s.unit ∧ t.params = s.params

/-- The invariants of spec/10_state.md (R33 to R35, R37 to R39, R41, R42, R46), in every state of every configuration: a step that
answers keeps them. The offset of the ENGINE is not among them (log entry 9). -/
def Obligations.StepKeepsInvariant : Prop :=
  ∀ s t : State, s.Inv → step s = .next t → t.Inv

/-- The reset state is sound. Its configuration and parameters are the model's choice (log entry 1). -/
def Obligations.ResetStateIsSound : Prop := State.reset.Inv

/-- R6, R49: a construction is refused exactly when it breaks a constraint of R6, and otherwise gives a sound state. The constraints
are those of the column "used by". -/
def Obligations.ConstructionIsSoundOrRefused : Prop :=
  ∀ (p : Params) (k : Kind),
    (p.Valid k → construct p k = .ok (State.powerOn p k) ∧ (State.powerOn p k).Inv) ∧
    (¬ p.Valid k → construct p k = .error .illegalConstruction) ∧
    (p.Valid .engine ↔ (p.C = 1 ∨ p.C = 2) ∧ p.L < p.R ∧ p.R ≤ 2 ^ 24 ∧ 1 ≤ p.L ∧ p.L + p.M ≤ 2 ^ 24 ∧ 1 ≤ p.G ∧ p.G ≤ 256
      ∧ 4 ≤ p.Q ∧ p.Q ≤ 255 ∧ p.F ≤ 2 ^ 24)

/-! ### CBUF -/

/-- R151: the sample goes into the slot under the cursor, every other slot keeps its sample, the cursor advances modulo `N`. -/
def Obligations.CbufTickWritesOneSlot : Prop :=
  Encodes .cbuf 0x10000000#32 (fun _ b _ => .cbTick b) ∧
  ∀ (s : State) (b : CBuf) (v : Word64), s.Ready (.cbuf b) → b.Wf s.params.N s.params.C →
    ∃ b' : CBuf, exec (.cbTick v) s = .next (s.executed (.cbuf b') []) ∧
      b'.w = (b.w + 1) % s.params.N ∧
      ∀ j, b'.slot s.params.C j = if j = b.w then smp s.params.C v else b.slot s.params.C j

/-- R150, R152: the sample at delay `d` is that of slot `(w - 1 - d) mod N`; from `N` up the read faults. -/
def Obligations.CbufReadAtDelay : Prop :=
  Encodes .cbuf 0x11000000#32 (fun a _ _ => .cbRead (lowWord a)) ∧
  ∀ (s : State) (b : CBuf) (d : U32), s.Ready (.cbuf b) →
    (d.toNat < s.params.N → exec (.cbRead d) s = .next (s.executed (.cbuf b)
      [sampleWord (b.slot s.params.C (((b.w : Int) - 1 - d.toNat) % s.params.N).toNat)])) ∧
    (s.params.N ≤ d.toNat → exec (.cbRead d) s = .next (s.faultedBy .cbufReadRange 0x1 0x1 1))

/-- R153: a fractional delay reads the sample of an integer delay as it is, and between two delays the interpolation of the newer
and the older sample; a delay that is not finite, is negative or whose ceiling is `N` or more faults. -/
def Obligations.CbufReadInterpolates : Prop :=
  Encodes .cbuf 0x12000000#32 (fun a _ _ => .cbReadInterp (lowWord a)) ∧
  ∀ (s : State) (b : CBuf) (d : B32), s.Ready (.cbuf b) →
    let at' : Int → Sample := fun i => b.slot s.params.C (((b.w : Int) - 1 - i) % s.params.N).toNat
    (finite32 d = true → lt32 d zero32 = false → ceil32 d < s.params.N →
      (floor32 d = ceil32 d → exec (.cbReadInterp d) s = .next (s.executed (.cbuf b) [sampleWord (at' (floor32 d))])) ∧
      (floor32 d ≠ ceil32 d → exec (.cbReadInterp d) s = .next (s.executed (.cbuf b)
        [sampleWord (Sample.add (at' (floor32 d))
          (Sample.scale (Sample.sub (at' (ceil32 d)) (at' (floor32 d))) (sub32 d (f32 (floor32 d).toNat))))]))) ∧
    (¬ (finite32 d = true ∧ lt32 d zero32 = false ∧ ceil32 d < s.params.N) →
      exec (.cbReadInterp d) s = .next (s.faultedBy .cbufReadRange 0x1 0x2 1))

/-- R155 (with R93): after any sequence of writes a read at delay `d` returns the value written `d` ticks ago, and where the
sequence is shorter than that the sample that was at delay `d` less its length; after a reset every delay reads `0̄`. -/
def Obligations.BufferReadsWhatWasWritten : Prop :=
  ∀ (s : State) (b : CBuf) (vs : List Word64) (d : U32) (rest : List PortInput),
    s.Ready (.cbuf b) → b.Wf s.params.N s.params.C → d.toNat < s.params.N →
    (s.port = presenting (vs.map Instr.cbTick ++ [.cbRead d]) ++ rest →
      ∃ t : State, Sys2Proof.core.run (vs.length + 1) s = .next t ∧ t.port = rest ∧ t.fault = s.fault ∧
        t.resp = some ⟨.ok, [sampleWord
          (match vs.reverse[d.toNat]? with
          | some v => smp s.params.C v
          | none => b.slot s.params.C (((b.w : Int) - 1 - (d.toNat - vs.length : Nat)) % s.params.N).toNat)]⟩) ∧
    (s.port = presenting (vs.map Instr.cbTick ++ [.cbReset, .cbRead d]) ++ rest →
      ∃ t : State, Sys2Proof.core.run (vs.length + 2) s = .next t ∧
        t.resp = some ⟨.ok, [sampleWord (List.replicate s.params.C 0)]⟩)

/-! ### RAMP -/

/-- R171, R172: RV.SET jumps and cancels; RV.RAMP captures the current value and counts `n + 1` steps in 33 bits. -/
def Obligations.RampSetAndRampStart : Prop :=
  Encodes .ramp 0x20000000#32 (fun a _ _ => .rvSet (lowWord a)) ∧
  Encodes .ramp 0x21000000#32 (fun a _ _ => .rvRamp (lowWord a) (highWord a)) ∧
  ∀ (s : State) (r : Ramp), s.Ready (.ramp r) →
    (∀ v, exec (.rvSet v) s = .next (s.executed (.ramp ⟨v, v, v, 0, 0⟩) [])) ∧
    (∀ target n, exec (.rvRamp target n) s = .next
      (s.executed (.ramp ⟨r.v, r.v, target, BitVec.ofNat 33 (n.toNat + 1), BitVec.ofNat 33 (n.toNat + 1)⟩) []))

/-- R173: one step of a ramp. -/
def Obligations.RampTickSteps : Prop :=
  Encodes .ramp 0x22000000#32 (fun _ _ _ => .rvTick) ∧
  ∀ (s : State) (r : Ramp), s.Ready (.ramp r) →
    let v : B32 :=
      if r.rem.toNat ≤ 1 then r.t
      else add32 r.t (mul32 (sub32 r.s r.t) (div32 (f32 (r.rem.toNat - 1)) (f32 r.tot.toNat)))
    exec .rvTick s = .next
      (s.executed (.ramp ⟨v, r.s, r.t, BitVec.ofNat 33 (r.rem.toNat - 1), r.tot⟩) [BitVec.ofNat 64 v.toNat])

/-- R170, R174: the k-th tick after `ramp(target, n)` returns `t + (s - t) × ((n + 1 - k) / (n + 1))` for `k ≤ n`, exactly the
target on tick `n + 1`, and the target ever after. -/
def Obligations.RampArrivesExactly : Prop :=
  ∀ (s : State) (r : Ramp) (target : B32) (n : U32) (k : Nat) (rest : List PortInput),
    s.Ready (.ramp r) → 1 ≤ k → s.port = presenting (.rvRamp target n :: List.replicate k .rvTick) ++ rest →
    ∃ t : State, Sys2Proof.core.run (k + 1) s = .next t ∧ t.port = rest ∧ t.fault = s.fault ∧
      t.resp = some ⟨.ok, [BitVec.ofNat 64
        (if k ≤ n.toNat then
          add32 target (mul32 (sub32 r.v target) (div32 (f32 (n.toNat + 1 - k)) (f32 (n.toNat + 1))))
        else target).toNat]⟩

/-- R173 (the crossfade of R207): a ramp from 0 to 1 and a ramp from 1 to 0 of the same length, started on the same tick, sum to
exactly 1.0 in binary32 on every tick. -/
def Obligations.ComplementaryRampsSumToOne : Prop :=
  ∀ (n : U32) (k : Nat),
    add32 (Ramp.tick^[k] ((steadyRamp 0x00000000).ramp 0x3F800000 n)).v
      (Ramp.tick^[k] ((steadyRamp 0x3F800000).ramp 0x00000000 n)).v = 0x3F800000

/-! ### GRAIN -/

/-- R191, R192: the grain that GR.NEW makes of legal operands. -/
def Obligations.GrainNewConstructs : Prop :=
  Encodes .grain 0x30000000#32 (fun a b k => .grNew (lowWord a) (highWord a) (lowWord b) (highWord b) (lowWord k) false) ∧
  Encodes .grain 0x30000001#32 (fun a b k => .grNew (lowWord a) (highWord a) (lowWord b) (highWord b) (lowWord k) true) ∧
  ∀ (s : State) (g : Grain) (wait duration : U32) (offset speed : B32) (fade : U32) (reverse : Bool),
    s.Ready (.grain g) →
    (finite32 offset = true → finite32 speed = true → fade.toNat ≤ duration.toNat →
      ∃ fade' : U32, fade'.toNat = (if duration.toNat < 2 * fade.toNat then duration.toNat / 2 else fade.toNat) ∧
        2 * fade'.toNat ≤ duration.toNat ∧
        exec (.grNew wait duration offset speed fade reverse) s = .next
          (s.executed (.grain
            { wait := wait, dur := duration, fade := fade', el := 0, env := ⟨0, 0, 0, 0, 0⟩
              pos := if reverse then sub32 offset (f32 duration.toNat) else sub32 offset (f32 1)
              inc := if reverse then speed else neg32 speed }) [])) ∧
    ((finite32 offset = false ∨ finite32 speed = false) →
      exec (.grNew wait duration offset speed fade reverse) s = .next (s.faultedBy .badParameter 0x3 0x0 0)) ∧
    (finite32 offset = true → finite32 speed = true → duration.toNat < fade.toNat →
      exec (.grNew wait duration offset speed fade reverse) s = .next (s.faultedBy .fadeExceedsDuration 0x3 0x0 0))

/-- R194, R195: one tick of a grain: nothing when finished, the wait counted down, or an active tick that returns the position
before it advances with the gain after the envelope's tick. -/
def Obligations.GrainTickAdvances : Prop :=
  Encodes .grain 0x31000000#32 (fun _ _ _ => .grTick) ∧
  ∀ (s : State) (g : Grain), s.Ready (.grain g) →
    (g.dur.toNat ≤ g.el.toNat → exec .grTick s = .next (s.executed (.grain g) [0])) ∧
    (g.el.toNat < g.dur.toNat → 0 < g.wait.toNat →
      exec .grTick s = .next (s.executed (.grain { g with wait := BitVec.ofNat 32 (g.wait.toNat - 1) }) [0])) ∧
    (g.el.toNat < g.dur.toNat → g.wait.toNat = 0 →
      let fadedIn : Ramp := if g.el.toNat = 0 then g.env.ramp 0x3F800000 g.fade else g.env
      let env : Ramp :=
        (if (g.el.toNat : Int) = (g.dur.toNat : Int) - g.fade.toNat then fadedIn.ramp 0x00000000 g.fade else fadedIn).tick
      exec .grTick s = .next (s.executed
        (.grain { g with env := env, pos := add32 g.pos g.inc, el := BitVec.ofNat 32 (g.el.toNat + 1) })
        [BitVec.ofNat 64 (env.v.toNat * 2 ^ 32 + g.pos.toNat)]))

/-- R196: a stop cuts the duration to one fade from here, but in the fade-out region or when finished it does nothing; a second stop
does nothing. -/
def Obligations.GrainStopShortens : Prop :=
  Encodes .grain 0x32000000#32 (fun _ _ _ => .grStop) ∧
  ∀ (s : State) (g : Grain), s.Ready (.grain g) →
    ((g.dur.toNat : Int) - g.fade.toNat ≤ g.el.toNat → exec .grStop s = .next (s.executed (.grain g) [])) ∧
    ((g.el.toNat : Int) < (g.dur.toNat : Int) - g.fade.toNat →
      ∃ g' : Grain, g' = { g with dur := BitVec.ofNat 32 (g.el.toNat + g.fade.toNat) } ∧
        g'.dur.toNat = g.el.toNat + g.fade.toNat ∧
        exec .grStop s = .next (s.executed (.grain g') []) ∧
        ∀ t : State, t.Ready (.grain g') → exec .grStop t = .next (t.executed (.grain g') []))

/-- R200 to R204: the five queries read the counters and write nothing. -/
def Obligations.GrainQueriesReadCounters : Prop :=
  Encodes .grain 0x33000000#32 (fun _ _ _ => .grIsFinished) ∧
  Encodes .grain 0x34000000#32 (fun _ _ _ => .grIsWaiting) ∧
  Encodes .grain 0x35000000#32 (fun _ _ _ => .grIsPlaying) ∧
  Encodes .grain 0x36000000#32 (fun _ _ _ => .grIsFadingIn) ∧
  Encodes .grain 0x37000000#32 (fun _ _ _ => .grIsFadingOut) ∧
  ∀ (s : State) (g : Grain), s.Ready (.grain g) →
    exec .grIsFinished s = .next (s.executed (.grain g) [if g.dur.toNat ≤ g.el.toNat then 1 else 0]) ∧
    exec .grIsWaiting s = .next (s.executed (.grain g) [if g.el.toNat < g.dur.toNat ∧ 0 < g.wait.toNat then 1 else 0]) ∧
    exec .grIsPlaying s = .next (s.executed (.grain g) [if g.el.toNat < g.dur.toNat ∧ g.wait.toNat = 0 then 1 else 0]) ∧
    exec .grIsFadingIn s = .next (s.executed (.grain g)
      [if g.el.toNat < g.dur.toNat ∧ g.wait.toNat = 0 ∧ g.el.toNat < g.fade.toNat then 1 else 0]) ∧
    exec .grIsFadingOut s = .next (s.executed (.grain g)
      [if g.el.toNat < g.dur.toNat ∧ g.wait.toNat = 0 ∧ (g.dur.toNat : Int) - g.fade.toNat ≤ g.el.toNat then 1 else 0])

/-- R206: a grain constructed with duration `D > 0` and wait `W` returns (0, 0) on its first `W` ticks, then `D` active results, the
positions stepping by the increment, then (0, 0) for ever; it is finished after exactly `W + D` ticks. With fade 0 every active
gain is exactly 1.0 (R194). -/
def Obligations.GrainFinishesAfterWaitAndDuration : Prop :=
  ∀ (s : State) (g : Grain) (wait duration : U32) (offset speed : B32) (fade : U32) (reverse : Bool) (n : Nat)
    (rest : List PortInput),
    s.Ready (.grain g) → finite32 offset = true → finite32 speed = true → fade.toNat ≤ duration.toNat → 0 < duration.toNat →
    1 ≤ n →
    s.port = presenting (.grNew wait duration offset speed fade reverse :: List.replicate n .grTick) ++ rest →
    ∃ (t : State) (g' : Grain), Sys2Proof.core.run (n + 1) s = .next t ∧ t.unit = .grain g' ∧ t.fault = s.fault ∧
      (g'.finished = true ↔ wait.toNat + duration.toNat ≤ n) ∧
      (n ≤ wait.toNat ∨ wait.toNat + duration.toNat < n → t.resp = some ⟨.ok, [0]⟩) ∧
      (wait.toNat < n → n ≤ wait.toNat + duration.toNat →
        ∃ gain : B32, (fade = 0 → gain = 0x3F800000) ∧
          t.resp = some ⟨.ok, [halves gain
            ((fun p => add32 p (if reverse then speed else neg32 speed))^[n - wait.toNat - 1]
              (if reverse then sub32 offset (f32 duration.toNat) else sub32 offset (f32 1)))]⟩)

/-- R205: a grain that plays, has had its first active tick and is stopped before its fade-out region finishes after exactly `fade`
more ticks; the gain of the k-th is its envelope's value ramped toward 0. -/
def Obligations.StopLeavesOneFade : Prop :=
  ∀ (s : State) (g : Grain) (k : Nat) (rest : List PortInput),
    s.Ready (.grain g) → g.wait.toNat = 0 → 0 < g.el.toNat → g.el.toNat + g.fade.toNat < g.dur.toNat →
    s.port = presenting (.grStop :: List.replicate k .grTick) ++ rest →
    ∃ (t : State) (g' : Grain), Sys2Proof.core.run (k + 1) s = .next t ∧ t.unit = .grain g' ∧ t.fault = s.fault ∧
      (g'.finished = true ↔ g.fade.toNat ≤ k) ∧
      (1 ≤ k → k ≤ g.fade.toNat → ∃ pos : B32, t.resp = some ⟨.ok, [halves
        (add32 zero32 (mul32 (sub32 g.env.v zero32)
          (div32 (f32 (g.fade.toNat + 1 - k)) (f32 (g.fade.toNat + 1))))) pos]⟩)

/-! ### POOL -/

/-- R231: a constructed grain goes into the first finished slot, in ascending order, and a saturated pool drops it; the faults are
those of the construction, whatever the slots. -/
def Obligations.PoolScheduleInstallsGrain : Prop :=
  Encodes .pool 0x40000000#32 (fun a b k => .gpSchedule (lowWord a) (highWord a) (lowWord b) (highWord b) (lowWord k) false) ∧
  Encodes .pool 0x40000001#32 (fun a b k => .gpSchedule (lowWord a) (highWord a) (lowWord b) (highWord b) (lowWord k) true) ∧
  ∀ (s : State) (p : Pool) (wait duration : U32) (offset speed : B32) (fade : U32) (reverse : Bool),
    s.Ready (.pool p) →
    (finite32 offset = true → finite32 speed = true → fade.toNat ≤ duration.toNat →
      ∃ n : Grain,
        n = { wait := wait, dur := duration, el := 0, env := ⟨0, 0, 0, 0, 0⟩
              fade := if duration.toNat < 2 * fade.toNat then BitVec.ofNat 32 (duration.toNat / 2) else fade
              pos := if reverse then sub32 offset (f32 duration.toNat) else sub32 offset (f32 1)
              inc := if reverse then speed else neg32 speed } ∧
        (∀ before g after, p.grain = before ++ g :: after → (∀ x ∈ before, x.finished = false) → g.finished = true →
          exec (.gpSchedule wait duration offset speed fade reverse) s = .next
            (s.executed (.pool { p with grain := before ++ n :: after }) [])) ∧
        ((∀ x ∈ p.grain, x.finished = false) →
          exec (.gpSchedule wait duration offset speed fade reverse) s = .next (s.executed (.pool p) []))) ∧
    ((finite32 offset = false ∨ finite32 speed = false) →
      exec (.gpSchedule wait duration offset speed fade reverse) s = .next (s.faultedBy .badParameter 0x4 0x0 0)) ∧
    (finite32 offset = true → finite32 speed = true → duration.toNat < fade.toNat →
      exec (.gpSchedule wait duration offset speed fade reverse) s = .next (s.faultedBy .fadeExceedsDuration 0x4 0x0 0))

/-- R233, R234, R240: a start restarts the copy, a stop halts one in progress, a stop-all stops every grain. -/
def Obligations.PoolControlCommands : Prop :=
  Encodes .pool 0x41000000#32 (fun _ _ _ => .gpStartLooping) ∧
  Encodes .pool 0x42000000#32 (fun _ _ _ => .gpStopLooping) ∧
  Encodes .pool 0x44000000#32 (fun _ _ _ => .gpStopAll) ∧
  ∀ (s : State) (p : Pool), s.Ready (.pool p) →
    exec .gpStartLooping s = .next (s.executed (.pool { p with roff := 0, copy := 0, phase := .fillingStatic }) []) ∧
    exec .gpStopLooping s = .next (s.executed
      (.pool { p with phase := if p.phase = .fillingStatic then .notLooping else p.phase }) []) ∧
    exec .gpStopAll s = .next (s.executed
      (.pool { p with grain := p.grain.map fun g =>
        if g.dur.toNat ≤ g.el.toNat + g.fade.toNat then g
        else { g with dur := BitVec.ofNat 32 (g.el.toNat + g.fade.toNat) } }) [])

/-- R235, R236, R238: the input is written, the copy advances by one sample and hands off on the last, every slot that is not
finished ticks, and the output is the ordered sum over the playing grains of the sample read at the grain's position times its
gain. The command runs exactly when every playing grain reads in range, and faults with no effect otherwise. -/
def Obligations.PoolTickSumsGrains : Prop :=
  Encodes .pool 0x43000000#32 (fun _ b _ => .gpTick b) ∧
  ∀ (s : State) (p : Pool) (input : Word64), s.Ready (.pool p) → s.params.validPool → p.Wf s.params →
    let prm := s.params
    let roll := p.ROLL.tick prm.R prm.C (smp prm.C input)
    let p' : Pool :=
      { grain := p.grain.map fun g => g.tick.1
        ROLL := roll
        STAT :=
          if p.phase = .fillingStatic then
            p.STAT.tick prm.S prm.C (roll.slot prm.C (((roll.w : Int) - 1 - prm.L) % prm.R).toNat)
          else p.STAT
        roff := BitVec.ofNat 32 (min (p.roff.toNat + 1) (2 ^ 32 - 1))
        copy := if p.phase = .fillingStatic then BitVec.ofNat 32 (p.copy.toNat + 1) else p.copy
        phase := p.phaseAfterCopy prm }
    (p.Readable prm → exec (.gpTick input) s = .next (s.executed (.pool p')
      [sampleWord ((p.grain.filter Grain.playing).foldl
        (fun acc g => Sample.add acc (Sample.scale (p'.sampleAt prm (p.delayOnTick prm g)) g.tick.2.2))
        (List.replicate prm.C 0))])) ∧
    (¬ p.Readable prm → exec (.gpTick input) s = .next (s.faultedBy .cbufReadRange 0x4 0x3 1))

/-- R241 to R243: the three counts, which always sum to the number of slots. -/
def Obligations.PoolCountsSumToSlots : Prop :=
  Encodes .pool 0x45000000#32 (fun _ _ _ => .gpCountPlaying) ∧
  Encodes .pool 0x46000000#32 (fun _ _ _ => .gpCountWaiting) ∧
  Encodes .pool 0x47000000#32 (fun _ _ _ => .gpCountFinished) ∧
  ∀ (s : State) (p : Pool), s.Ready (.pool p) →
    let playing := (p.grain.filter fun g => g.el.toNat < g.dur.toNat ∧ g.wait.toNat = 0).length
    let waiting := (p.grain.filter fun g => g.el.toNat < g.dur.toNat ∧ 0 < g.wait.toNat).length
    let finished := (p.grain.filter fun g => g.dur.toNat ≤ g.el.toNat).length
    exec .gpCountPlaying s = .next (s.executed (.pool p) [BitVec.ofNat 64 playing]) ∧
    exec .gpCountWaiting s = .next (s.executed (.pool p) [BitVec.ofNat 64 waiting]) ∧
    exec .gpCountFinished s = .next (s.executed (.pool p) [BitVec.ofNat 64 finished]) ∧
    playing + waiting + finished = p.grain.length ∧ (p.Wf s.params → playing + waiting + finished = s.params.G)

/-- R244: the playing grain of the smallest elapsed count, the lowest slot in a tie; zero when none plays. -/
def Obligations.PoolMostRecentIsYoungest : Prop :=
  Encodes .pool 0x48000000#32 (fun _ _ _ => .gpMostRecent) ∧
  ∀ (s : State) (p : Pool), s.Ready (.pool p) → p.grain.length ≤ 256 →
    ((∀ g ∈ p.grain, g.playing = false) → exec .gpMostRecent s = .next (s.executed (.pool p) [0])) ∧
    (∀ (slot : Nat) (g : Grain), p.grain[slot]? = some g → g.playing = true →
      (∀ (j : Nat) (h : Grain), p.grain[j]? = some h → h.playing = true →
        g.el.toNat < h.el.toNat ∨ (g.el.toNat = h.el.toNat ∧ slot ≤ j)) →
      exec .gpMostRecent s = .next (s.executed (.pool p) [BitVec.ofNat 64 (g.el.toNat * 2 ^ 32 + slot * 2 ^ 8 + 1)]))

/-- R239: outside FillingStatic, so once the phase is UsingStatic, no sequence of commands without a start and without a reset writes
the static buffer or leaves the phase, whether the commands run, fault or are rejected. -/
def Obligations.StaticBufferIsStable : Prop :=
  ∀ (s : State) (p : Pool) (is : List Instr) (rest : List PortInput),
    s.unit = .pool p → p.phase ≠ .fillingStatic → Instr.gpStartLooping ∉ is → Instr.gpReset ∉ is →
    s.port = presenting is ++ rest →
    ∃ (t : State) (p' : Pool), Sys2Proof.core.run is.length s = .next t ∧ t.unit = .pool p' ∧
      p'.STAT = p.STAT ∧ p'.phase = p.phase

/-- R236: the copy takes exactly `S` ticks after a start, and then delay `j` of the static buffer holds position `j - M`: for
`j ≥ M` the sample that was at delay `j - M` of the rolling buffer at the start, and for `j < M` the input of tick `M - j`. No
grain plays meanwhile, so that no read can fault. -/
def Obligations.CopyTakesSnapshot : Prop :=
  ∀ (s : State) (p : Pool) (xs : List Word64) (rest : List PortInput),
    s.Ready (.pool p) → s.params.validPool → p.Wf s.params → (∀ g ∈ p.grain, g.finished = true) →
    xs.length ≤ s.params.S → s.port = presenting (.gpStartLooping :: xs.map Instr.gpTick) ++ rest →
    ∃ (t : State) (p' : Pool), Sys2Proof.core.run (xs.length + 1) s = .next t ∧ t.unit = .pool p' ∧ t.fault = s.fault ∧
      p'.copy.toNat = xs.length ∧ p'.roff.toNat = xs.length ∧
      p'.phase = (if xs.length = s.params.S then .usingStatic else .fillingStatic) ∧
      (xs.length = s.params.S → ∀ j < s.params.S,
        p'.STAT.slot s.params.C (((p'.STAT.w : Int) - 1 - j) % s.params.S).toNat =
          if s.params.M ≤ j then
            p.ROLL.slot s.params.C (((p.ROLL.w : Int) - 1 - (j - s.params.M : Nat)) % s.params.R).toNat
          else smp s.params.C (xs.getD (s.params.M - j - 1) 0))

/-- R412: what each command reset gives back: CB.RESET (R154), GP.RESET (R245), ES.CLEAR (R272), LM.RESET (R300), E.RESET (R345). -/
def Obligations.CommandResets : Prop :=
  Encodes .cbuf 0x13000000#32 (fun _ _ _ => .cbReset) ∧
  Encodes .pool 0x49000000#32 (fun _ _ _ => .gpReset) ∧
  Encodes .evsched 0x52000000#32 (fun _ _ _ => .esClear) ∧
  Encodes .lem 0x65000000#32 (fun _ _ _ => .lmReset) ∧
  Encodes .engine 0x0A000000#32 (fun _ _ _ => .eReset) ∧
  ∀ s : State,
    (∀ b, s.Ready (.cbuf b) → exec .cbReset s = .next (s.executed (.cbuf ⟨[], 0⟩) [])) ∧
    (∀ p, s.Ready (.pool p) → exec .gpReset s = .next (s.executed
      (.pool ⟨List.replicate s.params.G ⟨0, 0, 0, 0, 0, 0, ⟨0, 0, 0, 0, 0⟩⟩, ⟨[], 0⟩, ⟨[], 0⟩, 0, 0, .notLooping⟩) [])) ∧
    (∀ q, s.Ready (.evsched q) → exec .esClear s = .next (s.executed (.evsched []) [])) ∧
    (∀ m, s.Ready (.lem m) → exec .lmReset s = .next (s.executed (.lem ⟨[], m.grid, m.lead, none, false, 0, false⟩) [])) ∧
    (∀ e, s.Ready (.engine e) → exec .eReset s = .next (s.executed
      (.engine
        { P := ⟨List.replicate s.params.G ⟨0, 0, 0, 0, 0, 0, ⟨0, 0, 0, 0, 0⟩⟩, ⟨[], 0⟩, ⟨[], 0⟩, 0, 0, .notLooping⟩
          E := ⟨[], e.E.grid, e.E.lead, none, false, 0, false⟩
          DRY := ⟨f32 1, f32 1, f32 1, 0, 0⟩
          offset := e.offset
          tempo := e.tempo
          sr := e.sr
          speed := e.speed
          reverse := e.reverse }) []))

/-! ### EVSCHED -/

/-- R270: an event at a finite time that is not before the last pending one is appended while there is room; the three faults are
checked in this order. -/
def Obligations.EventScheduleAppends : Prop :=
  Encodes .evsched 0x50000000#32 (fun a b _ => .esSchedule a b) ∧
  ∀ (s : State) (q : EvQueue Word64) (time : B64) (payload : Word64), s.Ready (.evsched q) →
    (finite64 time = true → (∀ l, q.getLast? = some l → lt64 time l.time = false) → q.length < s.params.Q →
      exec (.esSchedule time payload) s = .next (s.executed (.evsched (q ++ [⟨time, payload⟩])) [])) ∧
    (finite64 time = false → exec (.esSchedule time payload) s = .next (s.faultedBy .badParameter 0x5 0x0 0)) ∧
    (∀ l, finite64 time = true → q.getLast? = some l → lt64 time l.time = true →
      exec (.esSchedule time payload) s = .next (s.faultedBy .schedNonMonotonic 0x5 0x0 0)) ∧
    (finite64 time = true → (∀ l, q.getLast? = some l → lt64 time l.time = false) → q.length = s.params.Q →
      exec (.esSchedule time payload) s = .next (s.faultedBy .schedFull 0x5 0x0 0))

/-- R271: a tick returns the number and the payloads of exactly the pending events that are due, in order, and keeps the others. -/
def Obligations.EventTickReturnsDueEvents : Prop :=
  Encodes .evsched 0x51000000#32 (fun a _ _ => .esTick a) ∧
  ∀ (s : State) (q : EvQueue Word64) (now : B64), s.Ready (.evsched q) → EvQueueWf s.params.Q q →
    (finite64 now = true →
      let due := q.filter fun e => le64 e.time now
      exec (.esTick now) s = .next (s.executed (.evsched (q.filter fun e => !le64 e.time now))
        (BitVec.ofNat 64 due.length :: due.map Entry.payload))) ∧
    (finite64 now = false → exec (.esTick now) s = .next (s.faultedBy .badParameter 0x5 0x1 1))

/-- R273, for the events pending when a sequence of ticks begins: each is returned the first time `now` reaches its time and never
before, at most once, and all in their insertion order. -/
def Obligations.EventsReturnInOrderWhenDue : Prop :=
  ∀ (s : State) (q : EvQueue Word64) (nows : List B64) (now : B64) (rest : List PortInput),
    s.Ready (.evsched q) → EvQueueWf s.params.Q q → (∀ u ∈ nows ++ [now], finite64 u = true) →
    s.port = presenting ((nows ++ [now]).map Instr.esTick) ++ rest →
    let first := q.filter fun e => nows.all (fun u => !le64 e.time u) && le64 e.time now
    ∃ t : State, Sys2Proof.core.run (nows.length + 1) s = .next t ∧ t.fault = s.fault ∧
      t.unit = .evsched (q.filter fun e => (nows ++ [now]).all fun u => !le64 e.time u) ∧
      t.resp = some ⟨.ok, BitVec.ofNat 64 first.length :: first.map Entry.payload⟩

/-! ### LEM -/

/-- R291: the rule's own five examples of a next grid boundary, the last one given by its bits. -/
def Obligations.NextGridBoundaryExamples : Prop :=
  ngb (f64 0) (f64 1) 0 = f64 0 ∧
  ngb (div64 (f64 1) (f64 4)) (f64 1) 0 = f64 1 ∧
  ngb (div64 (f64 1) (f64 4)) (f64 1) (div64 (f64 1) (f64 4)) = div64 (f64 3) (f64 4) ∧
  ngb (f64 1) (f64 1) (div64 (f64 1) (f64 4)) = div64 (f64 7) (f64 4) ∧
  ngb (div64 (f64 4) (f64 10)) (div64 (f64 5) (f64 10)) (div64 (f64 2) (f64 10)) = 0x3FE999999999999A

/-- R293: a start while not looping queues NextLoop and FadeOutDry at the next boundary, behind what is pending; while looping it
does nothing. Its faults are those of the first schedule that fails; the boundary is a finite time as long as its arithmetic is. -/
def Obligations.LemStartLooping : Prop :=
  Encodes .lem 0x60000000#32 (fun _ _ _ => .lmStartLooping) ∧
  ∀ (s : State) (m : Lem), s.Ready (.lem m) →
    let t : B64 := m.cst.getD 0
    let b : B64 := sub64 (mul64 (ceil64 (div64 (add64 t m.lead) m.grid)) m.grid) m.lead
    (m.looping = true → exec .lmStartLooping s = .next (s.executed (.lem m) [])) ∧
    (m.looping = false → finite64 b = true → (∀ l, m.q.getLast? = some l → lt64 b l.time = false) →
      m.q.length + 2 ≤ s.params.Q →
      exec .lmStartLooping s = .next (s.executed
        (.lem { m with looping := true, first := true, tli := t
                       q := m.q ++ [⟨b, ⟨.nextLoop, 0, 0⟩⟩, ⟨b, ⟨.fadeOutDry, 0, 0⟩⟩] }) [])) ∧
    (∀ l, m.looping = false → finite64 b = true → m.q.getLast? = some l → lt64 b l.time = true →
      exec .lmStartLooping s = .next (s.faultedBy .schedNonMonotonic 0x6 0x0 0)) ∧
    (m.looping = false → finite64 b = true → (∀ l, m.q.getLast? = some l → lt64 b l.time = false) →
      m.q.length = s.params.Q ∨ m.q.length + 1 = s.params.Q →
      exec .lmStartLooping s = .next (s.faultedBy .schedFull 0x6 0x0 0))

/-- R294: a stop while looping clears the queue and queues StopGrain and FadeInDry at the next boundary; while not looping it does
nothing. -/
def Obligations.LemStopLooping : Prop :=
  Encodes .lem 0x61000000#32 (fun _ _ _ => .lmStopLooping) ∧
  ∀ (s : State) (m : Lem), s.Ready (.lem m) →
    let b : B64 := sub64 (mul64 (ceil64 (div64 (add64 (m.cst.getD 0) m.lead) m.grid)) m.grid) m.lead
    (m.looping = false → exec .lmStopLooping s = .next (s.executed (.lem m) [])) ∧
    (m.looping = true → finite64 b = true → 2 ≤ s.params.Q →
      exec .lmStopLooping s = .next (s.executed
        (.lem { m with looping := false, first := false
                       q := [⟨b, ⟨.stopGrain, 0, 0⟩⟩, ⟨b, ⟨.fadeInDry, 0, 0⟩⟩] }) []))

/-- R295 to R298: a grid edit while not looping, or to the same grid, only stores it; before the first boundary it moves the start;
a shorter grid cuts the loop at the new boundary; a longer one bridges to it with a legato grain where the history is short and the
new boundary is the later one. A grid that is not finite and above zero is a BAD_PARAMETER. -/
def Obligations.LemGridEdits : Prop :=
  Encodes .lem 0x62000000#32 (fun a _ _ => .lmSetGridInterval a) ∧
  ∀ (s : State) (m : Lem) (new : B64), s.Ready (.lem m) → 2 ≤ s.params.Q →
    let t : B64 := m.cst.getD 0
    let bNew := ngb t new m.lead
    let bOld := ((m.q.find? fun e => e.payload.kind == .nextLoop).map Entry.time).getD (ngb t m.grid m.lead)
    (¬ (finite64 new = true ∧ lt64 zero64 new = true) →
      exec (.lmSetGridInterval new) s = .next (s.faultedBy .badParameter 0x6 0x2 0)) ∧
    (finite64 new = true → lt64 zero64 new = true →
      (m.looping = false ∨ eq64 new m.grid = true →
        exec (.lmSetGridInterval new) s = .next (s.executed (.lem { m with grid := new }) [])) ∧
      (m.looping = true → eq64 new m.grid = false → finite64 bNew = true →
        (m.first = true → exec (.lmSetGridInterval new) s = .next (s.executed
          (.lem { m with grid := new, q := [⟨bNew, ⟨.nextLoop, 0, 0⟩⟩, ⟨bNew, ⟨.fadeOutDry, 0, 0⟩⟩] }) [])) ∧
        (m.first = false → lt64 new m.grid = true → exec (.lmSetGridInterval new) s = .next (s.executed
          (.lem { m with grid := new, q := [⟨bNew, ⟨.stopGrain, 0, 0⟩⟩, ⟨bNew, ⟨.nextLoop, 0, 0⟩⟩] }) [])) ∧
        (m.first = false → lt64 new m.grid = false → finite64 bOld = true →
          lt64 (sub64 t m.tli) new = true → lt64 bOld bNew = true →
          exec (.lmSetGridInterval new) s = .next (s.executed
            (.lem { m with grid := new, q := [⟨bOld, ⟨.startLegatoGrain, sub64 bNew bOld, m.grid⟩⟩,
                                              ⟨bNew, ⟨.nextLoop, 0, 0⟩⟩] }) [])) ∧
        (m.first = false → lt64 new m.grid = false → ¬ (lt64 (sub64 t m.tli) new = true ∧ lt64 bOld bNew = true) →
          exec (.lmSetGridInterval new) s = .next (s.executed
            (.lem { m with grid := new, q := [⟨bNew, ⟨.nextLoop, 0, 0⟩⟩] }) []))))

/-- R292: a tick at a later time returns the due events in order. Without a NextLoop among them the queue keeps the rest; the one
NextLoop becomes the StartGrain of the grid, and the following NextLoop is queued one grid after the song time. -/
def Obligations.LemTickReturnsEvents : Prop :=
  Encodes .lem 0x63000000#32 (fun a _ _ => .lmTick a) ∧
  ∀ (s : State) (m : Lem) (st : B64) (due rest : EvQueue LoopEvent), s.Ready (.lem m) →
    (finite64 st = false → exec (.lmTick st) s = .next (s.faultedBy .badParameter 0x6 0x3 1)) ∧
    (∀ c, finite64 st = true → m.cst = some c → lt64 c st = false →
      exec (.lmTick st) s = .next (s.faultedBy .timeNotIncreasing 0x6 0x3 1)) ∧
    (finite64 st = true → (∀ c, m.cst = some c → lt64 c st = true) → m.q = due ++ rest →
      (∀ e ∈ due, le64 e.time st = true) → (∀ e ∈ rest, le64 e.time st = false) →
      let words : List LoopEvent → List Word64 := fun evs =>
        BitVec.ofNat 64 evs.length :: evs.flatMap fun e => [BitVec.ofNat 64 e.kind.code.toNat, e.dur, e.red]
      ((∀ e ∈ due, e.payload.kind ≠ .nextLoop) →
        exec (.lmTick st) s = .next
          (s.executed (.lem { m with cst := some st, q := rest }) (words (due.map Entry.payload)))) ∧
      (∀ (before after : EvQueue LoopEvent) (nl : Entry LoopEvent), due = before ++ nl :: after →
        nl.payload.kind = .nextLoop → (∀ e ∈ before ++ after, e.payload.kind ≠ .nextLoop) →
        finite64 (add64 st m.grid) = true → (∀ l, rest.getLast? = some l → lt64 (add64 st m.grid) l.time = false) →
        rest.length < s.params.Q →
        exec (.lmTick st) s = .next (s.executed
          (.lem { m with cst := some st, first := false, q := rest ++ [⟨add64 st m.grid, ⟨.nextLoop, 0, 0⟩⟩] })
          (words (before.map Entry.payload ++ ⟨.startGrain, m.grid, 0⟩ :: after.map Entry.payload)))))

/-- By R19 and R270, where R293, R294 and the table of R382 name no such fault (the model's inference, log entry 11): where the
arithmetic of a boundary overflows, so that the time to be scheduled is not finite, the command takes BAD_PARAMETER with no effect,
in a LEM of its own and inside the ENGINE. -/
def Obligations.NonFiniteBoundaryFaults : Prop :=
  (∀ (s : State) (m : Lem), s.Ready (.lem m) →
    let b := ngb (m.cst.getD 0) m.grid m.lead
    (m.looping = false → finite64 b = false → exec .lmStartLooping s = .next (s.faultedBy .badParameter 0x6 0x0 0)) ∧
    (m.looping = true → finite64 b = false → exec .lmStopLooping s = .next (s.faultedBy .badParameter 0x6 0x1 0)) ∧
    (∀ new, m.looping = true → finite64 new = true → lt64 zero64 new = true → eq64 new m.grid = false →
      finite64 (ngb (m.cst.getD 0) new m.lead) = false → 1 ≤ s.params.Q →
      exec (.lmSetGridInterval new) s = .next (s.faultedBy .badParameter 0x6 0x2 0)) ∧
    (∀ (st : B64) (nl : Entry LoopEvent) (rest : EvQueue LoopEvent), finite64 st = true →
      (∀ c, m.cst = some c → lt64 c st = true) → m.q = nl :: rest → le64 nl.time st = true → nl.payload.kind = .nextLoop →
      finite64 (add64 st m.grid) = false → exec (.lmTick st) s = .next (s.faultedBy .badParameter 0x6 0x3 1))) ∧
  (∀ (s : State) (e : Engine), s.Ready (.engine e) →
    let b := ngb (e.E.cst.getD 0) e.E.grid e.E.lead
    (e.E.looping = false → finite64 b = false → exec .eStartLooping s = .next (s.faultedBy .badParameter 0x0 0x8 0)) ∧
    (e.E.looping = true → finite64 b = false → exec .eStopLooping s = .next (s.faultedBy .badParameter 0x0 0x9 0)))

/-- R299: the fade lead-in is stored when it is finite and not below zero, and is a BAD_PARAMETER otherwise. -/
def Obligations.LemSetFadeInTime : Prop :=
  Encodes .lem 0x64000000#32 (fun a _ _ => .lmSetFadeInTime a) ∧
  ∀ (s : State) (m : Lem) (lead : B64), s.Ready (.lem m) →
    (finite64 lead = true → lt64 lead zero64 = false →
      exec (.lmSetFadeInTime lead) s = .next (s.executed (.lem { m with lead := lead }) [])) ∧
    (¬ (finite64 lead = true ∧ lt64 lead zero64 = false) →
      exec (.lmSetFadeInTime lead) s = .next (s.faultedBy .badParameter 0x6 0x4 0))

/-! ### ENGINE -/

/-- R337, R339 to R342: each setter writes its own register, the tempo also the offset while looping, and refuses an operand outside
its legal set. -/
def Obligations.EngineSettersWriteOneRegister : Prop :=
  Encodes .engine 0x02000000#32 (fun a _ _ => .eSetLoopOffset a) ∧
  Encodes .engine 0x04000000#32 (fun a _ _ => .eSetTempo a) ∧
  Encodes .engine 0x05000000#32 (fun a _ _ => .eSetSampleRate a) ∧
  Encodes .engine 0x06000000#32 (fun _ _ _ => .eSetReverse false) ∧
  Encodes .engine 0x06000001#32 (fun _ _ _ => .eSetReverse true) ∧
  Encodes .engine 0x07000000#32 (fun a _ _ => .eSetSpeed (lowWord a)) ∧
  ∀ (s : State) (e : Engine), s.Ready (.engine e) →
    (∀ x, finite64 x = true → exec (.eSetLoopOffset x) s = .next (s.executed (.engine { e with offset := x }) [])) ∧
    (∀ x, finite64 x = false → exec (.eSetLoopOffset x) s = .next (s.faultedBy .badParameter 0x0 0x2 0)) ∧
    (∀ x, finite64 x = true → lt64 zero64 x = true → exec (.eSetTempo x) s = .next (s.executed
      (.engine { e with tempo := x
                        offset := if e.E.looping then div64 (mul64 e.offset x) e.tempo else e.offset }) [])) ∧
    (∀ x, ¬ (finite64 x = true ∧ lt64 zero64 x = true) →
      exec (.eSetTempo x) s = .next (s.faultedBy .badParameter 0x0 0x4 0)) ∧
    (∀ x, finite64 x = true → lt64 zero64 x = true →
      exec (.eSetSampleRate x) s = .next (s.executed (.engine { e with sr := x }) [])) ∧
    (∀ x, ¬ (finite64 x = true ∧ lt64 zero64 x = true) →
      exec (.eSetSampleRate x) s = .next (s.faultedBy .badParameter 0x0 0x5 0)) ∧
    (∀ r, exec (.eSetReverse r) s = .next (s.executed (.engine { e with reverse := r }) [])) ∧
    (∀ x, finite32 x = true → exec (.eSetSpeed x) s = .next (s.executed (.engine { e with speed := x }) [])) ∧
    (∀ x, finite32 x = false → exec (.eSetSpeed x) s = .next (s.faultedBy .badParameter 0x0 0x7 0))

/-- R336, R338: E.SET_GRID and E.SET_FADE_TIME do to the LEM inside exactly what LM.SET_GRID_INTERVAL and LM.SET_FADE_IN_TIME do to a
LEM of its own, and fault as those do; while not looping a legal grid is only stored. -/
def Obligations.EngineGridAndFadeReachLem : Prop :=
  Encodes .engine 0x01000000#32 (fun a _ _ => .eSetGrid a) ∧
  Encodes .engine 0x03000000#32 (fun a _ _ => .eSetFadeTime a) ∧
  ∀ (s sl : State) (e : Engine) (x : B64), s.Ready (.engine e) → sl.Ready (.lem e.E) → sl.params = s.params →
    (∀ m, exec (.lmSetGridInterval x) sl = .next (sl.executed (.lem m) []) →
      exec (.eSetGrid x) s = .next (s.executed (.engine { e with E := m }) [])) ∧
    (∀ c, exec (.lmSetGridInterval x) sl = .next (sl.faultedBy c 0x6 0x2 0) →
      exec (.eSetGrid x) s = .next (s.faultedBy c 0x0 0x1 0)) ∧
    (finite64 x = true → lt64 zero64 x = true → e.E.looping = false →
      exec (.eSetGrid x) s = .next (s.executed (.engine { e with E := { e.E with grid := x } }) [])) ∧
    (finite64 x = true → lt64 x zero64 = false →
      exec (.eSetFadeTime x) s = .next (s.executed (.engine { e with E := { e.E with lead := x } }) [])) ∧
    (¬ (finite64 x = true ∧ lt64 x zero64 = false) →
      exec (.eSetFadeTime x) s = .next (s.faultedBy .badParameter 0x0 0x3 0))

/-- R343, R344: a start while not looping starts the LEM and then the pool, a stop while looping stops the LEM and then the pool's
copy; otherwise each does nothing, and on a fault neither part changes. -/
def Obligations.EngineLoopingControl : Prop :=
  Encodes .engine 0x08000000#32 (fun _ _ _ => .eStartLooping) ∧
  Encodes .engine 0x09000000#32 (fun _ _ _ => .eStopLooping) ∧
  ∀ (s : State) (e : Engine), s.Ready (.engine e) →
    let t : B64 := e.E.cst.getD 0
    let b : B64 := sub64 (mul64 (ceil64 (div64 (add64 t e.E.lead) e.E.grid)) e.E.grid) e.E.lead
    (e.E.looping = true → exec .eStartLooping s = .next (s.executed (.engine e) [])) ∧
    (e.E.looping = false → finite64 b = true → (∀ l, e.E.q.getLast? = some l → lt64 b l.time = false) →
      e.E.q.length + 2 ≤ s.params.Q →
      exec .eStartLooping s = .next (s.executed
        (.engine { e with
          P := { e.P with roff := 0, copy := 0, phase := .fillingStatic }
          E := { e.E with looping := true, first := true, tli := t
                          q := e.E.q ++ [⟨b, ⟨.nextLoop, 0, 0⟩⟩, ⟨b, ⟨.fadeOutDry, 0, 0⟩⟩] } }) [])) ∧
    (∀ l, e.E.looping = false → finite64 b = true → e.E.q.getLast? = some l → lt64 b l.time = true →
      exec .eStartLooping s = .next (s.faultedBy .schedNonMonotonic 0x0 0x8 0)) ∧
    (e.E.looping = false → finite64 b = true → (∀ l, e.E.q.getLast? = some l → lt64 b l.time = false) →
      e.E.q.length = s.params.Q ∨ e.E.q.length + 1 = s.params.Q →
      exec .eStartLooping s = .next (s.faultedBy .schedFull 0x0 0x8 0)) ∧
    (e.E.looping = false → exec .eStopLooping s = .next (s.executed (.engine e) [])) ∧
    (e.E.looping = true → finite64 b = true → 2 ≤ s.params.Q →
      exec .eStopLooping s = .next (s.executed
        (.engine { e with
          P := { e.P with phase := if e.P.phase = .fillingStatic then .notLooping else e.P.phase }
          E := { e.E with looping := false, first := false
                          q := [⟨b, ⟨.stopGrain, 0, 0⟩⟩, ⟨b, ⟨.fadeInDry, 0, 0⟩⟩] } }) []))

/-- R46, R346: every register of the map, its value as the map lays it out; it is read while faulted too, and nothing is written. A
reserved register is ILLEGAL_COMMAND, and while faulted a rejection. -/
def Obligations.EngineRegistersRead : Prop :=
  (∀ a b x : Word64, ∀ reg : BitVec 8,
    decode .engine ⟨BitVec.ofNat 32 (0x0B000000 + reg.toNat), a, b, x⟩ = .ok (.eReadReg reg)) ∧
  ∀ (s : State) (e : Engine), s.unit = .engine e → e.P.grain.length ≤ 256 →
    (∀ r ∈ ([
      (0x00, BitVec.ofNat 64
        ((if s.fault.valid then 1 else 0) + s.fault.cause.toNat * 2 ^ 8 + s.fault.unit.toNat * 2 ^ 16
          + s.fault.op.toNat * 2 ^ 20 + (if e.E.looping then 1 else 0) * 2 ^ 24
          + (match e.P.phase with | .notLooping => 0 | .fillingStatic => 1 | .usingStatic => 2) * 2 ^ 25
          + (if e.E.first then 1 else 0) * 2 ^ 27 + (if e.E.cst = none then 0 else 1) * 2 ^ 28
          + (if 0 < e.DRY.rem.toNat then 1 else 0) * 2 ^ 29)),
      (0x01, e.E.grid), (0x02, e.offset), (0x03, e.E.lead), (0x04, e.tempo), (0x05, e.sr),
      (0x06, BitVec.ofNat 64 e.speed.toNat), (0x07, if e.reverse then 1 else 0), (0x08, e.E.cst.getD 0), (0x09, e.E.tli),
      (0x0A, BitVec.ofNat 64 e.P.roff.toNat), (0x0B, BitVec.ofNat 64 e.P.copy.toNat),
      (0x0C, BitVec.ofNat 64 e.DRY.v.toNat), (0x0D, BitVec.ofNat 64 e.E.q.length),
      (0x0E, BitVec.ofNat 64
        ((e.P.grain.filter Grain.playing).length + (e.P.grain.filter Grain.waiting).length * 2 ^ 16
          + (e.P.grain.filter Grain.finished).length * 2 ^ 32)),
      (0x10, BitVec.ofNat 64 s.params.R), (0x11, BitVec.ofNat 64 s.params.L), (0x12, BitVec.ofNat 64 s.params.M),
      (0x13, BitVec.ofNat 64 s.params.G), (0x14, BitVec.ofNat 64 s.params.Q), (0x15, BitVec.ofNat 64 s.params.F),
      (0x16, BitVec.ofNat 64 s.params.C)] : List (Nat × Word64)),
      exec (.eReadReg (BitVec.ofNat 8 r.1)) s = .next { s with resp := some ⟨.ok, [r.2]⟩ }) ∧
    (∀ reg : BitVec 8, reg.toNat = 0x0F ∨ 0x17 ≤ reg.toNat →
      (s.fault.valid = false → exec (.eReadReg reg) s = .next (s.faultedBy .illegalCommand 0x0 0xB 1)) ∧
      (s.fault.valid = true → exec (.eReadReg reg) s = .next { s with resp := some ⟨.faulted, [0]⟩ }))

/-- R332, R333, R335, R414: a StartGrain, or a StartLegatoGrain with its offset reduction, within the limits puts on the pool a grain
of `n + f` ticks and a fade of `f`, made with the current reverse and speed; beyond them it raises the fault of the limit. -/
def Obligations.GrainRequestMakesGrain : Prop :=
  ∀ (prm : Params) (e : Engine) (legato : Bool) (dur red : B64),
    let ev : LoopEvent := ⟨if legato then .startLegatoGrain else .startGrain, dur, red⟩
    let spb := div64 (mul64 e.sr (f64 60)) e.tempo
    let y := mul64 dur spb
    let z := mul64 e.E.lead spb
    let o := to32 (mul64 (if legato then sub64 e.offset red else e.offset) spb)
    let n := (roundAway y).toNat
    let f := (roundAway z).toNat
    let g : Grain :=
      { wait := 0, dur := BitVec.ofNat 32 (n + f), el := 0, env := ⟨0, 0, 0, 0, 0⟩
        fade := BitVec.ofNat 32 (if n < f then (n + f) / 2 else f)
        pos := if e.reverse then sub32 o (f32 (n + f)) else sub32 o (f32 1)
        inc := if e.reverse then e.speed else neg32 e.speed }
    prm.L ≤ 2 ^ 24 → prm.F ≤ 2 ^ 24 →
    (finite64 y = true → 0 ≤ roundAway y → roundAway y ≤ prm.L → finite64 z = true → 0 ≤ roundAway z → roundAway z ≤ prm.F →
      finite32 o = true → finite32 e.speed = true →
      e.process prm ev = .ok { e with P := e.P.schedule g }) ∧
    (finite64 y = false ∨ roundAway y < 0 ∨ (prm.L : Int) < roundAway y → e.process prm ev = .error .loopTooLong) ∧
    (finite64 y = true → 0 ≤ roundAway y → roundAway y ≤ prm.L →
      finite64 z = false ∨ roundAway z < 0 ∨ (prm.F : Int) < roundAway z → e.process prm ev = .error .fadeTooLong) ∧
    (finite64 y = true → 0 ≤ roundAway y → roundAway y ≤ prm.L → finite64 z = true → 0 ≤ roundAway z → roundAway z ≤ prm.F →
      finite32 o = false → e.process prm ev = .error .badParameter)

/-- R335: StopGrain stops every grain of the pool; FadeOutDry and FadeInDry aim the dry ramp at 0.0 and at 1.0 over the fade in samples,
which need not be within `F` but must be a 32-bit count. -/
def Obligations.StopAndDryEvents : Prop :=
  ∀ (prm : Params) (e : Engine) (dur red : B64),
    let z := mul64 e.E.lead (div64 (mul64 e.sr (f64 60)) e.tempo)
    let steps : U33 := BitVec.ofNat 33 ((roundAway z).toNat + 1)
    e.process prm ⟨.stopGrain, dur, red⟩ = .ok { e with P := { e.P with grain := e.P.grain.map Grain.stop } } ∧
    (finite64 z = true → 0 ≤ roundAway z → roundAway z ≤ 2 ^ 32 - 1 →
      e.process prm ⟨.fadeOutDry, dur, red⟩ = .ok { e with DRY := ⟨e.DRY.v, e.DRY.v, 0x00000000, steps, steps⟩ } ∧
      e.process prm ⟨.fadeInDry, dur, red⟩ = .ok { e with DRY := ⟨e.DRY.v, e.DRY.v, 0x3F800000, steps, steps⟩ }) ∧
    (finite64 z = false ∨ roundAway z < 0 ∨ 2 ^ 32 - 1 < roundAway z →
      e.process prm ⟨.fadeOutDry, dur, red⟩ = .error .fadeTooLong ∧ e.process prm ⟨.fadeInDry, dur, red⟩ = .error .fadeTooLong)

/-- R334, R335: E.TICK runs the LEM's tick, then the events in order, then the pool's tick, then the dry ramp's, and answers the wet
sample plus the input at the dry level; the fault of the first part that raises one is the command's, with no effect. -/
def Obligations.EngineTickRunsItsParts : Prop :=
  Encodes .engine 0x00000000#32 (fun a b _ => .eTick a b) ∧
  ∀ (s : State) (e : Engine) (time : B64) (input : Word64), s.Ready (.engine e) →
    let x := smp s.params.C input
    (∀ c, e.E.tick s.params.Q time = .error c → exec (.eTick time input) s = .next (s.faultedBy c 0x0 0x0 1)) ∧
    (∀ (m : Lem) (evs : List LoopEvent), e.E.tick s.params.Q time = .ok (m, evs) →
      let process : Except Cause Engine → LoopEvent → Except Cause Engine := fun r ev => r.bind (Engine.process s.params · ev)
      (∀ c, evs.foldl process (.ok { e with E := m }) = .error c →
        exec (.eTick time input) s = .next (s.faultedBy c 0x0 0x0 1)) ∧
      (∀ e' : Engine, evs.foldl process (.ok { e with E := m }) = .ok e' →
        (∀ c, e'.P.tick s.params x = .error c → exec (.eTick time input) s = .next (s.faultedBy c 0x0 0x0 1)) ∧
        (∀ (p : Pool) (wet : Sample), e'.P.tick s.params x = .ok (p, wet) →
          exec (.eTick time input) s = .next (s.executed
            (.engine { e' with P := p, DRY := e'.DRY.tick })
            [sampleWord (Sample.add wet (Sample.scale x e'.DRY.tick.v))]))))

/-- R334 on a tick at which no event is due and every playing grain reads in range: the command completes; the beat time is
accepted, the pool does what GP.TICK does to a pool of its own, the dry ramp takes one step, and nothing else changes. -/
def Obligations.EngineQuietTickCompletes : Prop :=
  ∀ (s sp : State) (e : Engine) (time : B64) (input : Word64),
    s.Ready (.engine e) → s.params.validPool → e.P.Wf s.params → e.P.Readable s.params →
    finite64 time = true → (∀ c, e.E.cst = some c → lt64 c time = true) → (∀ x ∈ e.E.q, le64 x.time time = false) →
    sp.Ready (.pool e.P) → sp.params = s.params →
    ∃ (p : Pool) (wet : Sample),
      exec (.gpTick input) sp = .next (sp.executed (.pool p) [sampleWord wet]) ∧
      exec (.eTick time input) s = .next (s.executed
        (.engine { e with P := p, E := { e.E with cst := some time }, DRY := e.DRY.tick })
        [sampleWord (Sample.add wet (Sample.scale (smp s.params.C input) e.DRY.tick.v))])

/-- R347: with no event pending, no grain in use and the dry level at 1.0, ticks at strictly increasing times return their inputs
unchanged: every finite lane comes out as it went in, but -0.0 as +0.0. -/
def Obligations.PassthroughReturnsInput : Prop :=
  ∀ (s : State) (e : Engine) (ins : List (B64 × Word64)) (time : B64) (input : Word64) (rest : List PortInput),
    s.Ready (.engine e) → s.params.validPool → e.P.Wf s.params →
    e.E.q = [] → (∀ g ∈ e.P.grain, g.finished = true) → e.DRY.rem = 0 → e.DRY.t = 0x3F800000 →
    (∀ p ∈ ins ++ [(time, input)], finite64 p.1 = true ∧ ∀ c, e.E.cst = some c → lt64 c p.1 = true) →
    List.Pairwise (fun a b : B64 × Word64 => lt64 a.1 b.1 = true) (ins ++ [(time, input)]) →
    (∀ l ∈ smp s.params.C input, finite32 l = true) →
    s.port = presenting ((ins ++ [(time, input)]).map fun p => .eTick p.1 p.2) ++ rest →
    ∃ t : State, Sys2Proof.core.run (ins.length + 1) s = .next t ∧ t.fault = s.fault ∧
      t.resp = some ⟨.ok, [sampleWord ((smp s.params.C input).map fun l => if l = 0x80000000 then 0 else l)]⟩

/-! ### Faults of every command -/

/-- R382 with R381: a command of a sound machine raises only the causes of its row. FADE_EXCEEDS_DURATION is unreachable in the ENGINE,
and in a grid edit so are the two faults of a queue. One exception: the boundary of a start or a stop that is not finite, a
BAD_PARAMETER by R19 and R270 where the row does not name it (the model's inference, log entry 11). -/
def Obligations.CausesPerCommand : Prop :=
  ∀ (s t : State) (i : Instr), s.Inv → s.kind = i.kind → s.fault.valid = false → exec i s = .next t → t.fault.valid = true →
    t.fault.cause.toNat ∈
      (match i with
      | .eTick _ _ => [2, 3, 4, 5, 7, 8, 9]
      | .eSetGrid _ | .eSetLoopOffset _ | .eSetFadeTime _ | .eSetTempo _ | .eSetSampleRate _ | .eSetSpeed _ => [8]
      | .eStartLooping => [3, 4]
      | .eSetReverse _ | .eStopLooping | .eReset => []
      | .eReadReg _ => [1]
      | .cbRead _ | .cbReadInterp _ => [2]
      | .cbTick _ | .cbReset | .rvSet _ | .rvRamp _ _ | .rvTick => []
      | .grNew _ _ _ _ _ _ | .gpSchedule _ _ _ _ _ _ => [8, 6]
      | .grTick | .grStop | .grIsFinished | .grIsWaiting | .grIsPlaying | .grIsFadingIn | .grIsFadingOut => []
      | .gpTick _ => [2]
      | .gpStartLooping | .gpStopLooping | .gpStopAll | .gpCountPlaying | .gpCountWaiting | .gpCountFinished | .gpMostRecent
      | .gpReset => []
      | .esSchedule _ _ => [8, 3, 4]
      | .esTick _ => [8]
      | .esClear => []
      | .lmStartLooping => [3, 4]
      | .lmTick _ => [8, 5, 4, 3]
      | .lmSetGridInterval _ | .lmSetFadeInTime _ => [8]
      | .lmStopLooping | .lmReset => [] : List Nat) ∨
    (t.fault.cause.toNat = 8 ∧
      (i = .lmStartLooping ∨ i = .lmStopLooping ∨ i = .eStartLooping ∨ i = .eStopLooping) ∧
      ∃ m : Lem, (s.unit = .lem m ∨ ∃ e : Engine, s.unit = .engine e ∧ e.E = m) ∧
        finite64 (ngb (m.cst.getD 0) m.grid m.lead) = false)
end

