-- ==== Sys2Proof/Laws/State.lean ====
section
/-! SUPPORT. What each update of a record leaves in each field, one lemma per field, so that no later proof unfolds an update. -/

namespace Sys2Proof.Machine

/-! `State.respond`. -/

@[simp] theorem State.respond_params (s : State) (st : Status) (res : List Word64) :
    (s.respond st res).params = s.params := rfl
@[simp] theorem State.respond_fault (s : State) (st : Status) (res : List Word64) :
    (s.respond st res).fault = s.fault := rfl
@[simp] theorem State.respond_unit (s : State) (st : Status) (res : List Word64) :
    (s.respond st res).unit = s.unit := rfl
@[simp] theorem State.respond_port (s : State) (st : Status) (res : List Word64) :
    (s.respond st res).port = s.port := rfl
@[simp] theorem State.respond_resp (s : State) (st : Status) (res : List Word64) :
    (s.respond st res).resp = some ⟨st, res⟩ := rfl
@[simp] theorem State.respond_kind (s : State) (st : Status) (res : List Word64) :
    (s.respond st res).kind = s.kind := rfl

/-! `State.takeFault` (R384). -/

@[simp] theorem State.takeFault_params (s : State) (c : Cause) (unit op : BitVec 4) (n : Nat) :
    (s.takeFault c unit op n).params = s.params := rfl
@[simp] theorem State.takeFault_fault (s : State) (c : Cause) (unit op : BitVec 4) (n : Nat) :
    (s.takeFault c unit op n).fault = ⟨true, c.code, unit, op⟩ := rfl
@[simp] theorem State.takeFault_unit (s : State) (c : Cause) (unit op : BitVec 4) (n : Nat) :
    (s.takeFault c unit op n).unit = s.unit := rfl
@[simp] theorem State.takeFault_port (s : State) (c : Cause) (unit op : BitVec 4) (n : Nat) :
    (s.takeFault c unit op n).port = s.port := rfl
@[simp] theorem State.takeFault_resp (s : State) (c : Cause) (unit op : BitVec 4) (n : Nat) :
    (s.takeFault c unit op n).resp = some ⟨.fault, zeroResults n⟩ := rfl
@[simp] theorem State.takeFault_kind (s : State) (c : Cause) (unit op : BitVec 4) (n : Nat) :
    (s.takeFault c unit op n).kind = s.kind := rfl

/-! `State.reject` (R385). -/

@[simp] theorem State.reject_params (s : State) (n : Nat) :
    (s.reject n).params = s.params := rfl
@[simp] theorem State.reject_fault (s : State) (n : Nat) :
    (s.reject n).fault = s.fault := rfl
@[simp] theorem State.reject_unit (s : State) (n : Nat) :
    (s.reject n).unit = s.unit := rfl
@[simp] theorem State.reject_port (s : State) (n : Nat) :
    (s.reject n).port = s.port := rfl
@[simp] theorem State.reject_resp (s : State) (n : Nat) :
    (s.reject n).resp = some ⟨.faulted, zeroResults n⟩ := rfl
@[simp] theorem State.reject_kind (s : State) (n : Nat) :
    (s.reject n).kind = s.kind := rfl

/-! `State.executed`. -/

@[simp] theorem State.executed_params (s : State) (u : UnitState) (res : List Word64) :
    (s.executed u res).params = s.params := rfl
@[simp] theorem State.executed_fault (s : State) (u : UnitState) (res : List Word64) :
    (s.executed u res).fault = s.fault := rfl
@[simp] theorem State.executed_unit (s : State) (u : UnitState) (res : List Word64) :
    (s.executed u res).unit = u := rfl
@[simp] theorem State.executed_port (s : State) (u : UnitState) (res : List Word64) :
    (s.executed u res).port = s.port := rfl
@[simp] theorem State.executed_resp (s : State) (u : UnitState) (res : List Word64) :
    (s.executed u res).resp = some ⟨.ok, res⟩ := rfl
@[simp] theorem State.executed_kind (s : State) (u : UnitState) (res : List Word64) :
    (s.executed u res).kind = u.kind := rfl

/-! `State.hardwareReset` (R410). -/

@[simp] theorem State.hardwareReset_params (s : State) :
    (s.hardwareReset).params = s.params := rfl
@[simp] theorem State.hardwareReset_fault (s : State) :
    (s.hardwareReset).fault = powerOnFault := rfl
@[simp] theorem State.hardwareReset_unit (s : State) :
    (s.hardwareReset).unit = powerOnUnit s.params s.kind := rfl
@[simp] theorem State.hardwareReset_port (s : State) :
    (s.hardwareReset).port = s.port := rfl
@[simp] theorem State.hardwareReset_resp (s : State) :
    (s.hardwareReset).resp = none := rfl

/-! `State.powerOn` (R49). -/

@[simp] theorem State.powerOn_params (p : Params) (k : Kind) :
    (State.powerOn p k).params = p := rfl
@[simp] theorem State.powerOn_fault (p : Params) (k : Kind) :
    (State.powerOn p k).fault = powerOnFault := rfl
@[simp] theorem State.powerOn_unit (p : Params) (k : Kind) :
    (State.powerOn p k).unit = powerOnUnit p k := rfl
@[simp] theorem State.powerOn_port (p : Params) (k : Kind) :
    (State.powerOn p k).port = [] := rfl
@[simp] theorem State.powerOn_resp (p : Params) (k : Kind) :
    (State.powerOn p k).resp = none := rfl

/-- `State.faultedBy` is the fault entry of Ops.lean, written out. -/
theorem State.takeFault_eq_faultedBy (s : State) (c : Cause) (unit op : BitVec 4) (n : Nat) :
    s.takeFault c unit op n = s.faultedBy c unit op n := rfl

/-! The configuration of a unit state, and the selectors. -/

@[simp] theorem UnitState.kind_engine {x} : (UnitState.engine x).kind = .engine := rfl
@[simp] theorem UnitState.kind_cbuf {x} : (UnitState.cbuf x).kind = .cbuf := rfl
@[simp] theorem UnitState.kind_ramp {x} : (UnitState.ramp x).kind = .ramp := rfl
@[simp] theorem UnitState.kind_grain {x} : (UnitState.grain x).kind = .grain := rfl
@[simp] theorem UnitState.kind_pool {x} : (UnitState.pool x).kind = .pool := rfl
@[simp] theorem UnitState.kind_evsched {x} : (UnitState.evsched x).kind = .evsched := rfl
@[simp] theorem UnitState.kind_lem {x} : (UnitState.lem x).kind = .lem := rfl
@[simp] theorem UnitState.engine?_engine {x} : (UnitState.engine x).engine? = some x := rfl
@[simp] theorem UnitState.cbuf?_cbuf {x} : (UnitState.cbuf x).cbuf? = some x := rfl
@[simp] theorem UnitState.ramp?_ramp {x} : (UnitState.ramp x).ramp? = some x := rfl
@[simp] theorem UnitState.grain?_grain {x} : (UnitState.grain x).grain? = some x := rfl
@[simp] theorem UnitState.pool?_pool {x} : (UnitState.pool x).pool? = some x := rfl
@[simp] theorem UnitState.evsched?_evsched {x} : (UnitState.evsched x).evsched? = some x := rfl
@[simp] theorem UnitState.lem?_lem {x} : (UnitState.lem x).lem? = some x := rfl

@[simp] theorem powerOnUnit_kind (p : Params) (k : Kind) : (powerOnUnit p k).kind = k := by cases k <;> rfl
@[simp] theorem State.powerOn_kind (p : Params) (k : Kind) : (State.powerOn p k).kind = k := powerOnUnit_kind p k
@[simp] theorem State.hardwareReset_kind (s : State) : s.hardwareReset.kind = s.kind := powerOnUnit_kind s.params s.kind
@[simp] theorem State.configuredAs_params (s : State) (k : Kind) : (s.configuredAs k).params = s.params := by
  unfold State.configuredAs; split <;> rfl
@[simp] theorem State.configuredAs_fault (s : State) (k : Kind) : (s.configuredAs k).fault = s.fault := by
  unfold State.configuredAs; split <;> rfl
@[simp] theorem State.configuredAs_kind (s : State) (k : Kind) : (s.configuredAs k).kind = k := by
  unfold State.configuredAs; split
  · assumption
  · exact powerOnUnit_kind s.params k

/-! `Ramp.set` (R171), `Ramp.ramp` (R172). -/

@[simp] theorem Ramp.set_v (r : Ramp) (v : B32) :
    (r.set v).v = v := rfl
@[simp] theorem Ramp.set_s (r : Ramp) (v : B32) :
    (r.set v).s = v := rfl
@[simp] theorem Ramp.set_t (r : Ramp) (v : B32) :
    (r.set v).t = v := rfl
@[simp] theorem Ramp.set_rem (r : Ramp) (v : B32) :
    (r.set v).rem = 0 := rfl
@[simp] theorem Ramp.set_tot (r : Ramp) (v : B32) :
    (r.set v).tot = 0 := rfl

/-! `Ramp.ramp`. -/

@[simp] theorem Ramp.ramp_v (r : Ramp) (x : B32) (n : U32) :
    (r.ramp x n).v = r.v := rfl
@[simp] theorem Ramp.ramp_s (r : Ramp) (x : B32) (n : U32) :
    (r.ramp x n).s = r.v := rfl
@[simp] theorem Ramp.ramp_t (r : Ramp) (x : B32) (n : U32) :
    (r.ramp x n).t = x := rfl
@[simp] theorem Ramp.ramp_rem (r : Ramp) (x : B32) (n : U32) :
    (r.ramp x n).rem = BitVec.setWidth 33 n + 1 := rfl
@[simp] theorem Ramp.ramp_tot (r : Ramp) (x : B32) (n : U32) :
    (r.ramp x n).tot = BitVec.setWidth 33 n + 1 := rfl

/-! `CBuf.tick` (R151). -/

@[simp] theorem CBuf.tick_w (n c : Nat) (b : CBuf) (v : Sample) :
    (b.tick n c v).w = (b.w + 1) % n := rfl
@[simp] theorem CBuf.tick_cells (n c : Nat) (b : CBuf) (v : Sample) :
    (b.tick n c v).cells = cellsSet (zeroSample c) b.w v b.cells := rfl

/-! The pool operations. -/

@[simp] theorem Pool.startLooping_grain (p : Pool) :
    (p.startLooping).grain = p.grain := rfl
@[simp] theorem Pool.startLooping_ROLL (p : Pool) :
    (p.startLooping).ROLL = p.ROLL := rfl
@[simp] theorem Pool.startLooping_STAT (p : Pool) :
    (p.startLooping).STAT = p.STAT := rfl
@[simp] theorem Pool.startLooping_roff (p : Pool) :
    (p.startLooping).roff = 0 := rfl
@[simp] theorem Pool.startLooping_copy (p : Pool) :
    (p.startLooping).copy = 0 := rfl
@[simp] theorem Pool.startLooping_phase (p : Pool) :
    (p.startLooping).phase = .fillingStatic := rfl

/-! `Pool.stopLooping` (R234). -/

@[simp] theorem Pool.stopLooping_grain (p : Pool) :
    (p.stopLooping).grain = p.grain := rfl
@[simp] theorem Pool.stopLooping_ROLL (p : Pool) :
    (p.stopLooping).ROLL = p.ROLL := rfl
@[simp] theorem Pool.stopLooping_STAT (p : Pool) :
    (p.stopLooping).STAT = p.STAT := rfl
@[simp] theorem Pool.stopLooping_roff (p : Pool) :
    (p.stopLooping).roff = p.roff := rfl
@[simp] theorem Pool.stopLooping_copy (p : Pool) :
    (p.stopLooping).copy = p.copy := rfl

/-! `Pool.schedule` (R231). -/

@[simp] theorem Pool.schedule_grain (p : Pool) (g : Grain) :
    (p.schedule g).grain = installGrain g p.grain := rfl
@[simp] theorem Pool.schedule_ROLL (p : Pool) (g : Grain) :
    (p.schedule g).ROLL = p.ROLL := rfl
@[simp] theorem Pool.schedule_STAT (p : Pool) (g : Grain) :
    (p.schedule g).STAT = p.STAT := rfl
@[simp] theorem Pool.schedule_roff (p : Pool) (g : Grain) :
    (p.schedule g).roff = p.roff := rfl
@[simp] theorem Pool.schedule_copy (p : Pool) (g : Grain) :
    (p.schedule g).copy = p.copy := rfl
@[simp] theorem Pool.schedule_phase (p : Pool) (g : Grain) :
    (p.schedule g).phase = p.phase := rfl

/-! `Pool.stopAll` (R240). -/

@[simp] theorem Pool.stopAll_grain (p : Pool) :
    (p.stopAll).grain = p.grain.map Grain.stop := rfl
@[simp] theorem Pool.stopAll_ROLL (p : Pool) :
    (p.stopAll).ROLL = p.ROLL := rfl
@[simp] theorem Pool.stopAll_STAT (p : Pool) :
    (p.stopAll).STAT = p.STAT := rfl
@[simp] theorem Pool.stopAll_roff (p : Pool) :
    (p.stopAll).roff = p.roff := rfl
@[simp] theorem Pool.stopAll_copy (p : Pool) :
    (p.stopAll).copy = p.copy := rfl
@[simp] theorem Pool.stopAll_phase (p : Pool) :
    (p.stopAll).phase = p.phase := rfl

/-! `Pool.takeInput` (R235). -/

@[simp] theorem Pool.takeInput_grain (prm : Params) (p : Pool) (x : Sample) :
    (p.takeInput prm x).grain = p.grain := rfl
@[simp] theorem Pool.takeInput_ROLL (prm : Params) (p : Pool) (x : Sample) :
    (p.takeInput prm x).ROLL = p.ROLL.tick prm.R prm.C x := rfl
@[simp] theorem Pool.takeInput_STAT (prm : Params) (p : Pool) (x : Sample) :
    (p.takeInput prm x).STAT = p.STAT := rfl
@[simp] theorem Pool.takeInput_roff (prm : Params) (p : Pool) (x : Sample) :
    (p.takeInput prm x).roff = saturatingSucc p.roff := rfl
@[simp] theorem Pool.takeInput_copy (prm : Params) (p : Pool) (x : Sample) :
    (p.takeInput prm x).copy = p.copy := rfl
@[simp] theorem Pool.takeInput_phase (prm : Params) (p : Pool) (x : Sample) :
    (p.takeInput prm x).phase = p.phase := rfl

/-! `Lem.reset` (R300). -/

@[simp] theorem Lem.reset_q (m : Lem) :
    (m.reset).q = [] := rfl
@[simp] theorem Lem.reset_grid (m : Lem) :
    (m.reset).grid = m.grid := rfl
@[simp] theorem Lem.reset_lead (m : Lem) :
    (m.reset).lead = m.lead := rfl
@[simp] theorem Lem.reset_cst (m : Lem) :
    (m.reset).cst = none := rfl
@[simp] theorem Lem.reset_looping (m : Lem) :
    (m.reset).looping = false := rfl
@[simp] theorem Lem.reset_tli (m : Lem) :
    (m.reset).tli = zero64 := rfl
@[simp] theorem Lem.reset_first (m : Lem) :
    (m.reset).first = false := rfl

/-! `Engine.reset` (R345). -/

@[simp] theorem Engine.reset_P (prm : Params) (e : Engine) :
    (e.reset prm).P = powerOnPool prm.G := rfl
@[simp] theorem Engine.reset_E (prm : Params) (e : Engine) :
    (e.reset prm).E = e.E.reset := rfl
@[simp] theorem Engine.reset_DRY (prm : Params) (e : Engine) :
    (e.reset prm).DRY = steadyRamp one32 := rfl
@[simp] theorem Engine.reset_offset (prm : Params) (e : Engine) :
    (e.reset prm).offset = e.offset := rfl
@[simp] theorem Engine.reset_tempo (prm : Params) (e : Engine) :
    (e.reset prm).tempo = e.tempo := rfl
@[simp] theorem Engine.reset_sr (prm : Params) (e : Engine) :
    (e.reset prm).sr = e.sr := rfl
@[simp] theorem Engine.reset_speed (prm : Params) (e : Engine) :
    (e.reset prm).speed = e.speed := rfl
@[simp] theorem Engine.reset_reverse (prm : Params) (e : Engine) :
    (e.reset prm).reverse = e.reverse := rfl

end Sys2Proof.Machine
end

