-- ==== Sys2Proof/Laws/Command.lean ====
section
/-! SUPPORT. What the frame of every command can do (spec/60_exceptions.md R383 to R386), said once. -/

namespace Sys2Proof.Machine

/-- A row of the opcode map has at most one result word. -/
theorem OpRow.zeroWords_le_one : ∀ r ∈ opTable, r.zeroWords ≤ 1 := by
  simp [opTable]

/-- An illegal word returns at most one zero word. -/
theorem illegalZeroWords_le_one (k : Kind) (cw : CmdWord) (unit op : BitVec 4) : illegalZeroWords k cw unit op ≤ 1 := by
  unfold illegalZeroWords
  split
  · omega
  · rename_i r h
    have hr := OpRow.zeroWords_le_one r (List.mem_of_find?_eq_some h)
    split
    · omega
    · split <;> omega

/-- An illegal word is rejected while faulted and takes ILLEGAL_COMMAND otherwise; it changes nothing else (R117, R383). -/
theorem State.illegalWord_cases (s : State) (cw : CmdWord) (unit op : BitVec 4) :
    ∃ zeros ≤ 1, (s.fault.valid = true ∧ s.illegalWord cw unit op = s.reject zeros) ∨
      (s.fault.valid = false ∧ s.illegalWord cw unit op = s.faultedBy .illegalCommand unit op zeros) := by
  refine ⟨_, illegalZeroWords_le_one s.kind cw unit op, ?_⟩
  unfold State.illegalWord
  cases h : s.fault.valid
  · exact .inr ⟨rfl, by simp [State.takeFault_eq_faultedBy]⟩
  · exact .inl ⟨rfl, by simp⟩

/-- A command of this configuration, not faulted, does what its body does: its results and its new unit, or its fault. -/
theorem State.command_ready {α : Type} {s : State} {i : Instr} {sel : UnitState → Option α} {put : α → UnitState}
    {body : α → Except Cause (α × List Word64)} {a : α} (hsel : sel s.unit = some a) (hv : s.fault.valid = false) :
    s.command i sel put body =
      match body a with
      | .ok (a', res) => s.executed (put a') res
      | .error cause => s.faultedBy cause i.kind.code i.op i.zeroWords := by
  unfold State.command State.complete
  rw [hsel]
  simp only [hv, Bool.false_eq_true, if_false]
  cases body a with
  | ok p => rfl
  | error c => rfl

/-- A command of this configuration is rejected while the machine is faulted (R385). -/
theorem State.command_faulted {α : Type} {s : State} {i : Instr} {sel : UnitState → Option α} {put : α → UnitState}
    {body : α → Except Cause (α × List Word64)} {a : α} (hsel : sel s.unit = some a) (hv : s.fault.valid = true) :
    s.command i sel put body = s.reject i.zeroWords := by
  unfold State.command
  rw [hsel]
  simp [hv]

/-- A command of another configuration is an illegal word (R113, R117). -/
theorem State.command_other {α : Type} {s : State} {i : Instr} {sel : UnitState → Option α} {put : α → UnitState}
    {body : α → Except Cause (α × List Word64)} (hsel : sel s.unit = none) :
    s.command i sel put body = s.illegalWord i.cw i.kind.code i.op := by
  unfold State.command
  rw [hsel]

/-- EVERYTHING A COMMAND CAN DO: be an illegal word in another configuration, be rejected while faulted, execute, or fault. -/
theorem State.command_cases {α : Type} (s : State) (i : Instr) (sel : UnitState → Option α) (put : α → UnitState)
    (body : α → Except Cause (α × List Word64)) :
    (sel s.unit = none ∧ s.command i sel put body = s.illegalWord i.cw i.kind.code i.op) ∨
    (∃ a, sel s.unit = some a ∧ s.fault.valid = true ∧ s.command i sel put body = s.reject i.zeroWords) ∨
    (∃ a a' res, sel s.unit = some a ∧ s.fault.valid = false ∧ body a = .ok (a', res) ∧
      s.command i sel put body = s.executed (put a') res) ∨
    (∃ a cause, sel s.unit = some a ∧ s.fault.valid = false ∧ body a = .error cause ∧
      s.command i sel put body = s.faultedBy cause i.kind.code i.op i.zeroWords) := by
  cases hsel : sel s.unit with
  | none => exact .inl ⟨rfl, State.command_other hsel⟩
  | some a =>
    cases hv : s.fault.valid with
    | true => exact .inr (.inl ⟨a, rfl, rfl, State.command_faulted hsel hv⟩)
    | false =>
      have h := State.command_ready (i := i) (put := put) (body := body) hsel hv
      cases hb : body a with
      | ok p => rw [hb] at h; exact .inr (.inr (.inl ⟨a, p.1, p.2, rfl, rfl, hb, h⟩))
      | error c => rw [hb] at h; exact .inr (.inr (.inr ⟨a, c, rfl, rfl, hb, h⟩))

/-! A unit's selector answers exactly on its own states. -/

theorem UnitState.engine?_eq_some {u : UnitState} {x : Engine} : u.engine? = some x ↔ u = .engine x := by
  cases u <;> simp [UnitState.engine?]

theorem UnitState.engine?_eq_none {u : UnitState} : u.engine? = none ↔ u.kind ≠ .engine := by
  cases u <;> simp [UnitState.engine?]

theorem UnitState.cbuf?_eq_some {u : UnitState} {x : CBuf} : u.cbuf? = some x ↔ u = .cbuf x := by
  cases u <;> simp [UnitState.cbuf?]

theorem UnitState.cbuf?_eq_none {u : UnitState} : u.cbuf? = none ↔ u.kind ≠ .cbuf := by
  cases u <;> simp [UnitState.cbuf?]

theorem UnitState.ramp?_eq_some {u : UnitState} {x : Ramp} : u.ramp? = some x ↔ u = .ramp x := by
  cases u <;> simp [UnitState.ramp?]

theorem UnitState.ramp?_eq_none {u : UnitState} : u.ramp? = none ↔ u.kind ≠ .ramp := by
  cases u <;> simp [UnitState.ramp?]

theorem UnitState.grain?_eq_some {u : UnitState} {x : Grain} : u.grain? = some x ↔ u = .grain x := by
  cases u <;> simp [UnitState.grain?]

theorem UnitState.grain?_eq_none {u : UnitState} : u.grain? = none ↔ u.kind ≠ .grain := by
  cases u <;> simp [UnitState.grain?]

theorem UnitState.pool?_eq_some {u : UnitState} {x : Pool} : u.pool? = some x ↔ u = .pool x := by
  cases u <;> simp [UnitState.pool?]

theorem UnitState.pool?_eq_none {u : UnitState} : u.pool? = none ↔ u.kind ≠ .pool := by
  cases u <;> simp [UnitState.pool?]

theorem UnitState.evsched?_eq_some {u : UnitState} {x : EvQueue Word64} : u.evsched? = some x ↔ u = .evsched x := by
  cases u <;> simp [UnitState.evsched?]

theorem UnitState.evsched?_eq_none {u : UnitState} : u.evsched? = none ↔ u.kind ≠ .evsched := by
  cases u <;> simp [UnitState.evsched?]

theorem UnitState.lem?_eq_some {u : UnitState} {x : Lem} : u.lem? = some x ↔ u = .lem x := by
  cases u <;> simp [UnitState.lem?]

theorem UnitState.lem?_eq_none {u : UnitState} : u.lem? = none ↔ u.kind ≠ .lem := by
  cases u <;> simp [UnitState.lem?]

/-! A command of a unit, in a machine that is ready for it. -/

theorem State.onEngine_ready {s : State} {i : Instr} {x : Engine} {body : Engine → Except Cause (Engine × List Word64)}
    (h : s.Ready (.engine x)) :
    s.onEngine i body = .next
      (match body x with
      | .ok (x', res) => s.executed (.engine x') res
      | .error cause => s.faultedBy cause i.kind.code i.op i.zeroWords) := by
  unfold State.onEngine
  rw [State.command_ready (UnitState.engine?_eq_some.2 h.1) h.2]
  cases body x <;> rfl

theorem State.onCBuf_ready {s : State} {i : Instr} {x : CBuf} {body : CBuf → Except Cause (CBuf × List Word64)}
    (h : s.Ready (.cbuf x)) :
    s.onCBuf i body = .next
      (match body x with
      | .ok (x', res) => s.executed (.cbuf x') res
      | .error cause => s.faultedBy cause i.kind.code i.op i.zeroWords) := by
  unfold State.onCBuf
  rw [State.command_ready (UnitState.cbuf?_eq_some.2 h.1) h.2]
  cases body x <;> rfl

theorem State.onRamp_ready {s : State} {i : Instr} {x : Ramp} {body : Ramp → Except Cause (Ramp × List Word64)}
    (h : s.Ready (.ramp x)) :
    s.onRamp i body = .next
      (match body x with
      | .ok (x', res) => s.executed (.ramp x') res
      | .error cause => s.faultedBy cause i.kind.code i.op i.zeroWords) := by
  unfold State.onRamp
  rw [State.command_ready (UnitState.ramp?_eq_some.2 h.1) h.2]
  cases body x <;> rfl

theorem State.onGrain_ready {s : State} {i : Instr} {x : Grain} {body : Grain → Except Cause (Grain × List Word64)}
    (h : s.Ready (.grain x)) :
    s.onGrain i body = .next
      (match body x with
      | .ok (x', res) => s.executed (.grain x') res
      | .error cause => s.faultedBy cause i.kind.code i.op i.zeroWords) := by
  unfold State.onGrain
  rw [State.command_ready (UnitState.grain?_eq_some.2 h.1) h.2]
  cases body x <;> rfl

theorem State.onPool_ready {s : State} {i : Instr} {x : Pool} {body : Pool → Except Cause (Pool × List Word64)}
    (h : s.Ready (.pool x)) :
    s.onPool i body = .next
      (match body x with
      | .ok (x', res) => s.executed (.pool x') res
      | .error cause => s.faultedBy cause i.kind.code i.op i.zeroWords) := by
  unfold State.onPool
  rw [State.command_ready (UnitState.pool?_eq_some.2 h.1) h.2]
  cases body x <;> rfl

theorem State.onEvsched_ready {s : State} {i : Instr} {x : EvQueue Word64} {body : EvQueue Word64 → Except Cause (EvQueue Word64 × List Word64)}
    (h : s.Ready (.evsched x)) :
    s.onEvsched i body = .next
      (match body x with
      | .ok (x', res) => s.executed (.evsched x') res
      | .error cause => s.faultedBy cause i.kind.code i.op i.zeroWords) := by
  unfold State.onEvsched
  rw [State.command_ready (UnitState.evsched?_eq_some.2 h.1) h.2]
  cases body x <;> rfl

theorem State.onLem_ready {s : State} {i : Instr} {x : Lem} {body : Lem → Except Cause (Lem × List Word64)}
    (h : s.Ready (.lem x)) :
    s.onLem i body = .next
      (match body x with
      | .ok (x', res) => s.executed (.lem x') res
      | .error cause => s.faultedBy cause i.kind.code i.op i.zeroWords) := by
  unfold State.onLem
  rw [State.command_ready (UnitState.lem?_eq_some.2 h.1) h.2]
  cases body x <;> rfl

end Sys2Proof.Machine
end

