-- ==== Sys2Proof/Laws/Float.lean ====
section
/-! SUPPORT. The arithmetic of Float.lean: words and data, the order of the values, and exact results. -/

namespace Sys2Proof.Machine

/-! ### Words and data -/

theorem unpack32_mag_lt (x : B32) : (unpack32 x).mag < 2 ^ 31 := Nat.mod_lt _ (by decide)
theorem unpack64_mag_lt (x : B64) : (unpack64 x).mag < 2 ^ 63 := Nat.mod_lt _ (by decide)

@[simp] theorem pack32_unpack32 (x : B32) : pack32 (unpack32 x) = x := by
  apply BitVec.eq_of_toNat_eq
  have hx := x.isLt
  simp only [pack32, unpack32, BitVec.toNat_ofNat, BitVec.msb_eq_decide]
  simp only [Nat.add_one_sub_one, decide_eq_true_eq]
  split <;> omega

@[simp] theorem pack64_unpack64 (x : B64) : pack64 (unpack64 x) = x := by
  apply BitVec.eq_of_toNat_eq
  have hx := x.isLt
  simp only [pack64, unpack64, BitVec.toNat_ofNat, BitVec.msb_eq_decide]
  simp only [Nat.add_one_sub_one, decide_eq_true_eq]
  split <;> omega

theorem unpack32_pack32 {x : Flt} (h : x.mag < 2 ^ 31) : unpack32 (pack32 x) = x := by
  obtain ⟨s, m⟩ := x
  simp only at h
  cases s <;> simp only [pack32, unpack32, Flt.mk.injEq, BitVec.toNat_ofNat, BitVec.msb_eq_decide] <;> constructor <;>
    simp <;> omega

theorem unpack64_pack64 {x : Flt} (h : x.mag < 2 ^ 63) : unpack64 (pack64 x) = x := by
  obtain ⟨s, m⟩ := x
  simp only at h
  cases s <;> simp only [pack64, unpack64, Flt.mk.injEq, BitVec.toNat_ofNat, BitVec.msb_eq_decide] <;> constructor <;>
    simp <;> omega

/-- A rounded magnitude never exceeds that of infinity. -/
theorem roundMag_le_inf (f : Fmt) (num den : Nat) : roundMag f num den ≤ f.inf := Nat.min_le_right _ _

/-- A quiet NaN is a NaN, whatever its payload. -/
@[simp] theorem isNaN32_quietNaN32 (v : BitVec 23) : isNaN32 (quietNaN32 v) = true := by
  have h : v.toNat % 2 ^ 22 < 2 ^ 22 := Nat.mod_lt _ (by decide)
  rw [isNaN32, quietNaN32, unpack32_pack32 (by simp only; omega)]
  simp only [Flt.isNaN, decide_eq_true_eq]
  show 0x7F800000 < 0x7FC00000 + _
  omega

/-- A quiet NaN is a NaN, whatever its payload. -/
@[simp] theorem isNaN64_quietNaN64 (v : BitVec 52) : isNaN64 (quietNaN64 v) = true := by
  have h : v.toNat % 2 ^ 51 < 2 ^ 51 := Nat.mod_lt _ (by decide)
  rw [isNaN64, quietNaN64, unpack64_pack64 (by simp only; omega)]
  simp only [Flt.isNaN, decide_eq_true_eq]
  show 0x7FF0000000000000 < 0x7FF8000000000000 + _
  omega

/-- A finite value is no NaN. -/
theorem isNaN64_of_finite64 {x : B64} (h : finite64 x = true) : isNaN64 x = false := by
  simp only [finite64, Flt.isFinite, decide_eq_true_eq] at h
  simp only [isNaN64, Flt.isNaN, decide_eq_false_iff_not]
  omega

/-- A finite value is no NaN. -/
theorem isNaN32_of_finite32 {x : B32} (h : finite32 x = true) : isNaN32 x = false := by
  simp only [finite32, Flt.isFinite, decide_eq_true_eq] at h
  simp only [isNaN32, Flt.isNaN, decide_eq_false_iff_not]
  omega

/-! ### The order of the values (R15) -/

theorem le64_refl {x : B64} (h : finite64 x = true) : le64 x x = true := by simp [le64, isNaN64_of_finite64 h]

theorem le64_trans {x y z : B64} (h₁ : le64 x y = true) (h₂ : le64 y z = true) : le64 x z = true := by
  simp only [le64, Bool.and_eq_true, Bool.not_eq_true', decide_eq_true_eq] at *
  exact ⟨⟨h₁.1.1, h₂.1.2⟩, Int.le_trans h₁.2 h₂.2⟩

/-- Of two finite values, one is below the other or at most equal to it, and not both. -/
theorem le64_eq_not_lt64 {x y : B64} (hx : finite64 x = true) (hy : finite64 y = true) : le64 x y = !lt64 y x := by
  simp [le64, lt64, isNaN64_of_finite64 hx, isNaN64_of_finite64 hy, ← decide_not]

/-- An event that is not before the last one keeps the times in order. -/
theorem le64_of_not_lt64 {x y : B64} (hx : finite64 x = true) (hy : finite64 y = true) (h : lt64 y x = false) :
    le64 x y = true := by rw [le64_eq_not_lt64 hx hy, h]; rfl

theorem le64_of_lt64 {x y : B64} (h : lt64 x y = true) : le64 x y = true := by
  simp only [lt64, le64, Bool.and_eq_true, Bool.not_eq_true', decide_eq_true_eq] at *
  exact ⟨h.1, Int.le_of_lt h.2⟩

@[simp] theorem lt64_irrefl (x : B64) : lt64 x x = false := by simp [lt64]

/-! ### Exact results -/

/-- Rounding depends on the rational, not on how it is written. -/
theorem roundMag_scale (f : Fmt) (num den c : Nat) (hc : 0 < c) : roundMag f (num * c) (den * c) = roundMag f num den := by
  have h1 : num * c / (den * c) = num / den := Nat.mul_div_mul_right _ _ hc
  unfold roundMag
  simp only [h1]
  have h2 : ∀ k, den * c * 2 ^ k = den * 2 ^ k * c := fun k => by ring
  simp only [h2, Nat.mul_div_mul_right _ _ hc, Nat.mul_mod_mul_right]
  have h3 : ∀ a b : Nat, a * c < 2 * (b * c) ↔ a < 2 * b := fun a b => by
    rw [← Nat.mul_assoc]; exact Nat.mul_lt_mul_right hc
  have h4 : ∀ a b : Nat, 2 * (b * c) = a * c ↔ 2 * b = a := fun a b => by
    rw [← Nat.mul_assoc]; exact Nat.mul_left_inj (by omega)
  simp only [h3, h4]

/-- The value of a finite datum rounds to that datum. -/
theorem roundMag_magUnits (f : Fmt) (hp : 0 < f.p) {mag : Nat} (h : mag ≤ f.inf) : roundMag f (magUnits f mag) 1 = mag := by
  obtain ⟨p, scale, inf⟩ := f
  obtain ⟨p, rfl⟩ : ∃ q, p = q + 1 := ⟨p - 1, by simp only at hp; omega⟩
  simp only at h hp ⊢
  have hdm := Nat.div_add_mod mag (2 ^ p)
  have hm : mag % 2 ^ p < 2 ^ p := Nat.mod_lt _ (by positivity)
  simp only [roundMag, magUnits, Nat.add_sub_cancel, Nat.div_one, Nat.one_mul]
  generalize mag / 2 ^ p = e at *
  generalize mag % 2 ^ p = m at *
  by_cases he : e = 0
  · subst he
    have hk : Nat.log2 m + 1 - (p + 1) = 0 := by
      by_cases hm0 : m = 0
      · subst hm0; simp
      · have := (Nat.log2_lt hm0).2 hm
        omega
    simp only [if_pos, hk, pow_zero, Nat.mod_one, Nat.div_one]
    simp
    omega
  · have hlog : Nat.log2 ((2 ^ p + m) * 2 ^ (e - 1)) = p + (e - 1) := by
      have hpos : (2 ^ p + m) * 2 ^ (e - 1) ≠ 0 := by positivity
      apply (Nat.log2_eq_iff hpos).2
      constructor
      · rw [Nat.pow_add]; exact Nat.mul_le_mul_right _ (by omega)
      · have : 2 ^ (p + (e - 1) + 1) = (2 ^ p + 2 ^ p) * 2 ^ (e - 1) := by ring
        rw [this]
        exact Nat.mul_lt_mul_of_pos_right (by omega) (by positivity)
    have hk : p + (e - 1) + 1 - (p + 1) = e - 1 := by omega
    simp only [if_neg he, hlog, hk, Nat.mul_mod_left, Nat.mul_div_cancel _ (Nat.two_pow_pos (e - 1))]
    have h1 : ¬ (2 ^ (e - 1) < 2 * 0 ∨ 2 * 0 = 2 ^ (e - 1) ∧ (2 ^ p + m) % 2 = 1) := by
      have := Nat.two_pow_pos (e - 1)
      omega
    have h2 : (e - 1) * 2 ^ p + (2 ^ p + m) = mag := by
      obtain ⟨e, rfl⟩ : ∃ e', e = e' + 1 := ⟨e - 1, by omega⟩
      rw [← hdm, Nat.add_sub_cancel]
      ring
    rw [if_neg h1, h2]
    omega

/-- A significand `q` of weight `2 ^ k`, hidden bit present above the lowest binade, a carry out of it allowed. -/
theorem magUnits_significand (f : Fmt) (hp : 0 < f.p) (k q : Nat) (hlo : k = 0 ∨ 2 ^ (f.p - 1) ≤ q) (hhi : q ≤ 2 ^ f.p) :
    magUnits f (k * 2 ^ (f.p - 1) + q) = q * 2 ^ k := by
  obtain ⟨p, scale, inf⟩ := f
  obtain ⟨p, rfl⟩ : ∃ r, p = r + 1 := ⟨p - 1, by simp only at hp; omega⟩
  simp only [Nat.add_sub_cancel] at hlo hhi ⊢
  have h2 : 2 ^ (p + 1) = 2 ^ p + 2 ^ p := by ring
  have hpos : 0 < 2 ^ p := by positivity
  simp only [magUnits, Nat.add_sub_cancel]
  by_cases hq : q < 2 ^ p
  · have hk : k = 0 := by omega
    subst hk
    simp [Nat.div_eq_of_lt hq, Nat.mod_eq_of_lt hq]
  · by_cases hq2 : q = 2 ^ (p + 1)
    · have e1 : k * 2 ^ p + q = (k + 2) * 2 ^ p := by rw [hq2, h2]; ring
      rw [e1, Nat.mul_div_cancel _ hpos, Nat.mul_mod_left, if_neg (by omega), hq2]
      show (2 ^ p + 0) * 2 ^ (k + 1) = _
      ring
    · have e1 : k * 2 ^ p + q = (q - 2 ^ p) + (k + 1) * 2 ^ p := by
        have : q = (q - 2 ^ p) + 2 ^ p := by omega
        rw [Nat.add_mul]; omega
      have hlt : q - 2 ^ p < 2 ^ p := by omega
      rw [e1, Nat.add_mul_div_right _ _ hpos, Nat.div_eq_of_lt hlt, Nat.add_mul_mod_self_right, Nat.mod_eq_of_lt hlt,
        Nat.zero_add, if_neg (by omega), Nat.add_sub_cancel]
      congr 1
      omega

/-- A whole number of units that does not overflow is rounded by at most half a unit in the last place. -/
theorem magUnits_roundMag (f : Fmt) (hp : 0 < f.p) (n : Nat) (h : roundMag f n 1 < f.inf) :
    ∃ q, magUnits f (roundMag f n 1) = q * 2 ^ (Nat.log2 n + 1 - f.p) ∧
      2 * (q * 2 ^ (Nat.log2 n + 1 - f.p)) ≤ 2 * n + 2 ^ (Nat.log2 n + 1 - f.p) ∧
      2 * n ≤ 2 * (q * 2 ^ (Nat.log2 n + 1 - f.p)) + 2 ^ (Nat.log2 n + 1 - f.p) := by
  unfold roundMag at h ⊢
  simp only [Nat.div_one, Nat.one_mul] at h ⊢
  generalize hk : Nat.log2 n + 1 - f.p = k at *
  rw [Nat.min_eq_left (by omega)]
  have hd : 0 < 2 ^ k := by positivity
  have hdm := Nat.div_add_mod n (2 ^ k)
  have hr := Nat.mod_lt n hd
  have hqhi : n / 2 ^ k < 2 ^ f.p := by
    apply (Nat.div_lt_iff_lt_mul hd).2
    by_cases hn : n = 0
    · subst hn; positivity
    · have h1 := (Nat.log2_lt hn).1 (Nat.lt_succ_self _)
      refine Nat.lt_of_lt_of_le h1 ?_
      rw [← Nat.pow_add]
      exact Nat.pow_le_pow_right (by omega) (by omega)
  have hqlo : k = 0 ∨ 2 ^ (f.p - 1) ≤ n / 2 ^ k := by
    by_cases hk0 : k = 0
    · exact .inl hk0
    · right
      have hn : n ≠ 0 := by
        rintro rfl
        rw [show Nat.log2 0 = 0 from rfl] at hk
        omega
      apply (Nat.le_div_iff_mul_le hd).2
      rw [← Nat.pow_add]
      have := (Nat.le_log2 hn).1 (Nat.le_refl _)
      refine Nat.le_trans (Nat.pow_le_pow_right (by omega) ?_) this
      omega
  generalize n / 2 ^ k = q at *
  generalize n % 2 ^ k = r at *
  have hc : 2 ^ k * q = q * 2 ^ k := Nat.mul_comm _ _
  split
  · refine ⟨q + 1, magUnits_significand f hp k (q + 1) (by omega) (by omega), ?_, ?_⟩ <;> rw [Nat.add_mul] <;> omega
  · refine ⟨q, magUnits_significand f hp k q hqlo (by omega), ?_, ?_⟩ <;> omega

/-- A binary32 value that is no NaN, times 1.0, is that value. -/
theorem mul32_one32 {x : B32} (h : isNaN32 x = false) : mul32 x one32 = x := by
  have h1 : unpack32 one32 = ⟨false, 0x3F800000⟩ := by decide
  unfold mul32 Flt.mul
  rw [h1]
  unfold isNaN32 at h
  rw [h]
  have h2 : (Flt.isNaN fmt32 ⟨false, 0x3F800000⟩) = false := by decide
  have h3 : (Flt.isInf fmt32 ⟨false, 0x3F800000⟩) = false := by decide
  simp only [h2, h3, Bool.or_self, Bool.false_eq_true, if_false]
  have hx : (unpack32 x).mag ≤ fmt32.inf := by
    simpa [Flt.isNaN] using h
  split
  · rename_i hi
    simp only [Flt.isInf, decide_eq_true_eq] at hi
    rw [if_neg (by decide)]
    conv_rhs => rw [← pack32_unpack32 x]
    simp only [result32, Bool.bne_false]
    rw [← hi]
  · have h4 : magUnits fmt32 0x3F800000 = 2 ^ fmt32.scale := by decide +kernel
    have h5 := roundMag_scale fmt32 (magUnits fmt32 (unpack32 x).mag) 1 (2 ^ fmt32.scale) (by decide +kernel)
    rw [Nat.one_mul] at h5
    simp only [h4, h5, roundMag_magUnits fmt32 (by decide) hx, result32, Bool.bne_false]
    exact pack32_unpack32 x

/-- `+0.0` plus a finite value is that value, but for `-0.0`, which gives `+0.0`. -/
theorem add32_zero32_left {x : B32} (h : finite32 x = true) :
    add32 zero32 x = if x = 0x80000000#32 then zero32 else x := by
  have h1 : unpack32 zero32 = ⟨false, 0⟩ := by decide
  have hx : (unpack32 x).mag < fmt32.inf := by simpa [finite32, Flt.isFinite] using h
  unfold add32 Flt.add
  rw [h1]
  have h2 : (Flt.isNaN fmt32 ⟨false, 0⟩) = false := by decide
  have h3 : (Flt.isInf fmt32 ⟨false, 0⟩) = false := by decide
  have h4 : (unpack32 x).isNaN fmt32 = false := by simp [Flt.isNaN]; omega
  have h5 : (unpack32 x).isInf fmt32 = false := by simp [Flt.isInf]; omega
  have h6 : Flt.units fmt32 ⟨false, 0⟩ = 0 := by decide
  simp only [h2, h3, h4, h5, h6, Bool.or_self, Bool.false_eq_true, if_false, Int.zero_add, Bool.false_and, result32]
  by_cases h0 : (unpack32 x).mag = 0
  · have hu : Flt.units fmt32 (unpack32 x) = 0 := by
      have h7 : magUnits fmt32 0 = 0 := by decide
      unfold Flt.units
      rw [h0, h7]
      simp
    rw [if_pos hu, hu]
    have hz : x = 0x80000000#32 ∨ x = zero32 := by
      rw [← pack32_unpack32 x]
      unfold pack32
      rw [h0]
      cases (unpack32 x).neg
      · exact .inr rfl
      · exact .inl rfl
    rcases hz with rfl | rfl
    · rw [if_pos rfl]; decide
    · decide
  · have hm : 0 < magUnits fmt32 (unpack32 x).mag := by
      rcases Nat.eq_zero_or_pos (magUnits fmt32 (unpack32 x).mag) with hz | hz
      · have := roundMag_magUnits fmt32 (by decide) (Nat.le_of_lt hx)
        rw [hz] at this
        rw [show roundMag fmt32 0 1 = 0 from by decide] at this
        omega
      · exact hz
    have hne : Flt.units fmt32 (unpack32 x) ≠ 0 := by
      unfold Flt.units
      split <;> omega
    have hsign : decide (Flt.units fmt32 (unpack32 x) < 0) = (unpack32 x).neg := by
      unfold Flt.units
      cases (unpack32 x).neg
      · simp
      · simp; omega
    have habs : (Flt.units fmt32 (unpack32 x)).natAbs = magUnits fmt32 (unpack32 x).mag := by
      unfold Flt.units
      split <;> omega
    rw [if_neg hne, hsign, habs, roundMag_magUnits fmt32 (by decide) (Nat.le_of_lt hx), if_neg]
    · exact pack32_unpack32 x
    · rintro rfl
      exact h0 (by decide)

end Sys2Proof.Machine
end

