-- ==== Sys2Proof/Laws/Memory.lean ====
section
/-! SUPPORT. The sample memories: what a slot holds after a write, and that every memory operation keeps the canonical form. -/

namespace Sys2Proof.Machine

/-- Indices strictly rising, all above the head's. -/
theorem cellsWf_cons {z : Sample} {j : Nat} {u : Sample} {m : List (Nat × Sample)} :
    CellsWf z ((j, u) :: m) ↔ (∀ e ∈ m, j < e.1) ∧ u ≠ z ∧ CellsWf z m := by
  simp only [CellsWf, List.pairwise_cons, List.mem_cons, forall_eq_or_imp]
  tauto

/-- A slot below every listed index is not listed. -/
theorem cellsGet_of_lt {z : Sample} {m : List (Nat × Sample)} {i : Nat} (h : ∀ e ∈ m, i < e.1) : cellsGet z m i = z := by
  induction m with
  | nil => rfl
  | cons e m ih =>
    have h1 := h e (by simp)
    simp only [cellsGet, if_neg (Nat.ne_of_lt h1)]
    exact ih fun e he => h e (by simp [he])

/-- A write puts its sample into its slot and leaves every other slot as it was. -/
theorem cellsGet_cellsSet {z : Sample} {m : List (Nat × Sample)} (hm : CellsWf z m) (i : Nat) (v : Sample) (j : Nat) :
    cellsGet z (cellsSet z i v m) j = if j = i then v else cellsGet z m j := by
  induction m with
  | nil =>
    unfold cellsSet
    split <;> split <;> simp_all [cellsGet]
  | cons e m ih =>
    obtain ⟨k, u⟩ := e
    obtain ⟨hk, hu, hm'⟩ := cellsWf_cons.1 hm
    unfold cellsSet
    split
    · rename_i hik
      have hlow : ∀ e ∈ (k, u) :: m, i < e.1 := by
        intro e he
        rcases List.mem_cons.1 he with rfl | he
        · exact hik
        · exact Nat.lt_trans hik (hk e he)
      split
      · rename_i hv
        subst hv
        split
        · rename_i hj
          subst hj
          exact cellsGet_of_lt hlow
        · rfl
      · simp only [cellsGet]
    · split
      · rename_i hik
        subst hik
        split
        · rename_i hv
          subst hv
          split
          · rename_i hj
            subst hj
            exact cellsGet_of_lt hk
          · rename_i hj
            simp [cellsGet, hj]
        · simp only [cellsGet]
          split <;> rfl
      · rename_i h1 h2
        simp only [cellsGet, ih hm']
        split
        · split
          · omega
          · rfl
        · rfl

/-- The indices listed after a write are the written one and those listed before. -/
theorem mem_cellsSet {z : Sample} {m : List (Nat × Sample)} {i : Nat} {v : Sample} {e : Nat × Sample}
    (h : e ∈ cellsSet z i v m) : e = (i, v) ∨ e ∈ m := by
  induction m with
  | nil =>
    unfold cellsSet at h
    split at h <;> simp_all
  | cons a m ih =>
    obtain ⟨k, u⟩ := a
    unfold cellsSet at h
    split at h
    · split at h <;> simp_all
    · split at h
      · split at h
        · exact .inr (by simp [h])
        · rcases List.mem_cons.1 h with rfl | h
          · exact .inl rfl
          · exact .inr (by simp [h])
      · rcases List.mem_cons.1 h with rfl | h
        · simp
        · rcases ih h with h | h <;> simp [h]

/-- A write keeps the canonical form. -/
theorem cellsWf_cellsSet {z : Sample} {m : List (Nat × Sample)} (hm : CellsWf z m) (i : Nat) (v : Sample) :
    CellsWf z (cellsSet z i v m) := by
  induction m with
  | nil =>
    unfold cellsSet
    split
    · exact hm
    · simp_all [CellsWf]
  | cons e m ih =>
    obtain ⟨k, u⟩ := e
    obtain ⟨hk, hu, hm'⟩ := cellsWf_cons.1 hm
    unfold cellsSet
    split
    · rename_i hik
      split
      · exact hm
      · refine cellsWf_cons.2 ⟨?_, by assumption, hm⟩
        intro e he
        rcases List.mem_cons.1 he with rfl | he
        · exact hik
        · exact Nat.lt_trans hik (hk e he)
    · split
      · rename_i hik
        subst hik
        split
        · exact hm'
        · exact cellsWf_cons.2 ⟨hk, by assumption, hm'⟩
      · refine cellsWf_cons.2 ⟨?_, hu, ih hm'⟩
        intro e he
        rcases mem_cellsSet he with rfl | he
        · simp only; omega
        · exact hk e he

/-- Canonical memories that hold the same sample in every slot are equal. -/
theorem cells_ext {z : Sample} {m₁ m₂ : List (Nat × Sample)} (h₁ : CellsWf z m₁) (h₂ : CellsWf z m₂)
    (h : ∀ i, cellsGet z m₁ i = cellsGet z m₂ i) : m₁ = m₂ := by
  induction m₁ generalizing m₂ with
  | nil =>
    cases m₂ with
    | nil => rfl
    | cons e m₂ =>
      obtain ⟨k, u⟩ := e
      have := h k
      simp only [cellsGet, if_pos] at this
      exact absurd this.symm (cellsWf_cons.1 h₂).2.1
  | cons a m₁ ih =>
    obtain ⟨j, v⟩ := a
    obtain ⟨hj, hv, h₁'⟩ := cellsWf_cons.1 h₁
    cases m₂ with
    | nil =>
      have := h j
      simp only [cellsGet, if_pos] at this
      exact absurd this hv
    | cons e m₂ =>
      obtain ⟨k, u⟩ := e
      obtain ⟨hk, hu, h₂'⟩ := cellsWf_cons.1 h₂
      have hlow : ∀ {x y : Nat} {m : List (Nat × Sample)}, x < y → (∀ e ∈ m, y < e.1) → ∀ e ∈ m, x < e.1 :=
        fun hxy hm e he => Nat.lt_trans hxy (hm e he)
      have hjk : j = k := by
        rcases Nat.lt_trichotomy j k with hlt | heq | hgt
        · have := h j
          simp only [cellsGet, if_pos, if_neg (Nat.ne_of_lt hlt), cellsGet_of_lt (hlow hlt hk)] at this
          exact absurd this hv
        · exact heq
        · have := h k
          simp only [cellsGet, if_pos, if_neg (Nat.ne_of_lt hgt), cellsGet_of_lt (hlow hgt hj)] at this
          exact absurd this.symm hu
      subst hjk
      have hvu : v = u := by
        have := h j
        simpa [cellsGet] using this
      subst hvu
      congr 1
      refine ih h₁' h₂' fun i => ?_
      have hi := h i
      simp only [cellsGet] at hi
      by_cases hij : i = j
      · subst hij
        rw [cellsGet_of_lt hj, cellsGet_of_lt hk]
      · simpa [hij] using hi

/-- A sample of `c` lanes in every slot of a buffer whose listed samples have `c` lanes. -/
theorem cellsGet_length {c : Nat} {m : List (Nat × Sample)} (h : ∀ e ∈ m, e.2.length = c) (i : Nat) :
    (cellsGet (zeroSample c) m i).length = c := by
  induction m with
  | nil => simp [cellsGet, zeroSample]
  | cons e m ih =>
    simp only [cellsGet]
    split
    · exact h e (by simp)
    · exact ih fun e he => h e (by simp [he])

@[simp] theorem zeroSample_length (c : Nat) : (zeroSample c).length = c := by simp [zeroSample]
@[simp] theorem smp_length (c : Nat) (w : Word64) : (smp c w).length = c := by simp [smp]
@[simp] theorem Sample.scale_length (a : Sample) (s : B32) : (Sample.scale a s).length = a.length := by simp [Sample.scale]

/-- A power-on buffer reads `0̄` in every slot (R33). -/
@[simp] theorem powerOnCBuf_slot (c i : Nat) : CBuf.slot c powerOnCBuf i = zeroSample c := rfl

/-- A power-on buffer is sound. -/
theorem powerOnCBuf_wf {n : Nat} (hn : 0 < n) (c : Nat) : powerOnCBuf.Wf n c :=
  ⟨hn, ⟨List.Pairwise.nil, by simp [powerOnCBuf]⟩, by simp [powerOnCBuf]⟩

/-- A write fills the slot under the cursor and leaves every other slot as it was (R151). -/
theorem CBuf.slot_tick {n c : Nat} {b : CBuf} (h : b.Wf n c) (v : Sample) (j : Nat) :
    (b.tick n c v).slot c j = if j = b.w then v else b.slot c j :=
  cellsGet_cellsSet h.2.1 b.w v j

/-- A write keeps a buffer sound. -/
theorem CBuf.tick_wf {n c : Nat} {b : CBuf} (h : b.Wf n c) {v : Sample} (hv : v.length = c) : (b.tick n c v).Wf n c := by
  obtain ⟨hw, hc, hs⟩ := h
  refine ⟨Nat.mod_lt _ (by omega), cellsWf_cellsSet hc _ _, fun e he => ?_⟩
  rcases mem_cellsSet he with rfl | he
  · exact ⟨hw, hv⟩
  · exact hs e he

/-- Every slot of a sound buffer holds a sample of `c` lanes. -/
theorem CBuf.slot_length {n c : Nat} {b : CBuf} (h : b.Wf n c) (i : Nat) : (b.slot c i).length = c :=
  cellsGet_length (fun e he => (h.2.2 e he).2) i

/-- What an integer read can answer (R152). -/
theorem CBuf.read_eq (n c : Nat) (b : CBuf) (d : Nat) :
    (n ≤ d ∧ b.read n c d = .error .cbufReadRange) ∨ (d < n ∧ b.read n c d = .ok (b.slot c (b.slotIndex n d))) := by
  unfold CBuf.read
  split
  · exact .inl ⟨by assumption, rfl⟩
  · exact .inr ⟨by omega, rfl⟩

/-- The slot of a delay is the cursor less one less the delay, as an integer modulo the capacity (R150). -/
theorem CBuf.slotIndex_eq {n : Nat} {b : CBuf} {d : Nat} (h : d < n) :
    b.slotIndex n d = (((b.w : Int) - 1 - d) % n).toNat := by
  have h1 : ((b.w : Int) - 1 - d) % n = ((b.w + (n - 1 - d) : Nat) : Int) % n := by
    have : ((b.w + (n - 1 - d) : Nat) : Int) = (b.w : Int) - 1 - d + n := by omega
    rw [this, Int.add_emod_right]
  rw [h1, ← Int.natCast_mod, Int.toNat_natCast]
  rfl

/-- What a fractional read can answer (R153): out of range, the sample of an integer delay, or the interpolation of the two
neighbouring samples. -/
theorem CBuf.readInterp_eq (n c : Nat) (b : CBuf) (d : B32) :
    ((finite32 d = false ∨ lt32 d zero32 = true ∨ n ≤ (ceil32 d).toNat) ∧ b.readInterp n c d = .error .cbufReadRange) ∨
    (finite32 d = true ∧ lt32 d zero32 = false ∧ (ceil32 d).toNat < n ∧ (floor32 d).toNat = (ceil32 d).toNat
      ∧ b.readInterp n c d = .ok (b.slot c (b.slotIndex n (floor32 d).toNat))) ∨
    (finite32 d = true ∧ lt32 d zero32 = false ∧ (ceil32 d).toNat < n ∧ (floor32 d).toNat ≠ (ceil32 d).toNat
      ∧ (n ≤ (floor32 d).toNat ∧ b.readInterp n c d = .error .cbufReadRange
        ∨ (floor32 d).toNat < n ∧ b.readInterp n c d
          = .ok (Sample.add (b.slot c (b.slotIndex n (floor32 d).toNat))
              (Sample.scale (Sample.sub (b.slot c (b.slotIndex n (ceil32 d).toNat))
                (b.slot c (b.slotIndex n (floor32 d).toNat))) (sub32 d (f32 (floor32 d).toNat)))))) := by
  unfold CBuf.readInterp
  by_cases h1 : finite32 d = false
  · simp [h1]
  by_cases h2 : lt32 d zero32 = true
  · simp [h2]
  simp only [Bool.not_eq_false, Bool.not_eq_true] at h1 h2
  by_cases h3 : n ≤ (ceil32 d).toNat
  · simp [h3, h1, h2]
  have h3' : (ceil32 d).toNat < n := by omega
  by_cases h4 : (floor32 d).toNat = (ceil32 d).toNat
  · have h5 : ¬ n ≤ (floor32 d).toNat := by omega
    simp [h1, h2, h3, h3', h4, CBuf.read]
  · by_cases h5 : n ≤ (floor32 d).toNat
    · simp [h1, h2, h3, h3', h4, h5, CBuf.read]
    · simp [h1, h2, h3, h3', h4, h5, CBuf.read, Nat.lt_of_not_le h5]

end Sys2Proof.Machine
end

