-- ==== Sys2Proof/Laws/Units.lean ====
section
/-! SUPPORT. What each shared operation of the units can do, said once, and that it keeps its part of the state sound. -/

namespace Sys2Proof.Machine

/-! ### Ramp (R171 to R173) -/

theorem steadyRamp_wf (x : B32) : (steadyRamp x).Wf := Nat.le_refl _

theorem Ramp.set_wf (r : Ramp) (v : B32) : (r.set v).Wf := Nat.le_refl _

theorem Ramp.ramp_wf (r : Ramp) (x : B32) (n : U32) : (r.ramp x n).Wf := Nat.le_refl _

/-- A ramp has `n + 1` steps; the count does not wrap in 33 bits (R172). -/
@[simp] theorem Ramp.ramp_rem_toNat (r : Ramp) (x : B32) (n : U32) : (r.ramp x n).rem.toNat = n.toNat + 1 := by
  have := n.isLt
  simp only [Ramp.ramp_rem, BitVec.toNat_add, BitVec.toNat_setWidth]
  show (n.toNat % 2 ^ 33 + 1) % 2 ^ 33 = _
  omega

/-- EVERYTHING A RAMP TICK CAN DO: stay at the target, arrive at it, or take the value of the steps that remain (R173). -/
theorem Ramp.tick_cases (r : Ramp) :
    (r.rem.toNat = 0 ∧ r.tick = { r with v := r.t }) ∨
    (r.rem.toNat = 1 ∧ r.tick = { r with rem := 0, v := r.t }) ∨
    (∃ m : U33, r.rem.toNat = m.toNat + 1 ∧ 0 < m.toNat ∧ r.tick = { r with rem := m, v := r.between m }) := by
  have hlt := r.rem.isLt
  unfold Ramp.tick
  by_cases h0 : 0 < r.rem.toNat
  · simp only [if_pos h0]
    have hm : (r.rem - 1).toNat = r.rem.toNat - 1 := by
      rw [BitVec.toNat_sub_of_le]
      · rfl
      · show (1 : Nat) ≤ _; exact h0
    by_cases h1 : r.rem.toNat = 1
    · have : r.rem - 1 = 0 := by
        apply BitVec.eq_of_toNat_eq
        rw [hm, h1]; rfl
      exact .inr (.inl ⟨h1, by rw [this, if_pos rfl]⟩)
    · have : r.rem - 1 ≠ 0 := by
        intro h
        rw [h] at hm
        simp at hm
        omega
      exact .inr (.inr ⟨r.rem - 1, by omega, by omega, by rw [if_neg this]⟩)
  · exact .inl ⟨by omega, by simp [h0]⟩

theorem Ramp.tick_wf {r : Ramp} (h : r.Wf) : r.tick.Wf := by
  rcases r.tick_cases with ⟨_, e⟩ | ⟨_, e⟩ | ⟨m, hm, _, e⟩ <;> rw [e]
  · exact h
  · exact Nat.zero_le _
  · simp only [Ramp.Wf] at *
    omega

/-! ### Grain (R190 to R204) -/

theorem clampFade_le (d f : U32) : 2 * (clampFade d f).toNat ≤ d.toNat := by
  unfold clampFade
  split
  · have : (d / 2).toNat = d.toNat / 2 := by simp [BitVec.toNat_udiv]
    omega
  · omega

/-- EVERYTHING GRAIN.new CAN ANSWER: a fault, in the order of R191, or a grain whose fade fits twice into its duration. -/
theorem Grain.new_cases (wait : U32) (offset : B32) (duration fade : U32) (reverse : Bool) (speed : B32) :
    ((finite32 offset = false ∨ finite32 speed = false) ∧
      Grain.new wait offset duration fade reverse speed = .error .badParameter) ∨
    (finite32 offset = true ∧ finite32 speed = true ∧ duration.toNat < fade.toNat ∧
      Grain.new wait offset duration fade reverse speed = .error .fadeExceedsDuration) ∨
    (finite32 offset = true ∧ finite32 speed = true ∧ fade.toNat ≤ duration.toNat ∧
      Grain.new wait offset duration fade reverse speed = .ok
        { wait := wait, dur := duration, fade := clampFade duration fade, el := 0, env := steadyRamp zero32
          pos := if reverse then sub32 offset (f32 duration.toNat) else sub32 offset one32
          inc := if reverse then speed else neg32 speed }) := by
  unfold Grain.new
  by_cases h1 : finite32 offset = true <;> by_cases h2 : finite32 speed = true <;>
    by_cases h3 : duration.toNat < fade.toNat <;> simp [h1, h2, h3]
  omega

theorem Grain.new_wf {wait : U32} {offset : B32} {duration fade : U32} {reverse : Bool} {speed : B32} {g : Grain}
    (h : Grain.new wait offset duration fade reverse speed = .ok g) : g.Wf := by
  rcases Grain.new_cases wait offset duration fade reverse speed with ⟨_, e⟩ | ⟨_, _, _, e⟩ | ⟨_, _, _, e⟩
  · rw [e] at h; cases h
  · rw [e] at h; cases h
  · rw [e] at h
    cases h
    have := clampFade_le duration fade
    exact ⟨Nat.zero_le _, by simp only; omega, steadyRamp_wf _⟩

theorem powerOnGrain_wf : powerOnGrain.Wf := ⟨Nat.le_refl _, Nat.le_refl _, steadyRamp_wf _⟩

/-- A grain is finished, waiting or playing, and only one of them (R190). -/
theorem Grain.state_cases (g : Grain) :
    (g.finished = true ∧ g.waiting = false ∧ g.playing = false) ∨
    (g.finished = false ∧ g.waiting = true ∧ g.playing = false) ∨
    (g.finished = false ∧ g.waiting = false ∧ g.playing = true) := by
  unfold Grain.waiting Grain.playing
  cases g.finished
  · by_cases h : g.wait.toNat = 0
    · simp [h]
    · simp [h, Nat.pos_of_ne_zero h]
  · simp

/-- EVERYTHING A GRAIN TICK CAN DO: nothing when finished, one tick less to wait, or one active tick (R194). -/
theorem Grain.tick_cases (g : Grain) :
    (g.finished = true ∧ g.tick = (g, zero32, zero32)) ∨
    (g.waiting = true ∧ g.tick = ({ g with wait := g.wait - 1 }, zero32, zero32)) ∨
    (g.playing = true ∧ g.tick =
      ({ g with env := g.startRamps.tick, pos := add32 g.pos g.inc, el := g.el + 1 }, g.pos, g.startRamps.tick.v)) := by
  unfold Grain.tick Grain.waiting Grain.playing
  cases h : g.finished
  · by_cases h2 : 0 < g.wait.toNat
    · simp [h2]
    · simp [h2]; omega
  · simp

theorem Grain.startRamps_wf {g : Grain} (h : g.env.Wf) : g.startRamps.Wf := by
  unfold Grain.startRamps
  simp only
  split
  · exact Ramp.ramp_wf _ _ _
  · split
    · exact Ramp.ramp_wf _ _ _
    · exact h

/-- An active tick counts without a wrap. -/
theorem Grain.el_succ_toNat {g : Grain} (h : g.finished = false) : (g.el + 1).toNat = g.el.toNat + 1 := by
  simp only [Grain.finished, decide_eq_false_iff_not] at h
  have := g.dur.isLt
  rw [BitVec.toNat_add]
  show (g.el.toNat + 1) % 2 ^ 32 = _
  omega

theorem Grain.tick_wf {g : Grain} (h : g.Wf) : g.tick.1.Wf := by
  obtain ⟨h1, h2, h3⟩ := h
  rcases g.tick_cases with ⟨_, e⟩ | ⟨_, e⟩ | ⟨hp, e⟩ <;> rw [e]
  · exact ⟨h1, h2, h3⟩
  · exact ⟨h1, h2, h3⟩
  · have hf : g.finished = false := by
      rcases g.state_cases with h | h | h
      · rw [h.2.2] at hp; cases hp
      · exact h.1
      · exact h.1
    refine ⟨?_, h2, Ramp.tick_wf (Grain.startRamps_wf h3)⟩
    simp only [Grain.el_succ_toNat hf]
    simp only [Grain.finished, decide_eq_false_iff_not] at hf
    omega

/-- EVERYTHING A STOP CAN DO: nothing in the fade-out region or when finished, or the duration cut to one fade from here; the sum
does not wrap (R196). -/
theorem Grain.stop_cases (g : Grain) :
    (g.dur.toNat ≤ g.el.toNat + g.fade.toNat ∧ g.stop = g) ∨
    (g.el.toNat + g.fade.toNat < g.dur.toNat ∧ (g.el + g.fade).toNat = g.el.toNat + g.fade.toNat
      ∧ g.stop = { g with dur := g.el + g.fade }) := by
  have := g.dur.isLt
  unfold Grain.stop Grain.inFadeOutRegion
  by_cases h : g.dur.toNat ≤ g.el.toNat + g.fade.toNat
  · exact .inl ⟨h, by simp [h]⟩
  · refine .inr ⟨by omega, ?_, by simp [h]⟩
    rw [BitVec.toNat_add]
    omega

theorem Grain.stop_wf {g : Grain} (h : g.Wf) : g.stop.Wf := by
  obtain ⟨h1, h2, h3⟩ := h
  rcases g.stop_cases with ⟨_, e⟩ | ⟨_, hs, e⟩ <;> rw [e]
  · exact ⟨h1, h2, h3⟩
  · exact ⟨by simp only [hs]; omega, by simp only [hs]; omega, h3⟩

/-! ### Pool (R231 to R245) -/

@[simp] theorem installGrain_length (n : Grain) (gs : List Grain) : (installGrain n gs).length = gs.length := by
  induction gs with
  | nil => rfl
  | cons g gs ih => unfold installGrain; split <;> simp [ih]

theorem mem_installGrain {n x : Grain} {gs : List Grain} (h : x ∈ installGrain n gs) : x = n ∨ x ∈ gs := by
  induction gs with
  | nil => simp [installGrain] at h
  | cons g gs ih =>
    unfold installGrain at h
    split at h
    · rcases List.mem_cons.1 h with rfl | h
      · exact .inl rfl
      · exact .inr (by simp [h])
    · rcases List.mem_cons.1 h with rfl | h
      · exact .inr (by simp)
      · rcases ih h with h | h
        · exact .inl h
        · exact .inr (by simp [h])

/-- A saturated pool drops the grain (R231). -/
theorem installGrain_saturated {n : Grain} {gs : List Grain} (h : ∀ g ∈ gs, g.finished = false) : installGrain n gs = gs := by
  induction gs with
  | nil => rfl
  | cons g gs ih =>
    unfold installGrain
    rw [if_neg (by simp [h g (by simp)]), ih fun x hx => h x (by simp [hx])]

/-- The grain goes into the first finished slot (R231). -/
theorem installGrain_first {n g : Grain} {before after : List Grain} (hb : ∀ x ∈ before, x.finished = false)
    (hg : g.finished = true) : installGrain n (before ++ g :: after) = before ++ n :: after := by
  induction before with
  | nil => simp [installGrain, hg]
  | cons x before ih =>
    simp only [List.cons_append, installGrain]
    rw [if_neg (by simp [hb x (by simp)]), ih fun y hy => hb y (by simp [hy])]

theorem saturatingSucc_toNat (x : U32) : (saturatingSucc x).toNat = min (x.toNat + 1) (2 ^ 32 - 1) := by
  have := x.isLt
  unfold saturatingSucc
  split
  · rename_i h; subst h; rfl
  · rename_i h
    have h' : x.toNat ≠ 0xFFFFFFFF := fun e => h (BitVec.eq_of_toNat_eq e)
    rw [BitVec.toNat_add]
    show (x.toNat + 1) % 2 ^ 32 = _
    omega

theorem powerOnPool_wf {prm : Params} (hR : 0 < prm.R) (hS : 0 < prm.S) : (powerOnPool prm.G).Wf prm := by
  refine ⟨powerOnCBuf_wf hR _, powerOnCBuf_wf hS _, by simp [powerOnPool], ?_, Nat.zero_le _, ?_⟩
  · intro g hg
    rw [(List.mem_replicate.1 hg).2]
    exact powerOnGrain_wf
  · simp only [powerOnPool]
    constructor
    · intro h; simp at h; omega
    · intro h; cases h

theorem Pool.schedule_wf {prm : Params} {p : Pool} (h : p.Wf prm) {g : Grain} (hg : g.Wf) : (p.schedule g).Wf prm := by
  obtain ⟨h1, h2, h3, h4, h5⟩ := h
  refine ⟨h1, h2, by simp [h3], fun x hx => ?_, h5⟩
  rcases mem_installGrain hx with rfl | hx
  · exact hg
  · exact h4 x hx

theorem Pool.startLooping_wf {prm : Params} {p : Pool} (h : p.Wf prm) (hS : 0 < prm.S) : p.startLooping.Wf prm := by
  obtain ⟨h1, h2, h3, h4, _⟩ := h
  refine ⟨h1, h2, h3, h4, Nat.zero_le _, ?_⟩
  simp only [Pool.startLooping_copy, Pool.startLooping_phase]
  constructor
  · intro h; simp at h; omega
  · intro h; cases h

theorem Pool.stopLooping_wf {prm : Params} {p : Pool} (h : p.Wf prm) : p.stopLooping.Wf prm := by
  obtain ⟨h1, h2, h3, h4, h5, h6⟩ := h
  refine ⟨h1, h2, h3, h4, h5, ?_⟩
  simp only [Pool.stopLooping_copy, h6]
  unfold Pool.stopLooping
  cases p.phase <;> simp

theorem Pool.stopAll_wf {prm : Params} {p : Pool} (h : p.Wf prm) : p.stopAll.Wf prm := by
  obtain ⟨h1, h2, h3, h4, h5⟩ := h
  refine ⟨h1, h2, by simp [h3], fun x hx => ?_, h5⟩
  obtain ⟨g, hg, rfl⟩ := List.mem_map.1 hx
  exact Grain.stop_wf (h4 g hg)

theorem Pool.takeInput_wf {prm : Params} {p : Pool} (h : p.Wf prm) {x : Sample} (hx : x.length = prm.C) :
    (p.takeInput prm x).Wf prm := ⟨CBuf.tick_wf h.1 hx, h.2⟩

/-- EVERYTHING THE COPY STEP CAN DO: nothing outside FillingStatic, a fault if the copy's delay were out of range, or one sample
copied and the handoff on the last one (R235, R236). -/
theorem Pool.advanceCopy_cases (prm : Params) (p : Pool) :
    (p.phase ≠ .fillingStatic ∧ p.advanceCopy prm = .ok p) ∨
    (p.phase = .fillingStatic ∧ prm.R ≤ prm.L ∧ p.advanceCopy prm = .error .cbufReadRange) ∨
    (p.phase = .fillingStatic ∧ prm.L < prm.R ∧ p.advanceCopy prm = .ok
      { p with
        STAT := p.STAT.tick prm.S prm.C (p.ROLL.slot prm.C (p.ROLL.slotIndex prm.R prm.L))
        copy := p.copy + 1
        phase := if (p.copy + 1).toNat = prm.S then .usingStatic else .fillingStatic }) := by
  unfold Pool.advanceCopy
  by_cases h : p.phase = .fillingStatic
  · rcases p.ROLL.read_eq prm.R prm.C prm.L with ⟨hl, e⟩ | ⟨hl, e⟩
    · exact .inr (.inl ⟨h, hl, by simp [h, e]⟩)
    · exact .inr (.inr ⟨h, hl, by simp [h, e]⟩)
  · exact .inl ⟨h, by simp [h]⟩

theorem Pool.advanceCopy_wf {prm : Params} {p p' : Pool} (h : p.Wf prm) (hS : prm.S < 2 ^ 32)
    (e : p.advanceCopy prm = .ok p') : p'.Wf prm := by
  rcases Pool.advanceCopy_cases prm p with ⟨_, e'⟩ | ⟨_, _, e'⟩ | ⟨hp, _, e'⟩ <;> rw [e'] at e <;> cases e
  · exact h
  · obtain ⟨h1, h2, h3, h4, h5, h6⟩ := h
    have hne : p.copy.toNat ≠ prm.S := fun e => by
      have := h6.1 e
      rw [hp] at this
      cases this
    have hc : (p.copy + 1).toNat = p.copy.toNat + 1 := by
      have := p.copy.isLt
      rw [BitVec.toNat_add]
      show (p.copy.toNat + 1) % 2 ^ 32 = _
      omega
    refine ⟨h1, CBuf.tick_wf h2 (CBuf.slot_length h1 _), h3, h4, by simp only [hc]; omega, ?_⟩
    simp only
    split <;> simp_all

/-- The delay a pool reads at for a grain, once its buffer and reference offset are chosen (R232, R235). -/
theorem Pool.grainRead_eq (prm : Params) (p : Pool) (pos : B32) :
    (p.phase = .usingStatic ∧ p.grainRead prm pos = p.STAT.readInterp prm.S prm.C (add32 pos (f32 prm.M))) ∨
    (p.phase ≠ .usingStatic ∧ p.grainRead prm pos = p.ROLL.readInterp prm.R prm.C (add32 pos (f32 p.roff.toNat))) := by
  unfold Pool.grainRead Pool.grainDelay
  by_cases h : p.phase = .usingStatic
  · exact .inl ⟨h, by simp [h]⟩
  · exact .inr ⟨h, by simp [h]⟩

/-- A sum that is answered ticks every slot that is not finished and leaves the others (R235). -/
theorem Pool.sumGrains_grains {prm : Params} {p : Pool} {acc y : Sample} {gs gs' : List Grain}
    (h : Pool.sumGrains prm p acc gs = .ok (y, gs')) : gs' = gs.map fun g => g.tick.1 := by
  induction gs generalizing acc y gs' with
  | nil => cases h; rfl
  | cons g gs ih =>
    unfold Pool.sumGrains at h
    split at h
    · rename_i hf
      split at h
      · cases h
        rename_i hr
        rw [ih hr, List.map_cons]
        rcases g.tick_cases with ⟨_, e⟩ | ⟨hw, _⟩ | ⟨hw, _⟩
        · rw [e]
        · simp [Grain.waiting, hf] at hw
        · simp [Grain.playing, hf] at hw
      · cases h
    · split at h
      · split at h
        · cases h; rename_i hr; rw [ih hr, List.map_cons]
        · cases h
      · split at h
        · cases h
        · split at h
          · cases h; rename_i hr; rw [ih hr, List.map_cons]
          · cases h

theorem Pool.tick_wf {prm : Params} {p p' : Pool} {x y : Sample} (h : p.Wf prm) (hS : prm.S < 2 ^ 32)
    (hx : x.length = prm.C) (e : p.tick prm x = .ok (p', y)) : p'.Wf prm := by
  unfold Pool.tick at e
  split at e
  · cases e
  · rename_i q hq
    have hw := Pool.advanceCopy_wf (Pool.takeInput_wf h hx) hS hq
    split at e
    · cases e
    · rename_i y' gs hs
      cases e
      obtain ⟨h1, h2, h3, h4, h5⟩ := hw
      rw [Pool.sumGrains_grains hs]
      refine ⟨h1, h2, by simp [h3], fun g hg => ?_, h5⟩
      obtain ⟨g', hg', rfl⟩ := List.mem_map.1 hg
      exact Grain.tick_wf (h4 g' hg')

/-! ### Event queue (R270 to R272) -/

/-- EVERYTHING EVSCHED.schedule CAN ANSWER: a fault, in the order of R270, or the queue with the event at its end. -/
theorem evSchedule_cases {α : Type} (cap : Nat) (q : EvQueue α) (time : B64) (e : α) :
    (finite64 time = false ∧ evSchedule cap q time e = .error .badParameter) ∨
    (finite64 time = true ∧ beforeLast q time = true ∧ evSchedule cap q time e = .error .schedNonMonotonic) ∨
    (finite64 time = true ∧ beforeLast q time = false ∧ q.length = cap ∧ evSchedule cap q time e = .error .schedFull) ∨
    (finite64 time = true ∧ beforeLast q time = false ∧ q.length ≠ cap ∧ evSchedule cap q time e = .ok (q ++ [⟨time, e⟩])) := by
  unfold evSchedule
  by_cases h1 : finite64 time = true <;> by_cases h2 : beforeLast q time = true <;> by_cases h3 : q.length = cap <;>
    simp [h1, h2, h3]

/-- A queue whose last event is not after `time` has no event after it. -/
theorem le64_of_beforeLast {α : Type} {cap : Nat} {q : EvQueue α} (hq : EvQueueWf cap q) {time : B64}
    (ht : finite64 time = true) (h : beforeLast q time = false) : ∀ x ∈ q, le64 x.time time = true := by
  obtain ⟨_, hfin, hord⟩ := hq
  rcases List.eq_nil_or_concat q with rfl | ⟨init, l, rfl⟩
  · simp
  · rw [List.concat_eq_append] at *
    simp only [beforeLast, List.getLast?_append, List.getLast?_singleton, Option.some_or] at h
    have hl : le64 l.time time = true := le64_of_not_lt64 (hfin l (by simp)) ht h
    intro x hx
    rcases List.mem_append.1 hx with hx | hx
    · exact le64_trans ((List.pairwise_append.1 hord).2.2 x hx l (by simp)) hl
    · rw [List.mem_singleton.1 hx]; exact hl

theorem evSchedule_wf {α : Type} {cap : Nat} {q q' : EvQueue α} (hq : EvQueueWf cap q) {time : B64} {e : α}
    (h : evSchedule cap q time e = .ok q') : EvQueueWf cap q' := by
  rcases evSchedule_cases cap q time e with ⟨_, h'⟩ | ⟨_, _, h'⟩ | ⟨_, _, _, h'⟩ | ⟨ht, hb, hl, h'⟩ <;> rw [h'] at h <;> cases h
  have hle := le64_of_beforeLast hq ht hb
  obtain ⟨h1, h2, h3⟩ := hq
  refine ⟨by simp; omega, ?_, ?_⟩
  · intro x hx
    rcases List.mem_append.1 hx with hx | hx
    · exact h2 x hx
    · rw [List.mem_singleton.1 hx]; exact ht
  · refine List.pairwise_append.2 ⟨h3, List.pairwise_singleton _ _, fun x hx y hy => ?_⟩
    rw [List.mem_singleton.1 hy]
    exact hle x hx

/-- What EVSCHED.tick can answer (R271). -/
theorem evTick_cases {α : Type} (q : EvQueue α) (now : B64) :
    (finite64 now = false ∧ evTick q now = .error .badParameter) ∨
    (finite64 now = true ∧ evTick q now = .ok (evDue q now, evRest q now)) := by
  unfold evTick
  by_cases h : finite64 now = true <;> simp [h]

theorem evRest_wf {α : Type} {cap : Nat} {q : EvQueue α} (hq : EvQueueWf cap q) (now : B64) : EvQueueWf cap (evRest q now) := by
  have hs : List.Sublist (evRest q now) q := List.dropWhile_sublist _
  obtain ⟨h1, h2, h3⟩ := hq
  exact ⟨Nat.le_trans hs.length_le h1, fun x hx => h2 x (hs.subset hx), h3.sublist hs⟩

/-- Every event is due or stays: the queue is the due entries, then the rest (R271). -/
theorem evDue_append_evRest {α : Type} (q : EvQueue α) (now : B64) :
    evDue q now ++ (evRest q now).map Entry.payload = q.map Entry.payload := by
  unfold evDue evRest
  rw [← List.map_append, List.takeWhile_append_dropWhile]

/-! ### Loop event machine (R292 to R300) -/

/-- What scheduling two events on an empty queue can answer. -/
theorem Lem.scheduleTwo_cases (cap : Nat) (m : Lem) (time : B64) (e₁ e₂ : LoopEvent) :
    (∃ c, Lem.scheduleTwo cap m time e₁ e₂ = .error c) ∨
    (∃ q₁ q₂, evSchedule cap m.q time e₁ = .ok q₁ ∧ evSchedule cap q₁ time e₂ = .ok q₂
      ∧ Lem.scheduleTwo cap m time e₁ e₂ = .ok { m with q := q₂ }) := by
  unfold Lem.scheduleTwo Lem.schedule
  cases h1 : evSchedule cap m.q time e₁ with
  | error c => exact .inl ⟨c, rfl⟩
  | ok q₁ =>
    cases h2 : evSchedule cap q₁ time e₂ with
    | error c => exact .inl ⟨c, by simp [h2]⟩
    | ok q₂ => exact .inr ⟨q₁, q₂, rfl, h2, by simp [h2]⟩

/-- A loop event machine that schedules one event changes its queue only. -/
theorem Lem.schedule_cases (cap : Nat) (m : Lem) (time : B64) (e : LoopEvent) :
    (∃ c, evSchedule cap m.q time e = .error c ∧ m.schedule cap time e = .error c) ∨
    (∃ q, evSchedule cap m.q time e = .ok q ∧ m.schedule cap time e = .ok { m with q := q }) := by
  unfold Lem.schedule
  cases h : evSchedule cap m.q time e with
  | error c => exact .inl ⟨c, rfl, rfl⟩
  | ok q => exact .inr ⟨q, rfl, rfl⟩

/-- Without a NextLoop among the due events, a tick returns them as they are and reschedules nothing (R292). -/
theorem Lem.fire_no_nextLoop {cap : Nat} {st : B64} {m : Lem} {es : List LoopEvent} (h : ∀ e ∈ es, e.kind ≠ .nextLoop) :
    Lem.fire cap st m es = .ok (m, es) := by
  induction es with
  | nil => rfl
  | cons e es ih =>
    unfold Lem.fire
    rw [if_neg (h e (by simp)), ih fun x hx => h x (by simp [hx])]

/-- The one NextLoop among the due events becomes the StartGrain of the grid, and the following NextLoop is scheduled (R292). -/
theorem Lem.fire_nextLoop {cap : Nat} {st : B64} {m : Lem} {es₁ es₂ : List LoopEvent} {e : LoopEvent}
    (h₁ : ∀ x ∈ es₁, x.kind ≠ .nextLoop) (he : e.kind = .nextLoop) (h₂ : ∀ x ∈ es₂, x.kind ≠ .nextLoop) :
    Lem.fire cap st m (es₁ ++ e :: es₂) =
      match Lem.schedule cap { m with first := false } (add64 st m.grid) nextLoopEvent with
      | .error cause => .error cause
      | .ok m' => .ok (m', es₁ ++ startGrainEvent m.grid :: es₂) := by
  induction es₁ with
  | nil =>
    simp only [List.nil_append, Lem.fire, he, if_true]
    cases Lem.schedule cap { m with first := false } (add64 st m.grid) nextLoopEvent with
    | error c => rfl
    | ok m' => simp [Lem.fire_no_nextLoop h₂]
  | cons x es₁ ih =>
    simp only [List.cons_append, Lem.fire]
    rw [if_neg (h₁ x (by simp)), ih fun y hy => h₁ y (by simp [hy])]
    cases Lem.schedule cap { m with first := false } (add64 st m.grid) nextLoopEvent <;> rfl

/-! ### Engine (R331 to R335) -/

/-- What `b2i` can answer (R332). -/
theorem Engine.beatsToSamples_cases (e : Engine) (x : B64) (c : Cause) :
    (e.beatsToSamples x c = .error c) ∨
    (finite64 (mul64 x e.spb) = true ∧ 0 ≤ roundAway (mul64 x e.spb) ∧ roundAway (mul64 x e.spb) ≤ 2 ^ 32 - 1
      ∧ e.beatsToSamples x c = .ok (BitVec.ofNat 32 (roundAway (mul64 x e.spb)).toNat)) := by
  unfold Engine.beatsToSamples
  by_cases h1 : finite64 (mul64 x e.spb) = true
  · by_cases h2 : roundAway (mul64 x e.spb) < 0 ∨ 2 ^ 32 - 1 < roundAway (mul64 x e.spb)
    · exact .inl (by simp only [h1, if_pos h2]; rfl)
    · exact .inr ⟨h1, by omega, by omega, by simp only [h1, if_neg h2]; rfl⟩
  · exact .inl (by simp [h1])

/-- What a grain request can answer: a fault of `make_grain`, or a sound grain scheduled on the pool (R333, R335). -/
theorem Engine.requestGrain_cases (prm : Params) (e : Engine) (dur : B64) (red : Option B64) :
    (∃ c, e.makeGrain prm dur red = .error c ∧ e.requestGrain prm dur red = .error c) ∨
    (∃ g : Grain, g.Wf ∧ e.makeGrain prm dur red = .ok g ∧ e.requestGrain prm dur red = .ok { e with P := e.P.schedule g }) := by
  unfold Engine.requestGrain
  cases h : e.makeGrain prm dur red with
  | error c => exact .inl ⟨c, rfl, rfl⟩
  | ok g =>
    refine .inr ⟨g, ?_, rfl, rfl⟩
    unfold Engine.makeGrain at h
    split at h
    · cases h
    · split at h
      · cases h
      · split at h
        · cases h
        · split at h
          · cases h
          · exact Grain.new_wf h

/-- What processing one event can do: the pool takes a grain, every grain is stopped, or the dry ramp is aimed (R335). -/
theorem Engine.process_cases {prm : Params} {e e' : Engine} {ev : LoopEvent} (h : e.process prm ev = .ok e') :
    (∃ g : Grain, g.Wf ∧ e' = { e with P := e.P.schedule g }) ∨ e' = { e with P := e.P.stopAll } ∨
    (∃ level f, e' = { e with DRY := e.DRY.ramp level f }) ∨ e' = e := by
  unfold Engine.process at h
  cases hk : ev.kind <;> rw [hk] at h <;> simp only at h
  · rcases e.requestGrain_cases prm ev.dur none with ⟨c, _, e1⟩ | ⟨g, hg, _, e1⟩ <;> rw [e1] at h <;> cases h
    exact .inl ⟨g, hg, rfl⟩
  · rcases e.requestGrain_cases prm ev.dur (some ev.red) with ⟨c, _, e1⟩ | ⟨g, hg, _, e1⟩ <;> rw [e1] at h <;> cases h
    exact .inl ⟨g, hg, rfl⟩
  · cases h; exact .inr (.inl rfl)
  · unfold Engine.fadeDry at h
    split at h <;> cases h
    exact .inr (.inr (.inl ⟨_, _, rfl⟩))
  · unfold Engine.fadeDry at h
    split at h <;> cases h
    exact .inr (.inr (.inl ⟨_, _, rfl⟩))
  · cases h; exact .inr (.inr (.inr rfl))

end Sys2Proof.Machine
end

