-- ==== Sys2Proof/Laws/Sound.lean ====
section
/-! SUPPORT. The operations of the loop event machine and of the engine keep their parts sound. -/

namespace Sys2Proof.Machine

theorem evSchedule_ok {α : Type} {cap : Nat} {q q' : EvQueue α} {time : B64} {e : α} (h : evSchedule cap q time e = .ok q') :
    q' = q ++ [⟨time, e⟩] := by
  rcases evSchedule_cases cap q time e with ⟨_, h'⟩ | ⟨_, _, h'⟩ | ⟨_, _, _, h'⟩ | ⟨_, _, _, h'⟩ <;> rw [h'] at h <;> cases h
  rfl

theorem finite64_zero64 : finite64 zero64 = true := by decide +kernel

theorem evQueueWf_nil {α : Type} (cap : Nat) : EvQueueWf cap ([] : EvQueue α) :=
  ⟨Nat.zero_le _, by simp, List.Pairwise.nil⟩

/-- The song time a control command uses is finite. -/
theorem Lem.songTime_finite {cap : Nat} {m : Lem} (h : m.Wf cap) : finite64 m.songTime = true := by
  obtain ⟨_, _, _, _, _, hc, _⟩ := h
  unfold Lem.songTime
  cases hm : m.cst with
  | none => rfl
  | some c => rw [hm] at hc; exact hc

theorem powerOnLem_wf (cap : Nat) : powerOnLem.Wf cap := by
  refine ⟨evQueueWf_nil _, ?_, ?_, ?_, ?_, ?_, ?_, ?_, ?_⟩ <;> decide +kernel

theorem Lem.reset_wf {cap : Nat} {m : Lem} (h : m.Wf cap) : m.reset.Wf cap := by
  obtain ⟨_, h2, h3, h4, h5, _⟩ := h
  exact ⟨evQueueWf_nil _, h2, h3, h4, h5, rfl, finite64_zero64, by simp, rfl⟩

theorem Lem.setFadeInTime_wf {cap : Nat} {m m' : Lem} {lead : B64} (h : m.Wf cap) (e : m.setFadeInTime lead = .ok m') :
    m'.Wf cap := by
  obtain ⟨h1, h2, h3, _, _, h6⟩ := h
  unfold Lem.setFadeInTime at e
  split at e
  · cases e
  · rename_i hc
    cases e
    simp only [Bool.or_eq_true, Bool.not_eq_true', not_or, Bool.not_eq_false, Bool.not_eq_true] at hc
    exact ⟨h1, h2, h3, hc.1, hc.2, h6⟩

/-- A machine whose queue is replaced by one that two schedules made of it. -/
theorem Lem.scheduleTwo_ok {cap : Nat} {m m' : Lem} {time : B64} {e₁ e₂ : LoopEvent}
    (h : Lem.scheduleTwo cap m time e₁ e₂ = .ok m') (hq : EvQueueWf cap m.q) :
    m' = { m with q := m.q ++ [⟨time, e₁⟩, ⟨time, e₂⟩] } ∧ EvQueueWf cap m'.q := by
  rcases Lem.scheduleTwo_cases cap m time e₁ e₂ with ⟨c, e⟩ | ⟨q₁, q₂, h1, h2, e⟩ <;> rw [e] at h <;> cases h
  have w1 := evSchedule_wf hq h1
  have w2 := evSchedule_wf w1 h2
  have e1 := evSchedule_ok h1
  have e2 := evSchedule_ok h2
  subst e1
  subst e2
  exact ⟨by simp, w2⟩

theorem Lem.schedule_ok {cap : Nat} {m m' : Lem} {time : B64} {e : LoopEvent}
    (h : m.schedule cap time e = .ok m') (hq : EvQueueWf cap m.q) :
    m' = { m with q := m.q ++ [⟨time, e⟩] } ∧ EvQueueWf cap m'.q := by
  rcases Lem.schedule_cases cap m time e with ⟨c, _, e'⟩ | ⟨q, h1, e'⟩ <;> rw [e'] at h <;> cases h
  have w1 := evSchedule_wf hq h1
  have e1 := evSchedule_ok h1
  subst e1
  exact ⟨rfl, w1⟩

theorem Lem.startLooping_wf {cap : Nat} {m m' : Lem} (h : m.Wf cap) (e : m.startLooping cap = .ok m') : m'.Wf cap := by
  have hs := Lem.songTime_finite h
  unfold Lem.startLooping at e
  split at e
  · cases e; exact h
  · rename_i hl
    obtain ⟨h1, h2, h3, h4, h5, h6, h7, h8, h9⟩ := h
    obtain ⟨rfl, hq⟩ := Lem.scheduleTwo_ok e h1
    refine ⟨hq, h2, h3, h4, h5, h6, hs, by simp, ?_⟩
    simp only [Lem.pendingNextLoops, Bool.not_eq_true] at *
    simp only [hl] at h9
    simp [List.countP_append, h9, nextLoopEvent, fadeOutDryEvent]

theorem Lem.stopLooping_wf {cap : Nat} {m m' : Lem} (h : m.Wf cap) (e : m.stopLooping cap = .ok m') : m'.Wf cap := by
  unfold Lem.stopLooping at e
  split at e
  · cases e; exact h
  · obtain ⟨h1, h2, h3, h4, h5, h6, h7, h8, h9⟩ := h
    obtain ⟨rfl, hq⟩ := Lem.scheduleTwo_ok e (evQueueWf_nil _)
    exact ⟨hq, h2, h3, h4, h5, h6, h7, by simp, rfl⟩

theorem Lem.setGridInterval_wf {cap : Nat} {m m' : Lem} {new : B64} (h : m.Wf cap)
    (e : m.setGridInterval cap new = .ok m') : m'.Wf cap := by
  obtain ⟨h1, h2, h3, h4, h5, h6, h7, h8, h9⟩ := h
  unfold Lem.setGridInterval at e
  split at e
  · cases e
  · rename_i hc
    simp only [Bool.or_eq_true, Bool.not_eq_true', not_or, Bool.not_eq_false] at hc
    split at e
    · cases e
      exact ⟨h1, hc.1, hc.2, h4, h5, h6, h7, h8, h9⟩
    · rename_i hl
      simp only [Bool.or_eq_true, Bool.not_eq_true', not_or, Bool.not_eq_false] at hl
      simp only [hl.1, if_true] at h9
      simp only at e
      split at e
      · obtain ⟨rfl, hq⟩ := Lem.scheduleTwo_ok e (evQueueWf_nil _)
        exact ⟨hq, hc.1, hc.2, h4, h5, h6, h7, h8, by simp only [hl.1]; rfl⟩
      · split at e
        · obtain ⟨rfl, hq⟩ := Lem.scheduleTwo_ok e (evQueueWf_nil _)
          exact ⟨hq, hc.1, hc.2, h4, h5, h6, h7, h8, by simp only [hl.1]; rfl⟩
        · unfold Lem.lengthen at e
          simp only at e
          split at e
          · split at e
            · rename_i m'' he
              obtain ⟨rfl, hq⟩ := Lem.schedule_ok he (evQueueWf_nil _)
              obtain ⟨rfl, hq'⟩ := Lem.schedule_ok e hq
              exact ⟨hq', hc.1, hc.2, h4, h5, h6, h7, h8, by simp only [hl.1]; rfl⟩
            · cases e
          · obtain ⟨rfl, hq⟩ := Lem.schedule_ok e (evQueueWf_nil _)
            exact ⟨hq, hc.1, hc.2, h4, h5, h6, h7, h8, by simp only [hl.1]; rfl⟩

/-- A list with exactly one member that satisfies a test, split there. -/
theorem split_of_countP_one {α : Type} {p : α → Bool} {l : List α} (h : l.countP p = 1) :
    ∃ l₁ x l₂, l = l₁ ++ x :: l₂ ∧ p x = true ∧ (∀ y ∈ l₁, p y = false) ∧ ∀ y ∈ l₂, p y = false := by
  induction l with
  | nil => cases h
  | cons x l ih =>
    by_cases hx : p x = true
    · rw [List.countP_cons_of_pos hx] at h
      have h0 : l.countP p = 0 := by omega
      refine ⟨[], x, l, rfl, hx, by simp, fun y hy => ?_⟩
      simpa using List.countP_eq_zero.1 h0 y hy
    · rw [List.countP_cons_of_neg hx] at h
      obtain ⟨l₁, z, l₂, rfl, hz, h1, h2⟩ := ih h
      refine ⟨x :: l₁, z, l₂, rfl, hz, ?_, h2⟩
      intro y hy
      rcases List.mem_cons.1 hy with rfl | hy
      · simpa using hx
      · exact h1 y hy

theorem Lem.tick_wf {cap : Nat} {m m' : Lem} {st : B64} {evs : List LoopEvent} (h : m.Wf cap)
    (e : m.tick cap st = .ok (m', evs)) : m'.Wf cap := by
  obtain ⟨h1, h2, h3, h4, h5, h6, h7, h8, h9⟩ := h
  unfold Lem.tick at e
  split at e
  · cases e
  · rename_i hst
    simp only [Bool.not_eq_true', Bool.not_eq_false] at hst
    split at e
    · cases e
    · rcases evTick_cases m.q st with ⟨h0, _⟩ | ⟨_, ht⟩
      · rw [h0] at hst; cases hst
      · rw [ht] at e
        simp only at e
        have hrest := evRest_wf h1 st
        have hq : (evDue m.q st).countP (fun e => e.kind == .nextLoop)
            + (evRest m.q st).countP (fun e => e.payload.kind == .nextLoop) = if m.looping then 1 else 0 := by
          rw [← h9]
          unfold Lem.pendingNextLoops evDue evRest
          rw [List.countP_map]
          show (List.countP (fun e : Entry LoopEvent => e.payload.kind == .nextLoop) _) + _ = _
          rw [← List.countP_append, List.takeWhile_append_dropWhile]
        by_cases h0 : (evDue m.q st).countP (fun e => e.kind == .nextLoop) = 0
        · rw [Lem.fire_no_nextLoop (by simpa using h0)] at e
          cases e
          rw [h0, Nat.zero_add] at hq
          exact ⟨hrest, h2, h3, h4, h5, hst, h7, h8, hq⟩
        · have hl : m.looping = true := by
            cases hm : m.looping
            · rw [hm] at hq
              simp only [Bool.false_eq_true, if_false] at hq
              omega
            · rfl
          simp only [hl, if_true] at hq
          obtain ⟨d₁, nl, d₂, hd, hnl, hd1, hd2⟩ := split_of_countP_one (p := fun e : LoopEvent => e.kind == .nextLoop)
            (show (evDue m.q st).countP _ = 1 by omega)
          rw [hd, Lem.fire_nextLoop (by simpa using hd1) (by simpa using hnl) (by simpa using hd2)] at e
          split at e
          · cases e
          · rename_i m'' he
            obtain ⟨rfl, hw⟩ := Lem.schedule_ok he hrest
            cases e
            refine ⟨hw, h2, h3, h4, h5, hst, h7, by simp, ?_⟩
            have hr0 : (evRest m.q st).countP (fun e => e.payload.kind == .nextLoop) = 0 := by omega
            simp only [Lem.pendingNextLoops, List.countP_append, hr0, hl]
            rfl

theorem powerOnEngine_wf {prm : Params} (hR : 0 < prm.R) (hS : 0 < prm.S) : (powerOnEngine prm.G).Wf prm := by
  have h : finite64 0x405E000000000000#64 = true ∧ lt64 zero64 0x405E000000000000#64 = true
      ∧ finite64 0x40E7700000000000#64 = true ∧ lt64 zero64 0x40E7700000000000#64 = true
      ∧ finite32 0x3F800000#32 = true := by decide +kernel
  exact ⟨powerOnPool_wf hR hS, powerOnLem_wf _, steadyRamp_wf _, h⟩

theorem Engine.processAll_wf {prm : Params} {e e' : Engine} {evs : List LoopEvent} (h : e.Wf prm)
    (he : Engine.processAll prm e evs = .ok e') : e'.Wf prm := by
  induction evs generalizing e with
  | nil => cases he; exact h
  | cons ev evs ih =>
    unfold Engine.processAll at he
    split at he
    · rename_i e₁ h1
      refine ih ?_ he
      obtain ⟨hP, hE, hD, hr⟩ := h
      rcases Engine.process_cases h1 with ⟨g, hg, rfl⟩ | rfl | ⟨l, f, rfl⟩ | rfl
      · exact ⟨Pool.schedule_wf hP hg, hE, hD, hr⟩
      · exact ⟨Pool.stopAll_wf hP, hE, hD, hr⟩
      · exact ⟨hP, hE, Ramp.ramp_wf _ _ _, hr⟩
      · exact ⟨hP, hE, hD, hr⟩
    · cases he

theorem Engine.tick_wf {prm : Params} {e e' : Engine} {x y : Sample} {t : B64} (h : e.Wf prm) (hS : prm.S < 2 ^ 32)
    (hx : x.length = prm.C) (he : e.tick prm x t = .ok (e', y)) : e'.Wf prm := by
  unfold Engine.tick at he
  split at he
  · cases he
  · rename_i m evs hm
    obtain ⟨hP, hE, hD, hr⟩ := h
    have hE' := Lem.tick_wf hE hm
    split at he
    · cases he
    · rename_i e₁ h1
      obtain ⟨hP1, hE1, hD1, hr1⟩ := Engine.processAll_wf (e := { e with E := m }) ⟨hP, hE', hD, hr⟩ h1
      split at he
      · cases he
      · rename_i p w hp
        cases he
        exact ⟨Pool.tick_wf hP1 hS hx hp, hE1, Ramp.tick_wf hD1, hr1⟩

end Sys2Proof.Machine
end

