-- ==== Sys2Proof/Laws/Causes.lean ====
section
/-! SUPPORT. Which faults each shared operation can raise (spec/60_exceptions.md R382), said once. -/

namespace Sys2Proof.Machine

/-- A command of this configuration that leaves the machine faulted, where it was not, raised the cause that FAULT holds (R384). -/
theorem State.command_fault {α : Type} {s t : State} {i : Instr} {sel : UnitState → Option α} {put : α → UnitState}
    {body : α → Except Cause (α × List Word64)} {a : α} (hsel : sel s.unit = some a) (hv : s.fault.valid = false)
    (h : (Host.Outcome.next (s.command i sel put body) : Host.Outcome State Fault Refusal) = .next t)
    (hf : t.fault.valid = true) : ∃ cause, body a = .error cause ∧ t.fault.cause = cause.code := by
  cases h
  rw [State.command_ready hsel hv] at hf ⊢
  cases hb : body a with
  | ok p => rw [hb] at hf; simp [State.executed, hv] at hf
  | error c => exact ⟨c, rfl, rfl⟩

/-- A read faults with CBUF_READ_RANGE only (R152). -/
theorem CBuf.read_error {n c d : Nat} {b : CBuf} {x : Cause} (h : b.read n c d = .error x) : x = .cbufReadRange := by
  unfold CBuf.read at h
  split at h <;> cases h
  rfl

/-- An interpolated read faults with CBUF_READ_RANGE only (R153). -/
theorem CBuf.readInterp_error {n c : Nat} {d : B32} {b : CBuf} {x : Cause} (h : b.readInterp n c d = .error x) :
    x = .cbufReadRange := by
  unfold CBuf.readInterp at h
  simp only at h
  split at h
  · cases h; rfl
  · split at h
    · cases h; rfl
    · split at h
      · exact CBuf.read_error h
      · split at h <;> cases h
        · rename_i h'; exact CBuf.read_error h'
        · rename_i h'; exact CBuf.read_error h'

theorem Pool.sumGrains_error {prm : Params} {p : Pool} {acc : Sample} {gs : List Grain} {x : Cause}
    (h : Pool.sumGrains prm p acc gs = .error x) : x = .cbufReadRange := by
  induction gs generalizing acc with
  | nil => cases h
  | cons g gs ih =>
    unfold Pool.sumGrains at h
    split at h
    · split at h <;> cases h
      rename_i h'; exact ih h'
    · split at h
      · split at h <;> cases h
        rename_i h'; exact ih h'
      · split at h
        · cases h
          rename_i h'
          rcases Pool.grainRead_eq prm p g.tick.2.1 with ⟨_, e⟩ | ⟨_, e⟩ <;> exact CBuf.readInterp_error (e ▸ h')
        · split at h <;> cases h
          rename_i h'; exact ih h'

/-- A pool's tick faults with CBUF_READ_RANGE only (R235). -/
theorem Pool.tick_error {prm : Params} {p : Pool} {v : Sample} {x : Cause} (h : p.tick prm v = .error x) :
    x = .cbufReadRange := by
  unfold Pool.tick at h
  split at h
  · cases h
    rename_i h'
    unfold Pool.advanceCopy at h'
    split at h'
    · split at h' <;> cases h'
      rename_i h''; exact CBuf.read_error h''
    · cases h'
  · split at h <;> cases h
    rename_i h'; exact Pool.sumGrains_error h'

/-- A grain's construction faults with BAD_PARAMETER, or with FADE_EXCEEDS_DURATION where the fade is too long (R191). -/
theorem Grain.new_error {wait : U32} {offset : B32} {duration fade : U32} {reverse : Bool} {speed : B32} {x : Cause}
    (h : Grain.new wait offset duration fade reverse speed = .error x) :
    x = .badParameter ∨ (x = .fadeExceedsDuration ∧ duration.toNat < fade.toNat) := by
  rcases Grain.new_cases wait offset duration fade reverse speed with ⟨_, e⟩ | ⟨_, _, hd, e⟩ | ⟨_, _, _, e⟩ <;>
    rw [e] at h <;> cases h
  · exact .inl rfl
  · exact .inr ⟨rfl, hd⟩

/-- A schedule faults with BAD_PARAMETER exactly at a time that is not finite, and else with one of its other two (R270). -/
theorem evSchedule_error {α : Type} {cap : Nat} {q : EvQueue α} {time : B64} {e : α} {x : Cause}
    (h : evSchedule cap q time e = .error x) :
    (x = .badParameter ∧ finite64 time = false) ∨ (x = .schedNonMonotonic ∧ beforeLast q time = true)
      ∨ (x = .schedFull ∧ q.length = cap) := by
  rcases evSchedule_cases cap q time e with ⟨h1, e'⟩ | ⟨_, h1, e'⟩ | ⟨_, _, h1, e'⟩ | ⟨_, _, _, e'⟩ <;> rw [e'] at h <;> cases h
  · exact .inl ⟨rfl, h1⟩
  · exact .inr (.inl ⟨rfl, h1⟩)
  · exact .inr (.inr ⟨rfl, h1⟩)

theorem Lem.schedule_error {cap : Nat} {m : Lem} {time : B64} {e : LoopEvent} {x : Cause}
    (h : m.schedule cap time e = .error x) :
    (x = .badParameter ∧ finite64 time = false) ∨ (x = .schedNonMonotonic ∧ beforeLast m.q time = true)
      ∨ (x = .schedFull ∧ m.q.length = cap) := by
  rcases Lem.schedule_cases cap m time e with ⟨c, h1, e'⟩ | ⟨q, _, e'⟩ <;> rw [e'] at h <;> cases h
  exact evSchedule_error h1

/-- A schedule behind one entry that is not later, with room for both, faults only at a time that is not finite. -/
theorem Lem.schedule_second_error {cap : Nat} {m m' : Lem} {t₁ t₂ : B64} {e₁ e₂ : LoopEvent} {x : Cause} (hcap : 2 ≤ cap)
    (hq : m.q = []) (hlt : lt64 t₂ t₁ = false) (h₁ : m.schedule cap t₁ e₁ = .ok m')
    (h : m'.schedule cap t₂ e₂ = .error x) : x = .badParameter ∧ finite64 t₂ = false := by
  obtain ⟨rfl, _⟩ := Lem.schedule_ok h₁ (hq ▸ evQueueWf_nil cap)
  rcases Lem.schedule_error h with h | ⟨_, h⟩ | ⟨_, h⟩
  · exact h
  · simp [hq, beforeLast, hlt] at h
  · simp [hq] at h; omega

/-- A schedule on an empty queue faults only at a time that is not finite. -/
theorem Lem.schedule_first_error {cap : Nat} {m : Lem} {t : B64} {e : LoopEvent} {x : Cause} (hcap : 2 ≤ cap)
    (hq : m.q = []) (h : m.schedule cap t e = .error x) : x = .badParameter ∧ finite64 t = false := by
  rcases Lem.schedule_error h with h | ⟨_, h⟩ | ⟨_, h⟩
  · exact h
  · simp [hq, beforeLast] at h
  · simp [hq] at h; omega

theorem lt64_asymm {x y : B64} (h : lt64 x y = true) : lt64 y x = false := by
  simp only [lt64, Bool.and_eq_true, Bool.not_eq_true', decide_eq_true_eq] at h
  simp only [lt64, h, Bool.not_false, Bool.true_and, decide_eq_false_iff_not]
  omega

/-- Two schedules at one time, on whatever is pending. -/
theorem Lem.scheduleTwo_error {cap : Nat} {m : Lem} {t : B64} {e₁ e₂ : LoopEvent} {x : Cause}
    (h : m.scheduleTwo cap t e₁ e₂ = .error x) :
    (x = .badParameter ∧ finite64 t = false) ∨ x = .schedNonMonotonic ∨ x = .schedFull := by
  unfold Lem.scheduleTwo at h
  split at h
  · exact (Lem.schedule_error h).imp_right (Or.imp And.left And.left)
  · cases h
    rename_i h'
    exact (Lem.schedule_error h').imp_right (Or.imp And.left And.left)

/-- Two schedules at one time, on a queue that was cleared. -/
theorem Lem.scheduleTwo_empty_error {cap : Nat} {m : Lem} {t : B64} {e₁ e₂ : LoopEvent} {x : Cause} (hcap : 2 ≤ cap)
    (hq : m.q = []) (h : m.scheduleTwo cap t e₁ e₂ = .error x) : x = .badParameter ∧ finite64 t = false := by
  unfold Lem.scheduleTwo at h
  split at h
  · rename_i h'
    exact Lem.schedule_second_error hcap hq (lt64_irrefl t) h' h
  · cases h
    rename_i h'
    exact Lem.schedule_first_error hcap hq h'

/-- A start faults with the two of R293, or with the BAD_PARAMETER of R270 at a boundary that is not finite. -/
theorem Lem.startLooping_error {cap : Nat} {m : Lem} {x : Cause} (h : m.startLooping cap = .error x) :
    (x = .badParameter ∧ finite64 (ngb m.songTime m.grid m.lead) = false) ∨ x = .schedNonMonotonic ∨ x = .schedFull := by
  unfold Lem.startLooping at h
  split at h
  · cases h
  · exact Lem.scheduleTwo_error h

/-- A stop faults only with the BAD_PARAMETER of R270 at a boundary that is not finite. -/
theorem Lem.stopLooping_error {cap : Nat} {m : Lem} {x : Cause} (hcap : 2 ≤ cap) (h : m.stopLooping cap = .error x) :
    x = .badParameter ∧ finite64 (ngb m.songTime m.grid m.lead) = false := by
  unfold Lem.stopLooping at h
  split at h
  · cases h
  · exact Lem.scheduleTwo_empty_error hcap rfl h

/-- A grid edit faults with BAD_PARAMETER only (R295 to R298). -/
theorem Lem.setGridInterval_error {cap : Nat} {m : Lem} {new : B64} {x : Cause} (hcap : 2 ≤ cap)
    (h : m.setGridInterval cap new = .error x) : x = .badParameter := by
  unfold Lem.setGridInterval at h
  split at h
  · cases h; rfl
  · split at h
    · cases h
    · simp only at h
      split at h
      · exact (Lem.scheduleTwo_empty_error hcap rfl h).1
      · split at h
        · exact (Lem.scheduleTwo_empty_error hcap rfl h).1
        · unfold Lem.lengthen at h
          simp only at h
          split at h
          · rename_i hc
            split at h
            · rename_i h'
              refine (Lem.schedule_second_error hcap rfl ?_ h' h).1
              exact lt64_asymm (Bool.and_eq_true_iff.1 hc).2
            · cases h
              rename_i h'
              exact (Lem.schedule_first_error hcap rfl h').1
          · exact (Lem.schedule_first_error hcap rfl h).1

/-- A fade lead-in is refused with BAD_PARAMETER only (R299). -/
theorem Lem.setFadeInTime_error {m : Lem} {lead : B64} {x : Cause} (h : m.setFadeInTime lead = .error x) :
    x = .badParameter := by
  unfold Lem.setFadeInTime at h
  split at h <;> cases h
  rfl

theorem Lem.fire_error {cap : Nat} {st : B64} {m : Lem} {es : List LoopEvent} {x : Cause}
    (h : Lem.fire cap st m es = .error x) : x = .badParameter ∨ x = .schedNonMonotonic ∨ x = .schedFull := by
  induction es generalizing m with
  | nil => cases h
  | cons e es ih =>
    unfold Lem.fire at h
    split at h
    · split at h
      · cases h
        rename_i h'
        exact (Lem.schedule_error h').imp And.left (Or.imp And.left And.left)
      · split at h <;> cases h
        rename_i h'; exact ih h'
    · split at h <;> cases h
      rename_i h'; exact ih h'

/-- A LEM's tick faults with the four of R292. -/
theorem Lem.tick_error {cap : Nat} {m : Lem} {st : B64} {x : Cause} (h : m.tick cap st = .error x) :
    x = .badParameter ∨ x = .timeNotIncreasing ∨ x = .schedNonMonotonic ∨ x = .schedFull := by
  unfold Lem.tick at h
  split at h
  · cases h; exact .inl rfl
  · split at h
    · cases h; exact .inr (.inl rfl)
    · split at h
      · cases h
        rename_i h'
        rcases evTick_cases m.q st with ⟨_, e⟩ | ⟨_, e⟩ <;> rw [e] at h' <;> cases h'
        exact .inl rfl
      · exact (Lem.fire_error h).imp_right .inr

theorem Engine.beatsToSamples_error {e : Engine} {b : B64} {c x : Cause} (h : e.beatsToSamples b c = .error x) : x = c := by
  rcases e.beatsToSamples_cases b c with h' | ⟨_, _, _, h'⟩ <;> rw [h'] at h <;> cases h
  rfl

/-- A grain request faults with the three of R333: the fade of the grain it makes is within its duration. -/
theorem Engine.makeGrain_error {prm : Params} {e : Engine} {dur : B64} {red : Option B64} {x : Cause}
    (hL : prm.L ≤ 2 ^ 24) (hF : prm.F ≤ 2 ^ 24) (h : e.makeGrain prm dur red = .error x) :
    x = .loopTooLong ∨ x = .badParameter ∨ x = .fadeTooLong := by
  unfold Engine.makeGrain at h
  split at h
  · cases h
    rename_i h'; exact .inl (Engine.beatsToSamples_error h')
  · split at h
    · cases h; exact .inl rfl
    · split at h
      · cases h
        rename_i h'; exact .inr (.inr (Engine.beatsToSamples_error h'))
      · split at h
        · cases h; exact .inr (.inr rfl)
        · rcases Grain.new_error h with rfl | ⟨_, hd⟩
          · exact .inr (.inl rfl)
          · rw [BitVec.toNat_add, Nat.mod_eq_of_lt (by omega)] at hd
            omega

theorem Engine.fadeDry_error {e : Engine} {level : B32} {x : Cause} (h : e.fadeDry level = .error x) : x = .fadeTooLong := by
  unfold Engine.fadeDry at h
  split at h <;> cases h
  rename_i h'
  exact Engine.beatsToSamples_error h'

/-- The processing of an event faults with the three of R333 and R335. -/
theorem Engine.process_error {prm : Params} {e : Engine} {ev : LoopEvent} {x : Cause} (hL : prm.L ≤ 2 ^ 24)
    (hF : prm.F ≤ 2 ^ 24) (h : e.process prm ev = .error x) : x = .loopTooLong ∨ x = .badParameter ∨ x = .fadeTooLong := by
  unfold Engine.process at h
  cases hk : ev.kind <;> rw [hk] at h <;> simp only at h
  · rcases e.requestGrain_cases prm ev.dur none with ⟨c, h1, e1⟩ | ⟨g, _, _, e1⟩ <;> rw [e1] at h <;> cases h
    exact Engine.makeGrain_error hL hF h1
  · rcases e.requestGrain_cases prm ev.dur (some ev.red) with ⟨c, h1, e1⟩ | ⟨g, _, _, e1⟩ <;> rw [e1] at h <;> cases h
    exact Engine.makeGrain_error hL hF h1
  · cases h
  · exact .inr (.inr (Engine.fadeDry_error h))
  · exact .inr (.inr (Engine.fadeDry_error h))
  · cases h

theorem Engine.processAll_error {prm : Params} {e : Engine} {evs : List LoopEvent} {x : Cause} (hL : prm.L ≤ 2 ^ 24)
    (hF : prm.F ≤ 2 ^ 24) (h : Engine.processAll prm e evs = .error x) :
    x = .loopTooLong ∨ x = .badParameter ∨ x = .fadeTooLong := by
  induction evs generalizing e with
  | nil => cases h
  | cons ev evs ih =>
    unfold Engine.processAll at h
    split at h
    · exact ih h
    · cases h
      rename_i h'; exact Engine.process_error hL hF h'

/-- E.TICK faults with no cause outside its row of R382: FADE_EXCEEDS_DURATION is unreachable. -/
theorem Engine.tick_error {prm : Params} {e : Engine} {v : Sample} {t : B64} {x : Cause} (hL : prm.L ≤ 2 ^ 24)
    (hF : prm.F ≤ 2 ^ 24) (h : e.tick prm v t = .error x) : x ≠ .illegalCommand ∧ x ≠ .fadeExceedsDuration := by
  unfold Engine.tick at h
  split at h
  · cases h
    rename_i h'; rcases Lem.tick_error h' with rfl | rfl | rfl | rfl <;> simp
  · split at h
    · cases h
      rename_i h'; rcases Engine.processAll_error hL hF h' with rfl | rfl | rfl <;> simp
    · split at h
      · cases h
        rename_i h'; rw [Pool.tick_error h']; simp
      · cases h

end Sys2Proof.Machine
end

