-- ==== Sys2Proof/Laws/Decode.lean ====
section
/-! SUPPORT. What the decoder can do (spec/30_encoding.md R121), and the fields of a transaction. -/

namespace Sys2Proof

@[simp] theorem Transaction.unit_mk (cw : CmdWord) (a b k : Word64) :
    (Transaction.mk cw a b k).unit = cw.extractLsb' 28 4 := rfl
@[simp] theorem Transaction.op_mk (cw : CmdWord) (a b k : Word64) :
    (Transaction.mk cw a b k).op = cw.extractLsb' 24 4 := rfl
@[simp] theorem Transaction.rsv_mk (cw : CmdWord) (a b k : Word64) :
    (Transaction.mk cw a b k).rsv = cw.extractLsb' 16 8 := rfl
@[simp] theorem Transaction.imm_mk (cw : CmdWord) (a b k : Word64) :
    (Transaction.mk cw a b k).imm = cw.extractLsb' 0 16 := rfl

/-- EVERYTHING THE DECODER CAN ANSWER: one of its four errors, in the order of R121, or the command its row builds. -/
theorem decode_cases (k : Kind) (t : Transaction) :
    (t.unit ≠ k.code ∧ decode k t = .error .wrongUnit) ∨
    (t.unit = k.code ∧ opRow t.unit t.op = none ∧ decode k t = .error .unknownOp) ∨
    ∃ r, t.unit = k.code ∧ opRow t.unit t.op = some r ∧
      ((t.rsv ≠ 0 ∧ decode k t = .error .reservedNonzero) ∨
       (t.rsv = 0 ∧ t.imm &&& ~~~r.immMask ≠ 0 ∧ decode k t = .error .immediateNonzero) ∨
       (t.rsv = 0 ∧ t.imm &&& ~~~r.immMask = 0 ∧ decode k t = .ok (r.build t))) := by
  unfold decode
  by_cases h1 : t.unit = k.code
  · cases h2 : opRow t.unit t.op with
    | none => exact .inr (.inl ⟨h1, rfl, by simp [h1]⟩)
    | some r =>
      refine .inr (.inr ⟨r, h1, rfl, ?_⟩)
      by_cases h3 : t.rsv = 0
      · by_cases h4 : t.imm &&& ~~~r.immMask = 0
        · exact .inr (.inr ⟨h3, h4, by simp only [h1, h3, h4, ne_eq, not_true, if_false]⟩)
        · exact .inr (.inl ⟨h3, h4, by simp only [h1, h3, h4, ne_eq, not_true, not_false_iff, if_false, if_true]⟩)
      · exact .inl ⟨h3, by simp only [h1, h3, ne_eq, not_true, not_false_iff, if_false, if_true]⟩
  · exact .inl ⟨h1, by simp [h1]⟩

/-- The decoder's answer for a word whose fields are known. -/
theorem decode_of_row {k : Kind} {t : Transaction} {r : OpRow} (hu : t.unit = k.code) (hr : opRow t.unit t.op = some r)
    (hs : t.rsv = 0) (hi : t.imm &&& ~~~r.immMask = 0) : decode k t = .ok (r.build t) := by
  rcases decode_cases k t with ⟨h, _⟩ | ⟨_, h, _⟩ | ⟨r', _, h, h'⟩
  · exact absurd hu h
  · rw [hr] at h; cases h
  · rw [hr] at h
    cases h
    rcases h' with ⟨h, _⟩ | ⟨_, h, _⟩ | ⟨_, _, h⟩
    · exact absurd hs h
    · exact absurd hi h
    · exact h

/-- A written-out command word decodes to what its row builds: with `cw` closed, each hypothesis but the last is closed by `rfl` or
`decide`. -/
theorem encodes_of_row {k : Kind} {cw : CmdWord} {f : Word64 → Word64 → Word64 → Instr} (o : BitVec 4) (m : BitVec 16)
    {r : OpRow} (hu : cw.extractLsb' 28 4 = k.code) (ho : cw.extractLsb' 24 4 = o) (hr : opRow k.code o = some r)
    (hm : r.immMask = m) (hs : cw.extractLsb' 16 8 = 0) (hi : cw.extractLsb' 0 16 &&& ~~~m = 0)
    (hf : ∀ a b x : Word64, r.build ⟨cw, a, b, x⟩ = f a b x) : Machine.Encodes k cw f := by
  intro a b x
  subst hm
  rw [← hf]
  exact decode_of_row (t := ⟨cw, a, b, x⟩) hu (by simp [hu, ho, hr]) hs hi

/-- The halves of an operand word, by arithmetic. -/
theorem lowHalf_eq_lowWord (w : Word64) : lowHalf w = Machine.lowWord w := by
  apply BitVec.eq_of_toNat_eq
  simp [lowHalf, Machine.lowWord]

theorem highHalf_eq_highWord (w : Word64) : highHalf w = Machine.highWord w := by
  apply BitVec.eq_of_toNat_eq
  simp [highHalf, Machine.highWord, Nat.shiftRight_eq_div_pow]

/-- A row of the opcode map is found under its own codes. -/
theorem opRow_eq_some {u o : BitVec 4} {r : OpRow} (h : opRow u o = some r) : r ∈ opTable ∧ r.kind.code = u ∧ r.op = o := by
  have h1 := List.find?_some h
  simp only [Bool.and_eq_true, beq_iff_eq] at h1
  exact ⟨List.mem_of_find?_eq_some h, h1⟩

/-- Two halves as a number. -/
theorem halves_toNat (hi lo : BitVec 32) : (halves hi lo).toNat = hi.toNat * 2 ^ 32 + lo.toNat := by
  unfold halves
  rw [BitVec.toNat_append, ← Nat.shiftLeft_add_eq_or_of_lt lo.isLt, Nat.shiftLeft_eq]

/-- The low half of two halves, and the high half. -/
@[simp] theorem lowHalf_halves (hi lo : BitVec 32) : lowHalf (halves hi lo) = lo := by
  apply BitVec.eq_of_toNat_eq
  have h1 := hi.isLt
  have h2 := lo.isLt
  simp only [lowHalf, BitVec.extractLsb'_toNat, halves_toNat, Nat.shiftRight_zero]
  omega

@[simp] theorem highHalf_halves (hi lo : BitVec 32) : highHalf (halves hi lo) = hi := by
  apply BitVec.eq_of_toNat_eq
  have h1 := hi.isLt
  have h2 := lo.isLt
  simp only [highHalf, BitVec.extractLsb'_toNat, halves_toNat, Nat.shiftRight_eq_div_pow]
  omega

/-- Bytes written and read back, the least significant first (R90). -/
theorem ofLeBytes_leBytes (n w : Nat) : ofLeBytes (leBytes n w) = w % 256 ^ n := by
  induction n generalizing w with
  | zero => simp [leBytes, ofLeBytes, Nat.mod_one]
  | succ n ih =>
    have h8 : (BitVec.ofNat 8 w).toNat = w % 256 := rfl
    rw [leBytes, ofLeBytes, ih, h8, Nat.pow_succ', Nat.mod_mul]

@[simp] theorem leBytes_length (n w : Nat) : (leBytes n w).length = n := by
  induction n generalizing w with
  | zero => rfl
  | succ n ih => simp [leBytes, ih]

end Sys2Proof
end

