-- ==== Sys2Proof/Laws/PerInstr.lean ====
section
/-! SUPPORT. The command word of every command: its fields are the unit and operation codes of the opcode map, RSV is zero, and no
immediate bit outside the command's mask is set (spec/30_encoding.md R112 to R115, R121). -/

namespace Sys2Proof.Laws

/-- The command word of `i` carries its unit, its operation and its immediate in their fields and nothing else, and the opcode map
has its row. -/
def CommandWord.Statement (i : Instr) : Prop :=
  (encode i).unit = i.kind.code ∧ (encode i).op = i.op ∧ (encode i).rsv = 0 ∧ (encode i).imm = i.imm ∧
    ∃ r, opRow i.kind.code i.op = some r ∧ i.imm &&& ~~~r.immMask = 0 ∧ r.zeroWords = i.zeroWords

/-- The four fields of a word put together from them. -/
theorem commandWord_fields (u o : BitVec 4) (m : BitVec 16) :
    ((u ++ o ++ (0 : BitVec 8) ++ m : CmdWord).extractLsb' 28 4 = u) ∧
    ((u ++ o ++ (0 : BitVec 8) ++ m : CmdWord).extractLsb' 24 4 = o) ∧
    ((u ++ o ++ (0 : BitVec 8) ++ m : CmdWord).extractLsb' 16 8 = 0) ∧
    ((u ++ o ++ (0 : BitVec 8) ++ m : CmdWord).extractLsb' 0 16 = m) := by
  refine ⟨?_, ?_, ?_, ?_⟩ <;> ext j hj <;>
    simp only [BitVec.getElem_extractLsb', BitVec.getLsbD_append]
  · rw [if_neg (by omega), if_neg (by omega), if_neg (by omega)]
    simp [show 28 + j - 16 - 8 - 4 = j by omega, BitVec.getLsbD_eq_getElem hj]
  · rw [if_neg (by omega), if_neg (by omega), if_pos (by omega)]
    simp [show 24 + j - 16 - 8 = j by omega, BitVec.getLsbD_eq_getElem hj]
  · rw [if_neg (by omega), if_pos (by omega)]
    simp
  · rw [if_pos (by omega)]
    simp [BitVec.getLsbD_eq_getElem hj]

/-- One lemma for the 46: what is left of a command is its row. -/
theorem commandWord_of_row (i : Instr) (r : OpRow) (hr : opRow i.kind.code i.op = some r)
    (hm : i.imm &&& ~~~r.immMask = 0) : CommandWord.Statement i := by
  obtain ⟨h1, h2, h3, h4⟩ := commandWord_fields i.kind.code i.op i.imm
  exact ⟨h1, h2, h3, h4, r, hr, hm, by simp [Instr.zeroWords, hr]⟩

theorem zero_mask (m : BitVec 16) : 0 &&& m = 0 := BitVec.zero_and

theorem bool_mask (b : Bool) : (BitVec.setWidth 16 (BitVec.ofBool b)) &&& ~~~(0x0001 : BitVec 16) = 0 := by
  cases b <;> rfl

theorem byte_mask (r : BitVec 8) : (BitVec.setWidth 16 r) &&& ~~~(0x00FF : BitVec 16) = 0 := by
  revert r; decide +kernel

namespace CommandWord

theorem eTick (beatTime : B64) (input : Word64) : Statement (.eTick beatTime input) :=
  commandWord_of_row _ _ rfl (zero_mask _)
theorem eSetGrid (beats : B64) : Statement (.eSetGrid beats) :=
  commandWord_of_row _ _ rfl (zero_mask _)
theorem eSetLoopOffset (beats : B64) : Statement (.eSetLoopOffset beats) :=
  commandWord_of_row _ _ rfl (zero_mask _)
theorem eSetFadeTime (beats : B64) : Statement (.eSetFadeTime beats) :=
  commandWord_of_row _ _ rfl (zero_mask _)
theorem eSetTempo (bpm : B64) : Statement (.eSetTempo bpm) :=
  commandWord_of_row _ _ rfl (zero_mask _)
theorem eSetSampleRate (hz : B64) : Statement (.eSetSampleRate hz) :=
  commandWord_of_row _ _ rfl (zero_mask _)
theorem eSetReverse (r : Bool) : Statement (.eSetReverse r) :=
  commandWord_of_row _ _ rfl (bool_mask r)
theorem eSetSpeed (factor : B32) : Statement (.eSetSpeed factor) :=
  commandWord_of_row _ _ rfl (zero_mask _)
theorem eStartLooping : Statement .eStartLooping :=
  commandWord_of_row _ _ rfl (zero_mask _)
theorem eStopLooping : Statement .eStopLooping :=
  commandWord_of_row _ _ rfl (zero_mask _)
theorem eReset : Statement .eReset :=
  commandWord_of_row _ _ rfl (zero_mask _)
theorem eReadReg (reg : BitVec 8) : Statement (.eReadReg reg) :=
  commandWord_of_row _ _ rfl (byte_mask reg)
theorem cbTick (v : Word64) : Statement (.cbTick v) :=
  commandWord_of_row _ _ rfl (zero_mask _)
theorem cbRead (d : U32) : Statement (.cbRead d) :=
  commandWord_of_row _ _ rfl (zero_mask _)
theorem cbReadInterp (d : B32) : Statement (.cbReadInterp d) :=
  commandWord_of_row _ _ rfl (zero_mask _)
theorem cbReset : Statement .cbReset :=
  commandWord_of_row _ _ rfl (zero_mask _)
theorem rvSet (v : B32) : Statement (.rvSet v) :=
  commandWord_of_row _ _ rfl (zero_mask _)
theorem rvRamp (target : B32) (n : U32) : Statement (.rvRamp target n) :=
  commandWord_of_row _ _ rfl (zero_mask _)
theorem rvTick : Statement .rvTick :=
  commandWord_of_row _ _ rfl (zero_mask _)
theorem grNew (wait duration : U32) (offset speed : B32) (fade : U32) (reverse : Bool) : Statement (.grNew wait duration offset speed fade reverse) :=
  commandWord_of_row _ _ rfl (bool_mask reverse)
theorem grTick : Statement .grTick :=
  commandWord_of_row _ _ rfl (zero_mask _)
theorem grStop : Statement .grStop :=
  commandWord_of_row _ _ rfl (zero_mask _)
theorem grIsFinished : Statement .grIsFinished :=
  commandWord_of_row _ _ rfl (zero_mask _)
theorem grIsWaiting : Statement .grIsWaiting :=
  commandWord_of_row _ _ rfl (zero_mask _)
theorem grIsPlaying : Statement .grIsPlaying :=
  commandWord_of_row _ _ rfl (zero_mask _)
theorem grIsFadingIn : Statement .grIsFadingIn :=
  commandWord_of_row _ _ rfl (zero_mask _)
theorem grIsFadingOut : Statement .grIsFadingOut :=
  commandWord_of_row _ _ rfl (zero_mask _)
theorem gpSchedule (wait duration : U32) (offset speed : B32) (fade : U32) (reverse : Bool) : Statement (.gpSchedule wait duration offset speed fade reverse) :=
  commandWord_of_row _ _ rfl (bool_mask reverse)
theorem gpStartLooping : Statement .gpStartLooping :=
  commandWord_of_row _ _ rfl (zero_mask _)
theorem gpStopLooping : Statement .gpStopLooping :=
  commandWord_of_row _ _ rfl (zero_mask _)
theorem gpTick (input : Word64) : Statement (.gpTick input) :=
  commandWord_of_row _ _ rfl (zero_mask _)
theorem gpStopAll : Statement .gpStopAll :=
  commandWord_of_row _ _ rfl (zero_mask _)
theorem gpCountPlaying : Statement .gpCountPlaying :=
  commandWord_of_row _ _ rfl (zero_mask _)
theorem gpCountWaiting : Statement .gpCountWaiting :=
  commandWord_of_row _ _ rfl (zero_mask _)
theorem gpCountFinished : Statement .gpCountFinished :=
  commandWord_of_row _ _ rfl (zero_mask _)
theorem gpMostRecent : Statement .gpMostRecent :=
  commandWord_of_row _ _ rfl (zero_mask _)
theorem gpReset : Statement .gpReset :=
  commandWord_of_row _ _ rfl (zero_mask _)
theorem esSchedule (time : B64) (payload : Word64) : Statement (.esSchedule time payload) :=
  commandWord_of_row _ _ rfl (zero_mask _)
theorem esTick (now : B64) : Statement (.esTick now) :=
  commandWord_of_row _ _ rfl (zero_mask _)
theorem esClear : Statement .esClear :=
  commandWord_of_row _ _ rfl (zero_mask _)
theorem lmStartLooping : Statement .lmStartLooping :=
  commandWord_of_row _ _ rfl (zero_mask _)
theorem lmStopLooping : Statement .lmStopLooping :=
  commandWord_of_row _ _ rfl (zero_mask _)
theorem lmSetGridInterval (new : B64) : Statement (.lmSetGridInterval new) :=
  commandWord_of_row _ _ rfl (zero_mask _)
theorem lmTick (songTime : B64) : Statement (.lmTick songTime) :=
  commandWord_of_row _ _ rfl (zero_mask _)
theorem lmSetFadeInTime (lead : B64) : Statement (.lmSetFadeInTime lead) :=
  commandWord_of_row _ _ rfl (zero_mask _)
theorem lmReset : Statement .lmReset :=
  commandWord_of_row _ _ rfl (zero_mask _)

end CommandWord

end Sys2Proof.Laws
end

