-- ==== Sys2Proof/Machine/Assembler.lean ====
section
/-! DEFINITION. The assembly syntax of spec/30_encoding.md R122, as data: the mnemonic of a command and its named operands in the
order written, and the encoding of a floating literal. -/

namespace Sys2Proof.Machine

/-- The value of a named operand, by the format it is written and encoded in (R116, R122). -/
inductive AsmValue where
  | int (n : Nat)
  | float32 (x : B32)
  | float64 (x : B64)
  | sample (w : Word64)
deriving DecidableEq, Repr

/-- The mnemonic of a command (R114). -/
def Instr.mnemonic : Instr → String
  | .eTick _ _ => "E.TICK"
  | .eSetGrid _ => "E.SET_GRID"
  | .eSetLoopOffset _ => "E.SET_LOOP_OFFSET"
  | .eSetFadeTime _ => "E.SET_FADE_TIME"
  | .eSetTempo _ => "E.SET_TEMPO"
  | .eSetSampleRate _ => "E.SET_SAMPLE_RATE"
  | .eSetReverse _ => "E.SET_REVERSE"
  | .eSetSpeed _ => "E.SET_SPEED"
  | .eStartLooping => "E.START_LOOPING"
  | .eStopLooping => "E.STOP_LOOPING"
  | .eReset => "E.RESET"
  | .eReadReg _ => "E.READ_REG"
  | .cbTick _ => "CB.TICK"
  | .cbRead _ => "CB.READ"
  | .cbReadInterp _ => "CB.READ_INTERP"
  | .cbReset => "CB.RESET"
  | .rvSet _ => "RV.SET"
  | .rvRamp _ _ => "RV.RAMP"
  | .rvTick => "RV.TICK"
  | .grNew _ _ _ _ _ _ => "GR.NEW"
  | .grTick => "GR.TICK"
  | .grStop => "GR.STOP"
  | .grIsFinished => "GR.IS_FINISHED"
  | .grIsWaiting => "GR.IS_WAITING"
  | .grIsPlaying => "GR.IS_PLAYING"
  | .grIsFadingIn => "GR.IS_FADING_IN"
  | .grIsFadingOut => "GR.IS_FADING_OUT"
  | .gpSchedule _ _ _ _ _ _ => "GP.SCHEDULE"
  | .gpStartLooping => "GP.START_LOOPING"
  | .gpStopLooping => "GP.STOP_LOOPING"
  | .gpTick _ => "GP.TICK"
  | .gpStopAll => "GP.STOP_ALL"
  | .gpCountPlaying => "GP.COUNT_PLAYING"
  | .gpCountWaiting => "GP.COUNT_WAITING"
  | .gpCountFinished => "GP.COUNT_FINISHED"
  | .gpMostRecent => "GP.MOST_RECENT"
  | .gpReset => "GP.RESET"
  | .esSchedule _ _ => "ES.SCHEDULE"
  | .esTick _ => "ES.TICK"
  | .esClear => "ES.CLEAR"
  | .lmStartLooping => "LM.START_LOOPING"
  | .lmStopLooping => "LM.STOP_LOOPING"
  | .lmSetGridInterval _ => "LM.SET_GRID_INTERVAL"
  | .lmTick _ => "LM.TICK"
  | .lmSetFadeInTime _ => "LM.SET_FADE_IN_TIME"
  | .lmReset => "LM.RESET"

/-- The operands of GR.NEW and GP.SCHEDULE (R122). -/
def grainAsm (wait duration : U32) (offset speed : B32) (fade : U32) (reverse : Bool) : List (String × AsmValue) :=
  [("wait", .int wait.toNat), ("dur", .int duration.toNat), ("fade", .int fade.toNat), ("off", .float32 offset),
    ("speed", .float32 speed), ("rev", .int reverse.toNat)]

/-- The named operands of a command, in the order written (R122). -/
def Instr.asmOperands : Instr → List (String × AsmValue)
  | .eTick t input => [("t", .float64 t), ("in", .sample input)]
  | .eSetGrid x | .eSetLoopOffset x | .eSetFadeTime x | .eSetTempo x | .eSetSampleRate x => [("v", .float64 x)]
  | .eSetReverse r => [("r", .int r.toNat)]
  | .eSetSpeed x => [("v", .float32 x)]
  | .eReadReg reg => [("reg", .int reg.toNat)]
  | .cbTick v => [("v", .sample v)]
  | .cbRead d => [("d", .int d.toNat)]
  | .cbReadInterp d => [("d", .float32 d)]
  | .rvSet v => [("v", .float32 v)]
  | .rvRamp target n => [("target", .float32 target), ("n", .int n.toNat)]
  | .grNew wait duration offset speed fade reverse => grainAsm wait duration offset speed fade reverse
  | .gpSchedule wait duration offset speed fade reverse => grainAsm wait duration offset speed fade reverse
  | .gpTick input => [("in", .sample input)]
  | .esSchedule time payload => [("time", .float64 time), ("payload", .int payload.toNat)]
  | .esTick now => [("now", .float64 now)]
  | .lmSetGridInterval x | .lmSetFadeInTime x => [("v", .float64 x)]
  | .lmTick t => [("t", .float64 t)]
  | .eStartLooping | .eStopLooping | .eReset | .cbReset | .rvTick | .grTick | .grStop | .grIsFinished | .grIsWaiting
  | .grIsPlaying | .grIsFadingIn | .grIsFadingOut | .gpStartLooping | .gpStopLooping | .gpStopAll | .gpCountPlaying
  | .gpCountWaiting | .gpCountFinished | .gpMostRecent | .gpReset | .esClear | .lmStartLooping | .lmStopLooping
  | .lmReset => []

/-- A floating literal of value `±num/den` (`den > 0`), rounded to binary32 (R122). -/
def literal32 (neg : Bool) (num den : Nat) : B32 := pack32 ⟨neg, roundMag fmt32 (num * 2 ^ fmt32.scale) den⟩
/-- A floating literal of value `±num/den` (`den > 0`), rounded to binary64 (R122). -/
def literal64 (neg : Bool) (num den : Nat) : B64 := pack64 ⟨neg, roundMag fmt64 (num * 2 ^ fmt64.scale) den⟩

end Sys2Proof.Machine
end

