-- ==== Sys2Proof/Tests/Slice0.lean ====
section
/-! SUPPORT. Tests: well-formedness, the decoding of written-out words, one step of each command on values of the spec, and a state
and operands that meet the hypotheses of each obligation. Expected values are the spec's (the rule or vector each test names). -/

namespace Sys2Proof.Tests

open Sys2Proof Sys2Proof.Machine

set_option Elab.async false

/-- Small construction parameters, all within R6. -/
def prm : Params := { C := 1, N := 4, R := 8, L := 3, M := 1, G := 2, Q := 4, F := 10 }
/-- An instance built as `u`, not faulted, with nothing presented. -/
def ready (u : UnitState) : State := ⟨prm, powerOnFault, u, [], none⟩
/-- The same after a fault. -/
def faulted (u : UnitState) : State := { ready u with fault := ⟨true, 2, 1, 1⟩ }
/-- With these commands presented. -/
def given (is : List Instr) (s : State) : State := { s with port := presenting is }
/-- What a command returns. -/
def returned (i : Instr) (s : State) : Option Response :=
  match exec i s with
  | .next t => t.resp
  | _ => none
/-- The unit after a command. -/
def unitAfter (i : Instr) (s : State) : Option UnitState :=
  match exec i s with
  | .next t => some t.unit
  | _ => none
/-- The fault register after a command. -/
def faultAfter (i : Instr) (s : State) : Option FaultReg :=
  match exec i s with
  | .next t => some t.fault
  | _ => none
/-- The state a command leaves. -/
def after (i : Instr) (s : State) : State :=
  match exec i s with
  | .next t => t
  | _ => s
/-- The event queue of a LEM after a command. -/
def queueAfter (i : Instr) (m : Lem) : Option (EvQueue LoopEvent) :=
  match unitAfter i (ready (.lem m)) with
  | some (.lem m') => some m'.q
  | _ => none

/-! ### WellFormed: one ill-formed term for each check -/

theorem test_wellFormed_unit : Instr.WellFormed .cbuf (.cbRead 3) ∧ ¬ Instr.WellFormed .engine (.cbRead 3) := by decide
theorem test_valid_prm : ∀ k ∈ [Kind.engine, .cbuf, .ramp, .grain, .pool, .evsched, .lem], prm.Valid k := by decide +kernel
theorem test_illformed_C : ¬ Params.Valid { prm with C := 3 } .cbuf := by decide +kernel
theorem test_illformed_N : ¬ Params.Valid { prm with N := 0 } .cbuf := by decide +kernel
theorem test_illformed_R : ¬ Params.Valid { prm with R := 3 } .pool := by decide +kernel
theorem test_illformed_L : ¬ Params.Valid { prm with L := 0 } .pool := by decide +kernel
theorem test_illformed_S : ¬ Params.Valid { prm with M := 2 ^ 24 } .pool := by decide +kernel
theorem test_illformed_G : ¬ Params.Valid { prm with G := 257 } .engine := by decide +kernel
theorem test_illformed_Q : ¬ Params.Valid { prm with Q := 3 } .evsched := by decide +kernel
theorem test_illformed_F : ¬ Params.Valid { prm with F := 2 ^ 24 + 1 } .engine := by decide +kernel
theorem test_construct_refuses : construct { prm with Q := 256 } .lem = .error .illegalConstruction := by decide +kernel

/-! ### Decoding: the word of every row of R114, written out, and V-ENC with its operand words -/

theorem test_decode_eTick : decodeTableWord 32 0x00000000 = some (.eTick 0 0) := by decide +kernel
theorem test_decode_eSetGrid : decodeTableWord 32 0x01000000 = some (.eSetGrid 0) := by decide +kernel
theorem test_decode_eSetLoopOffset : decodeTableWord 32 0x02000000 = some (.eSetLoopOffset 0) := by decide +kernel
theorem test_decode_eSetFadeTime : decodeTableWord 32 0x03000000 = some (.eSetFadeTime 0) := by decide +kernel
theorem test_decode_eSetTempo : decodeTableWord 32 0x04000000 = some (.eSetTempo 0) := by decide +kernel
theorem test_decode_eSetSampleRate : decodeTableWord 32 0x05000000 = some (.eSetSampleRate 0) := by decide +kernel
theorem test_decode_eSetReverse : decodeTableWord 32 0x06000001 = some (.eSetReverse true) := by decide +kernel
theorem test_decode_eSetSpeed : decodeTableWord 32 0x07000000 = some (.eSetSpeed 0) := by decide +kernel
theorem test_decode_eStartLooping : decodeTableWord 32 0x08000000 = some (.eStartLooping) := by decide +kernel
theorem test_decode_eStopLooping : decodeTableWord 32 0x09000000 = some (.eStopLooping) := by decide +kernel
theorem test_decode_eReset : decodeTableWord 32 0x0A000000 = some (.eReset) := by decide +kernel
theorem test_decode_eReadReg : decodeTableWord 32 0x0B00000E = some (.eReadReg 0x0E) := by decide +kernel
theorem test_decode_cbTick : decodeTableWord 32 0x10000000 = some (.cbTick 0) := by decide +kernel
theorem test_decode_cbRead : decodeTableWord 32 0x11000000 = some (.cbRead 0) := by decide +kernel
theorem test_decode_cbReadInterp : decodeTableWord 32 0x12000000 = some (.cbReadInterp 0) := by decide +kernel
theorem test_decode_cbReset : decodeTableWord 32 0x13000000 = some (.cbReset) := by decide +kernel
theorem test_decode_rvSet : decodeTableWord 32 0x20000000 = some (.rvSet 0) := by decide +kernel
theorem test_decode_rvRamp : decodeTableWord 32 0x21000000 = some (.rvRamp 0 0) := by decide +kernel
theorem test_decode_rvTick : decodeTableWord 32 0x22000000 = some (.rvTick) := by decide +kernel
theorem test_decode_grNew : decodeTableWord 32 0x30000001 = some (.grNew 0 0 0 0 0 true) := by decide +kernel
theorem test_decode_grTick : decodeTableWord 32 0x31000000 = some (.grTick) := by decide +kernel
theorem test_decode_grStop : decodeTableWord 32 0x32000000 = some (.grStop) := by decide +kernel
theorem test_decode_grIsFinished : decodeTableWord 32 0x33000000 = some (.grIsFinished) := by decide +kernel
theorem test_decode_grIsWaiting : decodeTableWord 32 0x34000000 = some (.grIsWaiting) := by decide +kernel
theorem test_decode_grIsPlaying : decodeTableWord 32 0x35000000 = some (.grIsPlaying) := by decide +kernel
theorem test_decode_grIsFadingIn : decodeTableWord 32 0x36000000 = some (.grIsFadingIn) := by decide +kernel
theorem test_decode_grIsFadingOut : decodeTableWord 32 0x37000000 = some (.grIsFadingOut) := by decide +kernel
theorem test_decode_gpSchedule : decodeTableWord 32 0x40000000 = some (.gpSchedule 0 0 0 0 0 false) := by decide +kernel
theorem test_decode_gpStartLooping : decodeTableWord 32 0x41000000 = some (.gpStartLooping) := by decide +kernel
theorem test_decode_gpStopLooping : decodeTableWord 32 0x42000000 = some (.gpStopLooping) := by decide +kernel
theorem test_decode_gpTick : decodeTableWord 32 0x43000000 = some (.gpTick 0) := by decide +kernel
theorem test_decode_gpStopAll : decodeTableWord 32 0x44000000 = some (.gpStopAll) := by decide +kernel
theorem test_decode_gpCountPlaying : decodeTableWord 32 0x45000000 = some (.gpCountPlaying) := by decide +kernel
theorem test_decode_gpCountWaiting : decodeTableWord 32 0x46000000 = some (.gpCountWaiting) := by decide +kernel
theorem test_decode_gpCountFinished : decodeTableWord 32 0x47000000 = some (.gpCountFinished) := by decide +kernel
theorem test_decode_gpMostRecent : decodeTableWord 32 0x48000000 = some (.gpMostRecent) := by decide +kernel
theorem test_decode_gpReset : decodeTableWord 32 0x49000000 = some (.gpReset) := by decide +kernel
theorem test_decode_esSchedule : decodeTableWord 32 0x50000000 = some (.esSchedule 0 0) := by decide +kernel
theorem test_decode_esTick : decodeTableWord 32 0x51000000 = some (.esTick 0) := by decide +kernel
theorem test_decode_esClear : decodeTableWord 32 0x52000000 = some (.esClear) := by decide +kernel
theorem test_decode_lmStartLooping : decodeTableWord 32 0x60000000 = some (.lmStartLooping) := by decide +kernel
theorem test_decode_lmStopLooping : decodeTableWord 32 0x61000000 = some (.lmStopLooping) := by decide +kernel
theorem test_decode_lmSetGridInterval : decodeTableWord 32 0x62000000 = some (.lmSetGridInterval 0) := by decide +kernel
theorem test_decode_lmTick : decodeTableWord 32 0x63000000 = some (.lmTick 0) := by decide +kernel
theorem test_decode_lmSetFadeInTime : decodeTableWord 32 0x64000000 = some (.lmSetFadeInTime 0) := by decide +kernel
theorem test_decode_lmReset : decodeTableWord 32 0x65000000 = some (.lmReset) := by decide +kernel

/-- V-ENC (spec/95_test_vectors.md): the layouts of the operand words. -/
theorem test_vENC_engine :
    decode .engine ⟨0x00000000, 0x3FE0000000000000, 0x0000000041700000, 0⟩ = .ok (.eTick 0x3FE0000000000000 0x41700000) ∧
    decode .engine ⟨0x01000000, 0x3FE0000000000000, 0, 0⟩ = .ok (.eSetGrid 0x3FE0000000000000) ∧
    decode .engine ⟨0x07000000, 0x000000003F000000, 0, 0⟩ = .ok (.eSetSpeed 0x3F000000) ∧
    decode .engine ⟨0x0B00000E, 0, 0, 0⟩ = .ok (.eReadReg 0x0E) := by decide +kernel
theorem test_vENC_cbuf :
    decode .cbuf ⟨0x10000000, 0, 0x00000000C0200000, 0⟩ = .ok (.cbTick 0xC0200000) ∧
    decode .cbuf ⟨0x11000000, 3, 0, 0⟩ = .ok (.cbRead 3) ∧
    decode .cbuf ⟨0x12000000, 0x0000000040100000, 0, 0⟩ = .ok (.cbReadInterp 0x40100000) := by decide +kernel
theorem test_vENC_ramp :
    decode .ramp ⟨0x20000000, 0x000000003F000000, 0, 0⟩ = .ok (.rvSet 0x3F000000) ∧
    decode .ramp ⟨0x21000000, 0x000000033F800000, 0, 0⟩ = .ok (.rvRamp 0x3F800000 3) := by decide +kernel
theorem test_vENC_grain : decode .grain ⟨0x30000000, 0x0000000600000000, 0x3F80000040A00000, 2⟩ =
    .ok (.grNew 0 6 0x40A00000 0x3F800000 2 false) := by decide +kernel
theorem test_vENC_pool : decode .pool ⟨0x40000001, 0x0000000C00000002, 0x3F00000040F00000, 3⟩ =
    .ok (.gpSchedule 2 12 0x40F00000 0x3F000000 3 true) := by decide +kernel
theorem test_vENC_evsched : decode .evsched ⟨0x50000000, 0x4004000000000000, 0x00000000DEADBEEF, 0⟩ =
    .ok (.esSchedule 0x4004000000000000 0xDEADBEEF) := by decide +kernel
theorem test_vENC_lem : decode .lem ⟨0x63000000, 0x3FF4000000000000, 0, 0⟩ = .ok (.lmTick 0x3FF4000000000000) := by
  decide +kernel
/-- Operand bits that no layout names are ignored (R111). -/
theorem test_decode_ignores : decode .cbuf ⟨0x11000000, 0xFFFFFFFF00000003, 7, 9⟩ = .ok (.cbRead 3) := by decide +kernel
/-- The four ways a word is illegal, and a transport that ends early (R117, R121). -/
theorem test_decode_refuses :
    decode .cbuf ⟨0x00000000, 0, 0, 0⟩ = .error .wrongUnit ∧ decode .cbuf ⟨0x14000000, 0, 0, 0⟩ = .error .unknownOp ∧
    decode .cbuf ⟨0x11010000, 0, 0, 0⟩ = .error .reservedNonzero ∧
    decode .cbuf ⟨0x11000001, 0, 0, 0⟩ = .error .immediateNonzero ∧
    decodeBytes .cbuf [0, 0, 0, 0x13] = .error .truncated := by decide +kernel
/-- The encoder on the second grain of V-ENC, and the first byte of its word on a transport (R90). -/
theorem test_encode : encode (.gpSchedule 2 12 0x40F00000 0x3F000000 3 true) =
      ⟨0x40000001, 0x0000000C00000002, 0x3F00000040F00000, 3⟩ ∧
    (encode (.gpSchedule 2 12 0x40F00000 0x3F000000 3 true)).serialise.head? = some 0x01 := by decide +kernel
/-- The mnemonics of two commands (R114). -/
theorem test_mnemonic : Instr.mnemonic (.cbReadInterp 0) = "CB.READ_INTERP" ∧ Instr.mnemonic .lmReset = "LM.RESET" := by decide
/-- A step fetches the presented word and runs it; an illegal word takes ILLEGAL_COMMAND with its own UNIT and OP (R32, R384). -/
theorem test_step_runs : (match step ((ready (.ramp (steadyRamp 0))).withFetchWord 96 0x3F00000020000000) with
    | .next t => some t.unit
    | _ => none) = some (.ramp (steadyRamp 0x3F000000)) := by decide +kernel
theorem test_step_illegal : (match step { ready (.ramp (steadyRamp 0)) with port := [.command ⟨0x2F000000, 0, 0, 0⟩] } with
    | .next t => some t.fault
    | _ => none) = some ⟨true, 1, 2, 0xF⟩ := by decide +kernel

/-! ### Float: corners the rules rest on (R14 to R17) -/

theorem test_float_ties : add32 0x4B800000 0x3F800000 = 0x4B800000 ∧ add32 0x4B800000 0x40400000 = 0x4B800002 := by decide +kernel
theorem test_float_underflow : mul32 0x00800000 0x3F000000 = 0x00400000 ∧ div32 0x3F800000 0x00000000 = 0x7F800000 := by
  decide +kernel
theorem test_float_third : div32 0x3F800000 0x40400000 = 0x3EAAAAAB ∧ div64 (f64 1) (f64 10) = 0x3FB999999999999A := by
  decide +kernel
theorem test_roundAway_ties : roundAway (div64 (f64 5) (f64 2)) = 3 ∧ roundAway (neg64 (div64 (f64 5) (f64 2))) = -3 := by
  decide +kernel
/-- A NaN result is a NaN, whatever its payload (I-NUM-1). -/
theorem test_float_nan : isNaN32 (sub32 0x7F800000 0x7F800000) = true := isNaN32_quietNaN32 _

/-! ### One step of each command -/

/-- R151: N = 4, from power-on CB.TICK 7.0 gives slot 0 = 7.0 and w = 1. -/
theorem test_cbTick : unitAfter (.cbTick 0x40E00000) (ready (.cbuf powerOnCBuf)) = some (.cbuf ⟨[(0, [0x40E00000])], 1⟩) := by
  decide +kernel
/-- The cursor wraps, and writing `0̄` unlists the slot. -/
theorem test_cbTick_wraps : unitAfter (.cbTick 0) (ready (.cbuf ⟨[(3, [0x40E00000])], 3⟩)) = some (.cbuf ⟨[], 0⟩) := by
  decide +kernel
/-- Three writes 1.0, 2.0, 3.0 of R152. -/
def buf3 : CBuf := ⟨[(0, [0x3F800000]), (1, [0x40000000]), (2, [0x40400000])], 3⟩
/-- R152: d = 2 reads 1.0 and d = 3 reads 0.0. -/
theorem test_cbRead : returned (.cbRead 2) (ready (.cbuf buf3)) = some ⟨.ok, [0x3F800000]⟩ ∧
    returned (.cbRead 3) (ready (.cbuf buf3)) = some ⟨.ok, [0]⟩ := by decide +kernel
/-- R152: d = 4 = N faults with CBUF_READ_RANGE and a zero word. -/
theorem test_cbRead_range : faultAfter (.cbRead 4) (ready (.cbuf buf3)) = some ⟨true, 2, 1, 1⟩ ∧
    returned (.cbRead 4) (ready (.cbuf buf3)) = some ⟨.fault, [0]⟩ := by decide +kernel
/-- R153 (its example in a buffer of 4): between 3.0 and 2.0 at 0.5 lies 2.5; delay 1.0 is exact. -/
theorem test_cbReadInterp : returned (.cbReadInterp 0x3F000000) (ready (.cbuf buf3)) = some ⟨.ok, [0x40200000]⟩ ∧
    returned (.cbReadInterp 0x3F800000) (ready (.cbuf buf3)) = some ⟨.ok, [0x40000000]⟩ := by decide +kernel
/-- R153: any delay in (N - 1, N) faults; -0.0 is delay 0. -/
theorem test_cbReadInterp_edge : returned (.cbReadInterp 0x40600000) (ready (.cbuf buf3)) = some ⟨.fault, [0]⟩ ∧
    returned (.cbReadInterp 0x80000000) (ready (.cbuf buf3)) = some ⟨.ok, [0x40400000]⟩ := by decide +kernel
/-- R154. -/
theorem test_cbReset : unitAfter .cbReset (ready (.cbuf buf3)) = some (.cbuf powerOnCBuf) := by decide +kernel

/-- R171. -/
theorem test_rvSet : unitAfter (.rvSet 0x3F000000) (ready (.ramp ⟨0, 0, 0x3F800000, 2, 4⟩)) =
    some (.ramp ⟨0x3F000000, 0x3F000000, 0x3F000000, 0, 0⟩) := by decide +kernel
/-- R172: the largest count gives 2^32 steps. -/
theorem test_rvRamp : unitAfter (.rvRamp 0x3F800000 0xFFFFFFFF) (ready (.ramp (steadyRamp 0))) =
    some (.ramp ⟨0, 0, 0x3F800000, 0x100000000, 0x100000000⟩) := by decide +kernel
/-- R173 (V-RAMP-2): from 0.0 to 1.0 with n = 2 the first tick returns 0x3EAAAAAA, and the last arrives. -/
theorem test_rvTick : returned .rvTick (ready (.ramp ⟨0, 0, 0x3F800000, 3, 3⟩)) = some ⟨.ok, [0x3EAAAAAA]⟩ ∧
    returned .rvTick (ready (.ramp ⟨0x3F2AAAAA, 0, 0x3F800000, 1, 3⟩)) = some ⟨.ok, [0x3F800000]⟩ := by decide +kernel

/-- The grain of R191: wait 0, dur 6, fade 2, off 5.0, speed 1.0, forward. -/
def grain6 : Grain := ⟨0, 0x40800000, 6, 2, 0, 0xBF800000, steadyRamp 0⟩
/-- R191: pos = 4.0, inc = -1.0; in reverse pos = 5.0 - 6.0 = -1.0 and inc = 1.0. -/
theorem test_grNew : unitAfter (.grNew 0 6 0x40A00000 0x3F800000 2 false) (ready (.grain powerOnGrain)) = some (.grain grain6) ∧
    unitAfter (.grNew 0 6 0x40A00000 0x3F800000 2 true) (ready (.grain powerOnGrain)) =
      some (.grain { grain6 with pos := 0xBF800000, inc := 0x3F800000 }) := by decide +kernel
/-- R192: duration 5, fade 3 clamps to 2, and fade 6 faults; a NaN offset is reported before it (R383). -/
theorem test_grNew_fade : (match unitAfter (.grNew 0 5 0 0 3 false) (ready (.grain powerOnGrain)) with
      | some (.grain g) => g.fade
      | _ => 0) = 2 ∧
    faultAfter (.grNew 0 5 0 0 6 false) (ready (.grain powerOnGrain)) = some ⟨true, 6, 3, 0⟩ ∧
    faultAfter (.grNew 0 5 0x7FC00000 0 6 false) (ready (.grain powerOnGrain)) = some ⟨true, 8, 3, 0⟩ := by decide +kernel
/-- R194: the first tick of that grain returns (4.0, 0x3EAAAAAA). -/
theorem test_grTick : returned .grTick (ready (.grain grain6)) = some ⟨.ok, [0x3EAAAAAA40800000]⟩ := by decide +kernel
/-- R194: the tick that ends the wait returns (0, 0). -/
theorem test_grTick_wait : returned .grTick (ready (.grain { grain6 with wait := 1 })) = some ⟨.ok, [0]⟩ ∧
    unitAfter .grTick (ready (.grain { grain6 with wait := 1 })) = some (.grain grain6) := by decide +kernel
/-- R196: dur 10, fade 3, two ticks done: a stop sets dur = 5. -/
theorem test_grStop : unitAfter .grStop (ready (.grain { grain6 with dur := 10, fade := 3, el := 2 })) =
    some (.grain { grain6 with dur := 5, fade := 3, el := 2 }) := by decide +kernel
/-- R200: finished after the sixth tick. -/
theorem test_grIsFinished : returned .grIsFinished (ready (.grain { grain6 with el := 6 })) = some ⟨.ok, [1]⟩ ∧
    returned .grIsFinished (ready (.grain { grain6 with el := 5 })) = some ⟨.ok, [0]⟩ := by decide +kernel
/-- R201. -/
theorem test_grIsWaiting : returned .grIsWaiting (ready (.grain { grain6 with wait := 1 })) = some ⟨.ok, [1]⟩ ∧
    returned .grIsWaiting (ready (.grain grain6)) = some ⟨.ok, [0]⟩ := by decide +kernel
/-- R202. -/
theorem test_grIsPlaying : returned .grIsPlaying (ready (.grain grain6)) = some ⟨.ok, [1]⟩ ∧
    returned .grIsPlaying (ready (.grain powerOnGrain)) = some ⟨.ok, [0]⟩ := by decide +kernel
/-- R203: fading in while el < fade. -/
theorem test_grIsFadingIn : returned .grIsFadingIn (ready (.grain { grain6 with el := 1 })) = some ⟨.ok, [1]⟩ ∧
    returned .grIsFadingIn (ready (.grain { grain6 with el := 2 })) = some ⟨.ok, [0]⟩ := by decide +kernel
/-- R204: fading out from el = dur - fade. -/
theorem test_grIsFadingOut : returned .grIsFadingOut (ready (.grain { grain6 with el := 4 })) = some ⟨.ok, [1]⟩ ∧
    returned .grIsFadingOut (ready (.grain { grain6 with el := 3 })) = some ⟨.ok, [0]⟩ := by decide +kernel

/-- A pool of two slots, these grains in them, its rolling buffer after inputs 1.0, 2.0, 3.0. -/
def poolOf (g₀ g₁ : Grain) : Pool := ⟨[g₀, g₁], buf3, powerOnCBuf, 3, 0, .notLooping⟩
/-- R231: into the first finished slot; a saturated pool drops the grain. -/
theorem test_gpSchedule : unitAfter (.gpSchedule 0 6 0x40A00000 0x3F800000 2 false)
      (ready (.pool (poolOf { grain6 with wait := 9 } powerOnGrain))) = some (.pool (poolOf { grain6 with wait := 9 } grain6)) ∧
    unitAfter (.gpSchedule 0 9 0 0 0 false) (ready (.pool (poolOf grain6 grain6))) = some (.pool (poolOf grain6 grain6)) := by
  decide +kernel
/-- R233. -/
theorem test_gpStartLooping : unitAfter .gpStartLooping (ready (.pool { poolOf grain6 grain6 with copy := 3, phase := .usingStatic })) =
    some (.pool { poolOf grain6 grain6 with roff := 0, copy := 0, phase := .fillingStatic }) := by decide +kernel
/-- R234: FillingStatic with copy = 3 goes to NotLooping and keeps it; UsingStatic is kept. -/
theorem test_gpStopLooping :
    unitAfter .gpStopLooping (ready (.pool { poolOf grain6 grain6 with copy := 3, phase := .fillingStatic })) =
      some (.pool { poolOf grain6 grain6 with copy := 3, phase := .notLooping }) ∧
    unitAfter .gpStopLooping (ready (.pool { poolOf grain6 grain6 with copy := 4, phase := .usingStatic })) =
      some (.pool { poolOf grain6 grain6 with copy := 4, phase := .usingStatic }) := by decide +kernel
/-- A playing grain of fade 0 that reads position -4.0, so delay 0 at roff = 4: its gain is 1.0. -/
def grainNow : Grain := ⟨0, 0xC0800000, 6, 0, 0, 0xBF800000, steadyRamp 0⟩
/-- R235: the input is written before the read, so that the grain returns it at once. -/
theorem test_gpTick : returned (.gpTick 0x41200000) (ready (.pool (poolOf grainNow powerOnGrain))) = some ⟨.ok, [0x41200000]⟩ := by
  decide +kernel
/-- R232, R384: a read past the buffer faults, and the pool is as it was. -/
theorem test_gpTick_range : faultAfter (.gpTick 0x41200000) (ready (.pool (poolOf grainNow { grain6 with fade := 0 }))) =
      some ⟨true, 2, 4, 3⟩ ∧
    unitAfter (.gpTick 0x41200000) (ready (.pool (poolOf grainNow { grain6 with fade := 0 }))) =
      some (.pool (poolOf grainNow { grain6 with fade := 0 })) := by decide +kernel
/-- R240. -/
theorem test_gpStopAll : unitAfter .gpStopAll (ready (.pool (poolOf { grain6 with dur := 10, fade := 3, el := 2 } powerOnGrain))) =
    some (.pool (poolOf { grain6 with dur := 5, fade := 3, el := 2 } powerOnGrain)) := by decide +kernel
/-- R241 to R243: one playing, none waiting, one finished. -/
theorem test_gpCountPlaying : returned .gpCountPlaying (ready (.pool (poolOf grain6 powerOnGrain))) = some ⟨.ok, [1]⟩ := by
  decide +kernel
theorem test_gpCountWaiting : returned .gpCountWaiting (ready (.pool (poolOf grain6 powerOnGrain))) = some ⟨.ok, [0]⟩ := by
  decide +kernel
theorem test_gpCountFinished : returned .gpCountFinished (ready (.pool (poolOf grain6 powerOnGrain))) = some ⟨.ok, [1]⟩ := by
  decide +kernel
/-- R244: slot 1 with el = 2 is younger than slot 0 with el = 3; a tie goes to slot 0. -/
theorem test_gpMostRecent :
    returned .gpMostRecent (ready (.pool (poolOf { grain6 with el := 3 } { grain6 with el := 2 }))) =
      some ⟨.ok, [0x0000000200000101]⟩ ∧
    returned .gpMostRecent (ready (.pool (poolOf { grain6 with el := 2 } { grain6 with el := 2 }))) =
      some ⟨.ok, [0x0000000200000001]⟩ := by decide +kernel
/-- R245. -/
theorem test_gpReset : unitAfter .gpReset (ready (.pool (poolOf grain6 grain6))) = some (.pool (powerOnPool 2)) := by decide +kernel

/-- The queue of R270: (1.0, 0xA), (1.0, 0xB), (2.5, 0xC). -/
def queue3 : EvQueue Word64 := [⟨0x3FF0000000000000, 0xA⟩, ⟨0x3FF0000000000000, 0xB⟩, ⟨0x4004000000000000, 0xC⟩]
/-- R270: an equal time is appended; an earlier one is SCHED_NON_MONOTONIC, a NaN BAD_PARAMETER. -/
theorem test_esSchedule : unitAfter (.esSchedule 0x4004000000000000 0xC) (ready (.evsched (queue3.take 2))) =
    some (.evsched queue3) := by decide +kernel
theorem test_esSchedule_faults :
    faultAfter (.esSchedule 0x3FD999999999999A 0) (ready (.evsched queue3)) = some ⟨true, 3, 5, 0⟩ ∧
    faultAfter (.esSchedule 0x7FF8000000000000 0) (ready (.evsched queue3)) = some ⟨true, 8, 5, 0⟩ ∧
    faultAfter (.esSchedule 0x4004000000000000 0) (ready (.evsched (queue3 ++ queue3.drop 2))) = some ⟨true, 4, 5, 0⟩ := by
  decide +kernel
/-- R271: now = 0.5 returns none, now = 1.0 returns 0xA and 0xB. -/
theorem test_esTick : returned (.esTick 0x3FE0000000000000) (ready (.evsched queue3)) = some ⟨.ok, [0]⟩ ∧
    returned (.esTick 0x3FF0000000000000) (ready (.evsched queue3)) = some ⟨.ok, [2, 0xA, 0xB]⟩ := by decide +kernel
/-- R272. -/
theorem test_esClear : unitAfter .esClear (ready (.evsched queue3)) = some (.evsched []) := by decide +kernel

/-- A LEM of grid 1.0 that is looping since 0.25, its first boundary fired at 1.0, at song time 1.25 (R296, R298). -/
def lemLooping : Lem :=
  ⟨[⟨0x4000000000000000, nextLoopEvent⟩], 0x3FF0000000000000, 0, some 0x3FF4000000000000, true, 0x3FD0000000000000, false⟩
/-- The same before its first boundary, at song time 0.25 (R297). -/
def lemFirst : Lem :=
  ⟨[⟨0x3FF0000000000000, nextLoopEvent⟩, ⟨0x3FF0000000000000, fadeOutDryEvent⟩], 0x3FF0000000000000, 0,
    some 0x3FD0000000000000, true, 0x3FD0000000000000, true⟩
/-- R293: at power-on a start queues NextLoop and FadeOutDry at 0.0. -/
theorem test_lmStartLooping : queueAfter .lmStartLooping powerOnLem = some [⟨0, ⟨.nextLoop, 0, 0⟩⟩, ⟨0, ⟨.fadeOutDry, 0, 0⟩⟩] := by
  decide +kernel
/-- R294: at song time 1.25 a stop queues StopGrain and FadeInDry at 2.0. -/
theorem test_lmStopLooping : queueAfter .lmStopLooping lemLooping =
    some [⟨0x4000000000000000, ⟨.stopGrain, 0, 0⟩⟩, ⟨0x4000000000000000, ⟨.fadeInDry, 0, 0⟩⟩] := by decide +kernel
/-- R296: grid 0.5 queues StopGrain and NextLoop at 1.5. -/
theorem test_lmSetGridInterval_shorter : queueAfter (.lmSetGridInterval 0x3FE0000000000000) lemLooping =
    some [⟨0x3FF8000000000000, ⟨.stopGrain, 0, 0⟩⟩, ⟨0x3FF8000000000000, ⟨.nextLoop, 0, 0⟩⟩] := by decide +kernel
/-- R298: grid 4.0 queues the legato grain of 2.0 beats at 2.0, reduced by 1.0, and NextLoop at 4.0. -/
theorem test_lmSetGridInterval_longer : queueAfter (.lmSetGridInterval 0x4010000000000000) lemLooping =
    some [⟨0x4000000000000000, ⟨.startLegatoGrain, 0x4000000000000000, 0x3FF0000000000000⟩⟩,
      ⟨0x4010000000000000, ⟨.nextLoop, 0, 0⟩⟩] := by decide +kernel
/-- R292, R301: at 1.0 the first boundary returns StartGrain of 1.0 and FadeOutDry. -/
theorem test_lmTick : returned (.lmTick 0x3FF0000000000000) (ready (.lem lemFirst)) =
    some ⟨.ok, [2, 0, 0x3FF0000000000000, 0, 3, 0, 0]⟩ := by decide +kernel
/-- R292: the same song time again is TIME_NOT_INCREASING. -/
theorem test_lmTick_time : faultAfter (.lmTick 0x3FD0000000000000) (ready (.lem lemFirst)) = some ⟨true, 5, 6, 3⟩ := by
  decide +kernel
/-- R299: -0.0 is stored, a negative lead is not. -/
theorem test_lmSetFadeInTime :
    unitAfter (.lmSetFadeInTime 0x8000000000000000) (ready (.lem powerOnLem)) =
      some (.lem { powerOnLem with lead := 0x8000000000000000 }) ∧
    faultAfter (.lmSetFadeInTime 0xBFF0000000000000) (ready (.lem powerOnLem)) = some ⟨true, 8, 6, 4⟩ := by decide +kernel
/-- R300: grid and lead are kept. -/
theorem test_lmReset : unitAfter .lmReset (ready (.lem { lemLooping with lead := 0x3FD0000000000000 })) =
    some (.lem { powerOnLem with lead := 0x3FD0000000000000 }) := by decide +kernel

/-- The ENGINE at power-on. -/
def engine0 : Engine := powerOnEngine 2
/-- The ENGINE at the rates of the source's example: 10 samples per beat, a loop of 0.3 beats, which is `L` samples. -/
def engineLoop : Engine :=
  { engine0 with sr := 0x4024000000000000, tempo := 0x404E000000000000, offset := 0x3FD3333333333333
                 E := { lemFirst with grid := 0x3FD3333333333333 } }
/-- R334: at power-on E.TICK t=0.0, in=10.0 returns 10.0. -/
theorem test_eTick : returned (.eTick 0 0x41200000) (ready (.engine engine0)) = some ⟨.ok, [0x41200000]⟩ := by decide +kernel
/-- R335: the boundary tick starts a grain and takes the dry level to 0 at once. -/
theorem test_eTick_boundary : (match unitAfter (.eTick 0x3FF0000000000000 0x41200000) (ready (.engine engineLoop)) with
    | some (.engine e) => (e.P.countPlaying, e.DRY.v, e.E.first)
    | _ => (0, 0, true)) = (1, 0x00000000, false) := by decide +kernel
/-- R336. -/
theorem test_eSetGrid : (match unitAfter (.eSetGrid 0x3FE0000000000000) (ready (.engine engine0)) with
    | some (.engine e) => e.E.grid
    | _ => 0) = 0x3FE0000000000000 := by decide +kernel
/-- R337: zero and negative offsets are stored. -/
theorem test_eSetLoopOffset : unitAfter (.eSetLoopOffset 0xBFF0000000000000) (ready (.engine engine0)) =
    some (.engine { engine0 with offset := 0xBFF0000000000000 }) := by decide +kernel
/-- R338. -/
theorem test_eSetFadeTime : faultAfter (.eSetFadeTime 0xBFF0000000000000) (ready (.engine engine0)) = some ⟨true, 8, 0, 3⟩ := by
  decide +kernel
/-- R339: while looping, half the tempo halves the offset. -/
theorem test_eSetTempo : unitAfter (.eSetTempo 0x404E000000000000)
      (ready (.engine { engine0 with E := { engine0.E with looping := true } })) =
    some (.engine { engine0 with E := { engine0.E with looping := true }
                                 tempo := 0x404E000000000000, offset := 0x3FE0000000000000 }) := by decide +kernel
/-- R340. -/
theorem test_eSetSampleRate : faultAfter (.eSetSampleRate 0) (ready (.engine engine0)) = some ⟨true, 8, 0, 5⟩ := by decide +kernel
/-- R341. -/
theorem test_eSetReverse : unitAfter (.eSetReverse true) (ready (.engine engine0)) =
    some (.engine { engine0 with reverse := true }) := by decide +kernel
/-- R342. -/
theorem test_eSetSpeed : unitAfter (.eSetSpeed 0xBF000000) (ready (.engine engine0)) =
    some (.engine { engine0 with speed := 0xBF000000 }) := by decide +kernel
/-- R343: both parts start. -/
theorem test_eStartLooping : (match unitAfter .eStartLooping (ready (.engine engine0)) with
    | some (.engine e) => (e.P.phase, e.E.looping, e.E.q.length)
    | _ => (.notLooping, false, 0)) = (.fillingStatic, true, 2) := by decide +kernel
/-- R344. -/
theorem test_eStopLooping : (match unitAfter .eStopLooping (ready (.engine engineLoop)) with
    | some (.engine e) => (e.E.looping, e.E.first, e.E.q.length)
    | _ => (true, true, 0)) = (false, false, 2) := by decide +kernel
/-- R345: the parameters are kept. -/
theorem test_eReset : (match unitAfter .eReset (ready (.engine engineLoop)) with
    | some (.engine e) => (e.sr, e.E.q.length, e.E.looping)
    | _ => (0, 9, true)) = (0x4024000000000000, 0, false) := by decide +kernel
/-- R46, R385: STATUS is read while faulted: FAULT cause 2, unit 1, op 1; another command is rejected. -/
theorem test_eReadReg : returned (.eReadReg 0x00) (faulted (.engine engine0)) = some ⟨.ok, [0x0000000000110201]⟩ ∧
    returned .eReset (faulted (.engine engine0)) = some ⟨.faulted, []⟩ := by decide +kernel
/-- R346: register 0x0F is reserved. -/
theorem test_eReadReg_reserved : faultAfter (.eReadReg 0x0F) (ready (.engine engine0)) = some ⟨true, 1, 0, 0xB⟩ ∧
    returned (.eReadReg 0x0E) (ready (.engine engine0)) = some ⟨.ok, [0x0000000200000000]⟩ := by decide +kernel
/-! ### States and operands that meet the hypotheses of the obligations, clause by clause, at the ends of their ranges -/

/-- With these port actions. -/
def withPort (s : State) (ps : List PortInput) : State := { s with port := ps }

theorem witness_LegalWordIsItsCommandsWord : decode .engine ⟨0x0B0000FF, 1, 2, 3⟩ = .ok (.eReadReg 0xFF) := by decide +kernel
theorem witness_IllegalCommands :
    (withPort (ready (.cbuf buf3)) [.command ⟨0x14000000, 0, 0, 0⟩]).port = [.command ⟨0x14000000, 0, 0, 0⟩] ∧
    (ready (.cbuf buf3)).fault.valid = false ∧ decode (ready (.cbuf buf3)).kind ⟨0x14000000, 0, 0, 0⟩ = .error .unknownOp ∧
    (ready (.engine engine0)).Ready (.engine engine0) ∧ (0x0F : BitVec 8).toNat = 0x0F ∧ 0x17 ≤ (0x17 : BitVec 8).toNat := by
  decide +kernel
theorem witness_StepRunsPresentedCommand :
    decode (withPort (ready (.cbuf buf3)) [.command (encode .cbReset)]).kind (encode .cbReset) = .ok .cbReset ∧
    (ready (.cbuf buf3)).port = [] := by decide +kernel
theorem witness_HardwareReset : (withPort (faulted (.pool (poolOf grain6 grain6))) [.reset]).port = .reset :: [] ∧
    (withPort (faulted (.pool (poolOf grain6 grain6))) [.reset]).fault.valid = true ∧
    ∃ t, step (withPort (faulted (.pool (poolOf grain6 grain6))) [.reset]) = .next t ∧ t.fault.valid = false :=
  ⟨rfl, rfl, _, rfl, rfl⟩
theorem witness_FaultsArePrecise :
    step (withPort (ready (.cbuf buf3)) [.command (encode (.cbRead 4))]) =
      .next ((ready (.cbuf buf3)).faultedBy .cbufReadRange 1 1 1) ∧
    (ready (.cbuf buf3)).fault.valid = false ∧ ((ready (.cbuf buf3)).faultedBy .cbufReadRange 1 1 1).fault.valid = true :=
  ⟨rfl, rfl, rfl⟩
theorem witness_FaultedMachineRejects : (faulted (.engine engine0)).fault.valid = true ∧
    (withPort (faulted (.engine engine0)) [.command (encode (.eReadReg 0x16))]).port = [.command (encode (.eReadReg 0x16))] ∧
    decode .engine (encode (.eReadReg 0x16)) = .ok (.eReadReg 0x16) ∧ decode .engine (encode (.eReadReg 0x17)) = .ok (.eReadReg 0x17) ∧
    decode .engine (encode .eReset) = .ok .eReset ∧ decode .engine (encode .cbReset) = .error .wrongUnit := by
  decide +kernel
theorem witness_OnlyHardwareResetLeavesFault :
    (withPort (faulted (.cbuf buf3)) (presenting [.cbReset, .cbRead 0] ++ [.reset])).fault.valid = true ∧
    PortInput.reset ∉ (withPort (faulted (.cbuf buf3)) (presenting [.cbReset, .cbRead 0] ++ [.reset])).port.take 2 ∧
    Sys2Proof.core.run 2 (withPort (faulted (.cbuf buf3)) (presenting [.cbReset, .cbRead 0] ++ [.reset])) =
      .next ((withPort (faulted (.cbuf buf3)) [.reset]).respond .faulted [0]) := ⟨rfl, by decide +kernel, rfl⟩
theorem witness_StepKeepsInvariant : (withPort (ready (.engine engineLoop)) (presenting [.eReset])).Inv ∧
    (withPort (ready (.lem lemLooping)) (presenting [.lmStopLooping])).Inv ∧
    (withPort (ready (.pool (poolOf grain6 powerOnGrain))) (presenting [.gpTick 7])).Inv := by decide +kernel
theorem witness_ConstructionIsSoundOrRefused : prm.Valid .engine ∧ ¬ Params.Valid { prm with G := 0 } .engine := by decide +kernel

theorem witness_CbufTickWritesOneSlot : (ready (.cbuf buf3)).Ready (.cbuf buf3) ∧ buf3.Wf prm.N prm.C ∧ buf3.w + 1 = prm.N := by
  decide +kernel
theorem witness_CbufReadAtDelay : (ready (.cbuf buf3)).Ready (.cbuf buf3) ∧ (3 : U32).toNat < prm.N ∧ prm.N ≤ (4 : U32).toNat := by
  decide
theorem witness_CbufReadInterpolates : (ready (.cbuf buf3)).Ready (.cbuf buf3) ∧
    (finite32 0x40400000 = true ∧ lt32 0x40400000 zero32 = false ∧ ceil32 0x40400000 < prm.N ∧ floor32 0x40400000 = ceil32 0x40400000) ∧
    (finite32 0x403FFFFF = true ∧ lt32 0x403FFFFF zero32 = false ∧ ceil32 0x403FFFFF < prm.N ∧ floor32 0x403FFFFF ≠ ceil32 0x403FFFFF) ∧
    ¬ ceil32 0x40400001 < prm.N ∧ lt32 0x80000001 zero32 = true ∧ finite32 0x7F800000 = false := by decide +kernel
theorem witness_BufferReadsWhatWasWritten :
    (withPort (ready (.cbuf buf3)) (presenting ([5, 6].map Instr.cbTick ++ [.cbRead 3]))).Ready (.cbuf buf3) ∧
    buf3.Wf prm.N prm.C ∧ (3 : U32).toNat < prm.N ∧
    presenting ([5, 6].map Instr.cbTick ++ [.cbRead 3]) = presenting ([5, 6].map Instr.cbTick ++ [.cbRead 3]) ++ [] := by
  decide +kernel

theorem witness_Ramp : (ready (.ramp ⟨0, 0, 0x3F800000, 3, 3⟩)).Ready (.ramp ⟨0, 0, 0x3F800000, 3, 3⟩) := by decide
theorem witness_RampArrivesExactly :
    (withPort (ready (.ramp (steadyRamp 0))) (presenting (.rvRamp 0x3F800000 3 :: List.replicate 4 .rvTick) ++ [])).Ready
      (.ramp (steadyRamp 0)) ∧ 1 ≤ 4 ∧
    (withPort (ready (.ramp (steadyRamp 0))) (presenting (.rvRamp 0x3F800000 3 :: List.replicate 4 .rvTick) ++ [])).port =
      presenting (.rvRamp 0x3F800000 3 :: List.replicate 4 .rvTick) ++ [] := by decide +kernel

theorem witness_GrainNewConstructs : (ready (.grain grain6)).Ready (.grain grain6) ∧
    (finite32 0x40A00000 = true ∧ finite32 0x3F800000 = true ∧ (6 : U32).toNat ≤ (6 : U32).toNat) ∧
    finite32 0x7F800000 = false ∧ (6 : U32).toNat < (7 : U32).toNat := by decide +kernel
theorem witness_GrainTickAdvances :
    (ready (.grain powerOnGrain)).Ready (.grain powerOnGrain) ∧ (ready (.grain grain6)).Ready (.grain grain6) ∧
    (ready (.grain { grain6 with wait := 1 })).Ready (.grain { grain6 with wait := 1 }) ∧
    (powerOnGrain.dur.toNat ≤ powerOnGrain.el.toNat) ∧
    (grain6.el.toNat < grain6.dur.toNat ∧ 0 < ({ grain6 with wait := 1 } : Grain).wait.toNat) ∧
    (grain6.el.toNat < grain6.dur.toNat ∧ grain6.wait.toNat = 0) := by decide
theorem witness_GrainStopShortens :
    (ready (.grain { grain6 with el := 4 })).Ready (.grain { grain6 with el := 4 }) ∧
    (ready (.grain { grain6 with el := 3 })).Ready (.grain { grain6 with el := 3 }) ∧
    ((grain6.dur.toNat : Int) - grain6.fade.toNat ≤ ({ grain6 with el := 4 } : Grain).el.toNat) ∧
    ((({ grain6 with el := 3 } : Grain).el.toNat : Int) < (grain6.dur.toNat : Int) - grain6.fade.toNat) := by decide
theorem witness_GrainQueriesReadCounters : (ready (.grain grain6)).Ready (.grain grain6) := by decide
theorem witness_GrainFinishesAfterWaitAndDuration :
    (withPort (ready (.grain powerOnGrain))
      (presenting (.grNew 1 6 0x40A00000 0x3F800000 2 false :: List.replicate 7 .grTick) ++ [])).Ready (.grain powerOnGrain) ∧
    finite32 0x40A00000 = true ∧ finite32 0x3F800000 = true ∧ (2 : U32).toNat ≤ (6 : U32).toNat ∧ 0 < (6 : U32).toNat ∧
    1 ≤ 7 ∧ (1 : U32).toNat + (6 : U32).toNat = 7 := by decide +kernel
theorem witness_StopLeavesOneFade :
    (withPort (ready (.grain { grain6 with el := 3 })) (presenting (.grStop :: List.replicate 2 .grTick) ++ [])).Ready
      (.grain { grain6 with el := 3 }) ∧ grain6.wait.toNat = 0 ∧ 0 < (3 : U32).toNat ∧
    (3 : U32).toNat + grain6.fade.toNat < grain6.dur.toNat := by decide +kernel

theorem witness_PoolScheduleInstallsGrain :
    (ready (.pool (poolOf grain6 powerOnGrain))).Ready (.pool (poolOf grain6 powerOnGrain)) ∧
    (poolOf grain6 powerOnGrain).grain = [grain6] ++ powerOnGrain :: [] ∧ (∀ x ∈ [grain6], x.finished = false) ∧
    powerOnGrain.finished = true ∧ (∀ x ∈ (poolOf grain6 grain6).grain, x.finished = false) := by decide +kernel
theorem witness_PoolCommands : (ready (.pool (poolOf grain6 powerOnGrain))).Ready (.pool (poolOf grain6 powerOnGrain)) ∧
    (poolOf grain6 powerOnGrain).Wf prm ∧ (poolOf grain6 powerOnGrain).grain.length ≤ 256 ∧ prm.validPool := by decide +kernel
/-- The grain that reads delay 0 on this tick is in range, and the one that reads delay 8 = R is not. -/
theorem witness_PoolTickSumsGrains : (poolOf grainNow powerOnGrain).Wf prm ∧ (poolOf grainNow powerOnGrain).Readable prm ∧
    ¬ (poolOf grain6 powerOnGrain).Readable prm := by
  refine ⟨by decide +kernel, ?_, ?_⟩
  · intro g hg hp
    simp only [poolOf, List.mem_cons, List.not_mem_nil, or_false] at hg
    rcases hg with rfl | rfl
    · decide +kernel
    · exact absurd hp (by decide)
  · intro h
    exact absurd (h grain6 (by simp [poolOf]) (by decide)) (by decide +kernel)
theorem witness_PoolMostRecentIsYoungest :
    (∀ g ∈ (powerOnPool 2).grain, g.playing = false) ∧
    (poolOf { grain6 with el := 3 } grain6).grain[1]? = some grain6 ∧ grain6.playing = true ∧
    (∀ j h, (poolOf { grain6 with el := 3 } grain6).grain[j]? = some h → h.playing = true →
      grain6.el.toNat < h.el.toNat ∨ (grain6.el.toNat = h.el.toNat ∧ 1 ≤ j)) := by
  refine ⟨by decide, rfl, by decide, ?_⟩
  intro j h hj _
  rcases j with _ | _ | j
  · cases hj; exact .inl (by decide)
  · cases hj; exact .inr ⟨rfl, Nat.le_refl 1⟩
  · cases hj
/-- The pool of the stability statement, its copy done. -/
def poolStatic : Pool := { poolOf grain6 powerOnGrain with copy := 4, phase := .usingStatic }
theorem witness_StaticBufferIsStable :
    (withPort (ready (.pool poolStatic)) (presenting [.gpStopLooping, .gpTick 7] ++ [])).unit = .pool poolStatic ∧
    poolStatic.phase ≠ .fillingStatic ∧ Instr.gpStartLooping ∉ [Instr.gpStopLooping, .gpTick 7] ∧
    Instr.gpReset ∉ [Instr.gpStopLooping, .gpTick 7] := by decide +kernel
theorem witness_CopyTakesSnapshot :
    (withPort (ready (.pool (poolOf powerOnGrain powerOnGrain))) (presenting (.gpStartLooping :: [1, 2, 3, 4].map Instr.gpTick))).Ready
      (.pool (poolOf powerOnGrain powerOnGrain)) ∧ prm.validPool ∧ (poolOf powerOnGrain powerOnGrain).Wf prm ∧
    (∀ g ∈ (poolOf powerOnGrain powerOnGrain).grain, g.finished = true) ∧ [1, 2, 3, 4].length = prm.S := by decide +kernel
theorem witness_CommandResets : (ready (.cbuf buf3)).Ready (.cbuf buf3) ∧ (ready (.evsched queue3)).Ready (.evsched queue3) ∧
    (ready (.lem lemLooping)).Ready (.lem lemLooping) ∧ (ready (.engine engineLoop)).Ready (.engine engineLoop) := by decide +kernel

theorem witness_EventScheduleAppends :
    (ready (.evsched queue3)).Ready (.evsched queue3) ∧ finite64 0x4004000000000000 = true ∧ queue3.length < prm.Q ∧
    (∀ l, queue3.getLast? = some l → lt64 0x4004000000000000 l.time = false) ∧
    (∃ l, queue3.getLast? = some l ∧ lt64 0x3FF0000000000000 l.time = true) ∧ finite64 0xFFF0000000000000 = false ∧
    (queue3 ++ queue3.drop 2).length = prm.Q := by
  refine ⟨by decide, by decide +kernel, by decide, ?_, ⟨_, rfl, by decide +kernel⟩, by decide +kernel, by decide⟩
  intro l h
  cases h
  decide +kernel
theorem witness_EventTickReturnsDueEvents : (ready (.evsched queue3)).Ready (.evsched queue3) ∧ EvQueueWf prm.Q queue3 ∧
    finite64 0x3FF0000000000000 = true ∧ finite64 0x7FF8000000000000 = false := by decide +kernel
theorem witness_EventsReturnInOrderWhenDue :
    (withPort (ready (.evsched queue3)) (presenting ([0x3FE0000000000000, 0x3FF0000000000000].map Instr.esTick) ++ [])).Ready
      (.evsched queue3) ∧ EvQueueWf prm.Q queue3 ∧
    (∀ u ∈ [0x3FE0000000000000, 0x3FF0000000000000], finite64 u = true) :=
  ⟨by decide +kernel, by decide +kernel, List.all_eq_true.1 (by decide +kernel)⟩

/-- A LEM that was stopped: StopGrain and FadeInDry pending at 0.0, or at 1.0 with the grid made smaller since. -/
def lemStopped (t : B64) : Lem := { powerOnLem with q := [⟨t, stopGrainEvent⟩, ⟨t, fadeInDryEvent⟩] }
theorem witness_LemStartLooping :
    (ready (.lem lemLooping)).Ready (.lem lemLooping) ∧ lemLooping.looping = true ∧
    (ready (.lem (lemStopped 0))).Ready (.lem (lemStopped 0)) ∧ (lemStopped 0).looping = false ∧
    finite64 (sub64 (mul64 (ceil64 (div64 (add64 ((lemStopped 0).cst.getD 0) (lemStopped 0).lead) (lemStopped 0).grid))
      (lemStopped 0).grid) (lemStopped 0).lead) = true ∧
    sub64 (mul64 (ceil64 (div64 (add64 ((lemStopped 0).cst.getD 0) (lemStopped 0).lead) (lemStopped 0).grid))
      (lemStopped 0).grid) (lemStopped 0).lead = 0 ∧
    ((lemStopped 0).q.getLast?.map Entry.time = some 0 ∧ lt64 0 (0 : B64) = false ∧ (lemStopped 0).q.length + 2 = prm.Q) ∧
    ((lemStopped 0x3FF0000000000000).q.getLast?.map Entry.time = some 0x3FF0000000000000 ∧
      lt64 0 (0x3FF0000000000000 : B64) = true) ∧
    ((lemStopped 0).q ++ ([⟨0, fadeInDryEvent⟩] : EvQueue LoopEvent)).length + 1 = prm.Q ∧
    ((lemStopped 0).q ++ (lemStopped 0).q).length = prm.Q := by decide +kernel
theorem witness_LemStopLooping : (ready (.lem lemLooping)).Ready (.lem lemLooping) ∧
    (ready (.lem powerOnLem)).Ready (.lem powerOnLem) ∧ lemLooping.looping = true ∧ powerOnLem.looping = false ∧ 2 ≤ prm.Q ∧
    finite64 (ngb 0x3FF4000000000000 lemLooping.grid lemLooping.lead) = true := by decide +kernel
theorem witness_LemGridEdits :
    (ready (.lem lemLooping)).Ready (.lem lemLooping) ∧ (ready (.lem lemFirst)).Ready (.lem lemFirst) ∧ 2 ≤ prm.Q ∧
    (¬ (finite64 0 = true ∧ lt64 zero64 0 = true)) ∧
    (finite64 0x3FE0000000000000 = true ∧ lt64 zero64 0x3FE0000000000000 = true ∧ eq64 0x3FF0000000000000 lemLooping.grid = true) ∧
    (lemFirst.looping = true ∧ eq64 0x3FE0000000000000 lemFirst.grid = false ∧ lemFirst.first = true ∧
      finite64 (ngb 0x3FD0000000000000 0x3FE0000000000000 lemFirst.lead) = true) ∧
    (lemLooping.first = false ∧ lt64 0x3FE0000000000000 lemLooping.grid = true) ∧
    (lt64 0x4010000000000000 lemLooping.grid = false ∧ finite64 0x4000000000000000 = true ∧
      lt64 (sub64 0x3FF4000000000000 lemLooping.tli) 0x4010000000000000 = true ∧
      lt64 0x4000000000000000 (ngb 0x3FF4000000000000 0x4010000000000000 lemLooping.lead) = true) ∧
    ¬ lt64 0x4000000000000000 (ngb 0x3FF4000000000000 0x3FF8000000000000 lemLooping.lead) = true := by decide +kernel
theorem witness_LemTickReturnsEvents :
    (ready (.lem lemLooping)).Ready (.lem lemLooping) ∧ (ready (.lem lemFirst)).Ready (.lem lemFirst) ∧
    lemFirst.cst = some 0x3FD0000000000000 ∧ ([] : EvQueue LoopEvent).length < prm.Q ∧
    finite64 0x7FF0000000000000 = false ∧ lt64 0x3FD0000000000000 (0x3FD0000000000000 : B64) = false ∧
    (finite64 0x3FF0000000000000 = true ∧ lt64 0x3FD0000000000000 (0x3FF0000000000000 : B64) = true ∧
      lemFirst.q = ([] ++ ⟨0x3FF0000000000000, nextLoopEvent⟩ :: [⟨0x3FF0000000000000, fadeOutDryEvent⟩]) ++ [] ∧
      (∀ e ∈ lemFirst.q, le64 e.time 0x3FF0000000000000 = true) ∧
      (∀ e ∈ ([] : EvQueue LoopEvent) ++ [⟨0x3FF0000000000000, fadeOutDryEvent⟩], e.payload.kind ≠ .nextLoop) ∧
      finite64 (add64 0x3FF0000000000000 lemFirst.grid) = true) ∧
    (lemLooping.q = [] ++ lemLooping.q ∧ (∀ e ∈ lemLooping.q, le64 e.time 0x3FFC000000000000 = false)) := by decide +kernel
/-- A grid of 2^1023 beats at the largest finite song time: the next boundary, and the sum of a reschedule, overflow. -/
def lemHuge (looping : Bool) : Lem :=
  { lemLooping with grid := 0x7FE0000000000000, cst := some 0x7FEFFFFFFFFFFFFF, looping := looping }
theorem witness_NonFiniteBoundaryFaults :
    (ready (.lem (lemHuge true))).Ready (.lem (lemHuge true)) ∧ (ready (.lem (lemHuge false))).Ready (.lem (lemHuge false)) ∧
    finite64 (ngb ((lemHuge true).cst.getD 0) (lemHuge true).grid (lemHuge true).lead) = false ∧
    (eq64 0x7FD0000000000000 (lemHuge true).grid = false ∧ finite64 0x7FD0000000000000 = true ∧
      lt64 zero64 0x7FD0000000000000 = true ∧
      finite64 (ngb ((lemHuge true).cst.getD 0) 0x7FD0000000000000 (lemHuge true).lead) = false) ∧
    (finite64 0x7FE0000000000000 = true ∧ finite64 (add64 0x7FE0000000000000 (lemHuge true).grid) = false ∧
      (lemHuge true).q = ⟨0x4000000000000000, nextLoopEvent⟩ :: [] ∧ le64 0x4000000000000000 0x7FE0000000000000 = true ∧
      ({ lemHuge true with cst := none } : Lem).cst = none) ∧
    (ready (.engine { engine0 with E := lemHuge true })).Ready (.engine { engine0 with E := lemHuge true }) := by decide +kernel
/-- A listed cause, and the boundary that is not finite, in sound machines. -/
theorem witness_CausesPerCommand :
    (ready (.cbuf buf3)).Inv ∧ (ready (.cbuf buf3)).kind = (Instr.cbRead 4).kind ∧
    faultAfter (.cbRead 4) (ready (.cbuf buf3)) = some ⟨true, 2, 1, 1⟩ ∧
    (ready (.lem (lemHuge true))).Inv ∧ (ready (.lem (lemHuge true))).kind = Instr.lmStopLooping.kind ∧
    faultAfter .lmStopLooping (ready (.lem (lemHuge true))) = some ⟨true, 8, 6, 1⟩ := by decide +kernel
theorem witness_LemSetFadeInTime : (ready (.lem powerOnLem)).Ready (.lem powerOnLem) ∧
    (finite64 0x8000000000000000 = true ∧ lt64 0x8000000000000000 zero64 = false) ∧
    ¬ (finite64 0x8000000000000001 = true ∧ lt64 0x8000000000000001 zero64 = false) := by decide +kernel

theorem witness_EngineSetters : (ready (.engine engine0)).Ready (.engine engine0) ∧ finite64 0 = true ∧
    (finite64 1 = true ∧ lt64 zero64 1 = true) ∧ ¬ (finite64 0 = true ∧ lt64 zero64 0 = true) ∧ finite64 0x7FF0000000000000 = false ∧
    finite32 0x7F7FFFFF = true ∧ finite32 0x7F800000 = false := by decide +kernel
theorem witness_EngineGridAndFadeReachLem :
    (ready (.engine engineLoop)).Ready (.engine engineLoop) ∧ (ready (.lem engineLoop.E)).Ready (.lem engineLoop.E) ∧
    (ready (.lem engineLoop.E)).params = (ready (.engine engineLoop)).params ∧ engine0.E.looping = false ∧
    faultAfter (.lmSetGridInterval 0) (ready (.lem engineLoop.E)) = some ⟨true, 8, 6, 2⟩ := by decide +kernel
theorem witness_EngineLoopingControl : (ready (.engine engineLoop)).Ready (.engine engineLoop) ∧
    (ready (.engine engine0)).Ready (.engine engine0) ∧ engineLoop.E.looping = true ∧ engine0.E.looping = false ∧
    finite64 (ngb 0 engine0.E.grid engine0.E.lead) = true ∧ engine0.E.q.length + 2 ≤ prm.Q ∧
    finite64 (ngb 0x3FD0000000000000 engineLoop.E.grid engineLoop.E.lead) = true := by decide +kernel
theorem witness_EngineRegistersRead : (faulted (.engine engine0)).unit = .engine engine0 ∧ engine0.P.grain.length ≤ 256 := by
  decide
/-- A loop of 0.3 beats at 10 samples a beat is 3 samples, which is `L`; 0.4 beats is past it; a fade of 1.0 beat is `F`. -/
theorem witness_GrainRequestMakesGrain :
    prm.L ≤ 2 ^ 24 ∧ prm.F ≤ 2 ^ 24 ∧
    roundAway (mul64 0x3FD3333333333333 engineLoop.spb) = prm.L ∧ finite64 (mul64 0x3FD3333333333333 engineLoop.spb) = true ∧
    (prm.L : Int) < roundAway (mul64 0x3FD999999999999A engineLoop.spb) ∧
    roundAway (mul64 0x3FF0000000000000 engineLoop.spb) = prm.F ∧
    (prm.F : Int) < roundAway (mul64 0x3FF3333333333333 engineLoop.spb) ∧
    finite32 (to32 (mul64 engineLoop.offset engineLoop.spb)) = true ∧ finite32 engineLoop.speed = true ∧
    finite32 (to32 (mul64 0x4830000000000000 engineLoop.spb)) = false := by decide +kernel
theorem witness_StopAndDryEvents : finite64 (mul64 engineLoop.E.lead engineLoop.spb) = true ∧
    roundAway (mul64 engineLoop.E.lead engineLoop.spb) = 0 ∧
    2 ^ 32 - 1 < roundAway (mul64 0x41F0000000000000 engineLoop.spb) := by decide +kernel
theorem witness_EngineTickRunsItsParts : (ready (.engine engineLoop)).Ready (.engine engineLoop) ∧
    (∃ c, engineLoop.E.tick prm.Q 0x3FD0000000000000 = .error c) ∧ (∃ m, engineLoop.E.tick prm.Q 0x3FE0000000000000 = .ok (m, [])) :=
  ⟨⟨rfl, rfl⟩, ⟨.timeNotIncreasing, rfl⟩, ⟨_, rfl⟩⟩
theorem witness_EngineQuietTickCompletes :
    (ready (.engine engineLoop)).Ready (.engine engineLoop) ∧ (ready (.pool engineLoop.P)).Ready (.pool engineLoop.P) ∧
    prm.validPool ∧ engineLoop.P.Wf prm ∧ finite64 0x3FE0000000000000 = true ∧ lt64 0x3FD0000000000000 0x3FE0000000000000 = true ∧
    (∀ x ∈ engineLoop.E.q, le64 x.time 0x3FE0000000000000 = false) ∧ (∀ g ∈ engineLoop.P.grain, g.playing = false) := by
  decide +kernel
theorem witness_PassthroughReturnsInput :
    (withPort (ready (.engine engine0)) (presenting ([((0 : B64), (0x41200000 : Word64)), (1, 0x80000000)].map fun p => .eTick p.1 p.2))).Ready
      (.engine engine0) ∧ prm.validPool ∧ engine0.P.Wf prm ∧ engine0.E.q = [] ∧ (∀ g ∈ engine0.P.grain, g.finished = true) ∧
    engine0.DRY.rem = 0 ∧ engine0.DRY.t = 0x3F800000 ∧ engine0.E.cst = none ∧ finite64 0 = true ∧ finite64 1 = true ∧
    lt64 0 (1 : B64) = true ∧ (∀ l ∈ smp prm.C 0x80000000, finite32 l = true) := by
  have h : ∀ l ∈ smp prm.C 0x80000000, finite32 l = true := List.all_eq_true.1 (by decide +kernel)
  refine ⟨?_, ?_, ?_, ?_, ?_, ?_, ?_, ?_, ?_, ?_, ?_, h⟩ <;> decide +kernel

end Sys2Proof.Tests
end

section
/-! SUPPORT. Rounding is monotone (spec/00_scope.md R14), the binary32 values from 0 to 1, and the two ramps of a crossfade
(spec/41_ramped_value.md R173, spec/42_grain.md R207). -/

namespace Sys2Proof.Machine

-- As in the tests: one kernel check at a time keeps the compile within the check's memory limit; no proof depends on it.
set_option Elab.async false

/-! ### Rounding is monotone -/

/-- Rounding to the nearest multiple of `d`, ties to even, in one binade. -/
def roundQuot (num d : Nat) : Nat :=
  if d < 2 * (num % d) ∨ (2 * (num % d) = d ∧ num / d % 2 = 1) then num / d + 1 else num / d

theorem le_roundQuot (num d : Nat) : num / d ≤ roundQuot num d := by
  unfold roundQuot; split <;> omega

theorem roundQuot_le (num d : Nat) : roundQuot num d ≤ num / d + 1 := by
  unfold roundQuot; split <;> omega

theorem roundQuot_mono {n₁ n₂ : Nat} (h : n₁ ≤ n₂) (d : Nat) : roundQuot n₁ d ≤ roundQuot n₂ d := by
  rcases Nat.lt_or_eq_of_le (Nat.div_le_div_right (c := d) h) with hq | hq
  · exact Nat.le_trans (roundQuot_le n₁ d) (Nat.le_trans hq (le_roundQuot n₂ d))
  · have h₁ := Nat.div_add_mod n₁ d
    have h₂ := Nat.div_add_mod n₂ d
    rw [hq] at h₁
    unfold roundQuot
    rw [hq]
    split <;> split <;> omega

/-- How many binades above the lowest a rounding lies. -/
def binade (f : Fmt) (num den : Nat) : Nat := Nat.log2 (num / den) + 1 - f.p

theorem roundMag_eq_roundQuot (f : Fmt) (num den : Nat) :
    roundMag f num den =
      min (binade f num den * 2 ^ (f.p - 1) + roundQuot num (den * 2 ^ binade f num den)) f.inf := rfl

theorem binade_mono (f : Fmt) {n₁ n₂ : Nat} (h : n₁ ≤ n₂) (den : Nat) : binade f n₁ den ≤ binade f n₂ den := by
  have hlog : Nat.log2 (n₁ / den) ≤ Nat.log2 (n₂ / den) := by
    simp only [Nat.log2_eq_log_two]
    exact Nat.log_mono_right (Nat.div_le_div_right h)
  exact Nat.sub_le_sub_right (Nat.succ_le_succ hlog) _

/-- A significand has at most `p` bits. -/
theorem significand_lt (f : Fmt) (num den : Nat) : num / (den * 2 ^ binade f num den) < 2 ^ f.p := by
  rw [← Nat.div_div_eq_div_mul, Nat.div_lt_iff_lt_mul (by positivity), ← Nat.pow_add]
  exact Nat.lt_of_lt_of_le Nat.lt_log2_self (Nat.pow_le_pow_right (by decide) (by unfold binade; omega))

/-- Above the lowest binade a significand has its hidden bit. -/
theorem le_significand {f : Fmt} (hp : 0 < f.p) {num den : Nat} (h : 0 < binade f num den) :
    2 ^ (f.p - 1) ≤ num / (den * 2 ^ binade f num den) := by
  have hv : num / den ≠ 0 := fun h0 => by
    rw [binade, h0, show Nat.log2 0 = 0 from rfl] at h
    omega
  rw [← Nat.div_div_eq_div_mul, Nat.le_div_iff_mul_le (by positivity), ← Nat.pow_add]
  exact Nat.le_trans (Nat.pow_le_pow_right (by decide) (by unfold binade at h ⊢; omega)) (Nat.log2_self_le hv)

/-- Rounding is monotone: a larger numerator never rounds to a smaller magnitude (R14). A carry out of one binade is at most the
first magnitude of the next. -/
theorem roundMag_mono {f : Fmt} (hp : 0 < f.p) {n₁ n₂ : Nat} (h : n₁ ≤ n₂) (den : Nat) :
    roundMag f n₁ den ≤ roundMag f n₂ den := by
  simp only [roundMag_eq_roundQuot]
  refine min_le_min_right _ ?_
  rcases Nat.lt_or_eq_of_le (binade_mono f h den) with hlt | heq
  · have hcarry := Nat.le_trans (roundQuot_le n₁ (den * 2 ^ binade f n₁ den)) (significand_lt f n₁ den)
    have hhidden := Nat.le_trans (le_significand hp (Nat.lt_of_le_of_lt (Nat.zero_le _) hlt))
      (le_roundQuot n₂ (den * 2 ^ binade f n₂ den))
    have hpow : 2 ^ f.p = 2 ^ (f.p - 1) + 2 ^ (f.p - 1) := by
      rw [← Nat.two_mul, ← Nat.pow_succ', Nat.succ_eq_add_one, Nat.sub_add_cancel hp]
    calc binade f n₁ den * 2 ^ (f.p - 1) + roundQuot n₁ (den * 2 ^ binade f n₁ den)
        ≤ (binade f n₁ den + 1) * 2 ^ (f.p - 1) + 2 ^ (f.p - 1) := by rw [Nat.add_mul]; omega
      _ ≤ binade f n₂ den * 2 ^ (f.p - 1) + 2 ^ (f.p - 1) := Nat.add_le_add_right (Nat.mul_le_mul_right _ hlt) _
      _ ≤ binade f n₂ den * 2 ^ (f.p - 1) + roundQuot n₂ (den * 2 ^ binade f n₂ den) := Nat.add_le_add_left hhidden _
  · rw [heq]
    exact Nat.add_le_add_left (roundQuot_mono h _) _

/-- A larger finite magnitude is a larger value. -/
theorem magUnits_mono {f : Fmt} (hp : 0 < f.p) {m₁ m₂ : Nat} (h : m₁ ≤ m₂) (hi : m₂ ≤ f.inf) :
    magUnits f m₁ ≤ magUnits f m₂ := by
  by_contra hlt
  have hr := roundMag_mono hp (Nat.le_of_lt (Nat.lt_of_not_le hlt)) 1
  rw [roundMag_magUnits f hp hi, roundMag_magUnits f hp (Nat.le_trans h hi)] at hr
  exact hlt (Nat.le_antisymm h hr ▸ Nat.le_refl _)

/-! ### binary32 values from 0 to 1 -/

/-- `x` is a binary32 value from +0.0 to 1.0, not -0.0. -/
def InUnit (x : B32) : Prop := (unpack32 x).neg = false ∧ (unpack32 x).mag ≤ 0x3F800000

/-- The value of `x` in units of the smallest subnormal. -/
abbrev units32 (x : B32) : Nat := magUnits fmt32 (unpack32 x).mag

theorem magUnits_one : magUnits fmt32 0x3F800000 = 2 ^ 149 := by decide +kernel
theorem roundMag_one : roundMag fmt32 (2 ^ 149) 1 = 0x3F800000 := by decide +kernel

theorem unpack32_one32 : unpack32 one32 = ⟨false, 0x3F800000⟩ := by decide

theorem InUnit.unpack {x : B32} (h : InUnit x) : unpack32 x = ⟨false, (unpack32 x).mag⟩ := by
  rw [← h.1]

theorem InUnit.units_le {x : B32} (h : InUnit x) : units32 x ≤ 2 ^ 149 :=
  magUnits_one ▸ magUnits_mono (by decide) h.2 (by decide)

theorem InUnit.mag_lt_inf {x : B32} (h : InUnit x) : (unpack32 x).mag < fmt32.inf :=
  Nat.lt_of_le_of_lt h.2 (by decide)

theorem Flt.isNaN_of_lt {f : Fmt} {x : Flt} (h : x.mag < f.inf) : x.isNaN f = false :=
  decide_eq_false (Nat.lt_asymm h)

theorem Flt.isInf_of_lt {f : Fmt} {x : Flt} (h : x.mag < f.inf) : x.isInf f = false :=
  decide_eq_false (Nat.ne_of_lt h)

/-- The sum of two finite values is their exact sum in units, rounded once (R14). -/
theorem Flt.add_finite {f : Fmt} {x y : Flt} (hx : x.mag < f.inf) (hy : y.mag < f.inf) :
    Flt.add f x y =
      some ⟨if x.units f + y.units f = 0 then x.neg && y.neg else decide (x.units f + y.units f < 0),
        roundMag f (x.units f + y.units f).natAbs 1⟩ := by
  unfold Flt.add
  simp only [Flt.isNaN_of_lt hx, Flt.isNaN_of_lt hy, Flt.isInf_of_lt hx, Flt.isInf_of_lt hy, Bool.or_self,
    Bool.false_eq_true, if_false]

/-- A binary32 sum of two finite values that is not negative, with an operand that is no negative zero. -/
theorem add32_nonneg {x y : B32} {n : Nat} (hx : (unpack32 x).mag < fmt32.inf) (hy : (unpack32 y).mag < fmt32.inf)
    (hs : ((unpack32 x).neg && (unpack32 y).neg) = false)
    (hn : (unpack32 x).units fmt32 + (unpack32 y).units fmt32 = n) :
    add32 x y = pack32 ⟨false, roundMag fmt32 n 1⟩ := by
  have hneg : decide ((n : Int) < 0) = false := decide_eq_false (by omega)
  rw [add32, Flt.add_finite hx hy, hn, hs, hneg, ite_self, Int.natAbs_natCast]
  rfl

/-- A rounded whole number of units up to 1.0 is a value from 0 to 1. -/
theorem roundMag_le_one {n : Nat} (h : n ≤ 2 ^ 149) : roundMag fmt32 n 1 ≤ 0x3F800000 :=
  roundMag_one ▸ roundMag_mono (by decide) h 1

theorem inUnit_pack32 {m : Nat} (h : m ≤ 0x3F800000) :
    InUnit (pack32 ⟨false, m⟩) ∧ (unpack32 (pack32 ⟨false, m⟩)).mag = m := by
  rw [InUnit, unpack32_pack32 (show m < 2 ^ 31 by omega)]
  exact ⟨⟨rfl, h⟩, rfl⟩

theorem InUnit.units {x : B32} (h : InUnit x) : (unpack32 x).units fmt32 = units32 x := by
  rw [Flt.units, h.1]; rfl

/-- Unary minus flips the sign and keeps the magnitude. -/
theorem unpack32_neg32 (x : B32) : unpack32 (neg32 x) = ⟨!(unpack32 x).neg, (unpack32 x).mag⟩ := by
  have hmag : (x ^^^ 0x80000000#32).toNat % 2 ^ 31 = x.toNat % 2 ^ 31 := by
    rw [BitVec.toNat_xor, Nat.xor_mod_two_pow]
    exact Nat.xor_zero _
  have hneg : (x ^^^ 0x80000000#32).msb = !x.msb := by
    rw [BitVec.msb_xor]
    exact Bool.xor_true _
  rw [neg32, unpack32, hmag, hneg]
  rfl

/-- `1.0 - x` is the exact difference, rounded once. -/
theorem add32_one_neg {x : B32} (h : InUnit x) :
    add32 one32 (neg32 x) = pack32 ⟨false, roundMag fmt32 (2 ^ 149 - units32 x) 1⟩ := by
  apply add32_nonneg
  · rw [unpack32_one32]; decide
  · rw [unpack32_neg32]; exact h.mag_lt_inf
  · rw [unpack32_one32]; rfl
  · have hu := h.units_le
    have hone : (unpack32 one32).units fmt32 = ((2 ^ 149 : Nat) : Int) := by
      rw [unpack32_one32, ← magUnits_one]; rfl
    rw [hone, unpack32_neg32, Flt.units, h.1]
    simp only [Bool.not_false, if_true]
    change ((2 ^ 149 : Nat) : Int) + -(units32 x : Int) = _
    omega

/-- Every whole number of units from half a step below 1.0 (a tie, which the even 1.0 wins) to as far above it, where the steps are
twice as wide, rounds to 1.0. -/
theorem roundMag_near_one {n : Nat} (hlo : 2 ^ 149 - 2 ^ 124 ≤ n) (hhi : n ≤ 2 ^ 149 + 2 ^ 124) :
    roundMag fmt32 n 1 = 0x3F800000 := by
  have h₁ : roundMag fmt32 (2 ^ 149 - 2 ^ 124) 1 = 0x3F800000 := by decide +kernel
  have h₂ : roundMag fmt32 (2 ^ 149 + 2 ^ 124) 1 = 0x3F800000 := by decide +kernel
  have hl := roundMag_mono (f := fmt32) (by decide) hlo 1
  have hr := roundMag_mono (f := fmt32) (by decide) hhi 1
  omega

/-- A difference from 1.0 is rounded by at most `2 ^ 124` units, half a step below 1.0. -/
theorem units_one_sub_error {u : Nat} (hu : u ≤ 2 ^ 149) :
    2 ^ 149 ≤ magUnits fmt32 (roundMag fmt32 (2 ^ 149 - u) 1) + u + 2 ^ 124 ∧
      magUnits fmt32 (roundMag fmt32 (2 ^ 149 - u) 1) + u ≤ 2 ^ 149 + 2 ^ 124 := by
  rcases Nat.eq_zero_or_pos u with rfl | hpos
  · rw [Nat.sub_zero, roundMag_one, magUnits_one]
    omega
  · have hle := roundMag_le_one (Nat.sub_le (2 ^ 149) u)
    obtain ⟨q, hq, hup, hdown⟩ := magUnits_roundMag fmt32 (by decide) (2 ^ 149 - u)
      (Nat.lt_of_le_of_lt hle (by decide))
    have hlog : Nat.log2 (2 ^ 149 - u) ≤ 148 := by
      rcases Nat.eq_zero_or_pos (2 ^ 149 - u) with h0 | h0
      · rw [h0]; decide
      · have := (Nat.log2_lt (k := 149) (Nat.ne_of_gt h0)).2 (by omega)
        omega
    have hstep : 2 ^ (Nat.log2 (2 ^ 149 - u) + 1 - fmt32.p) ≤ 2 ^ 125 :=
      Nat.pow_le_pow_right (by decide) (by simp only [fmt32]; omega)
    rw [hq]
    omega

/-- THE CROSSFADE'S ROUNDING: what the rounding of `1.0 - x` changes, at most half a step below 1.0, the rounding undoes when `x`
is added back (R14, R207). -/
theorem add32_one_neg_add {x : B32} (h : InUnit x) : add32 (add32 one32 (neg32 x)) x = one32 := by
  obtain ⟨herr₁, herr₂⟩ := units_one_sub_error h.units_le
  obtain ⟨hd, hmag⟩ := inUnit_pack32 (roundMag_le_one (Nat.sub_le (2 ^ 149) (units32 x)))
  have hexact : add32 (pack32 ⟨false, roundMag fmt32 (2 ^ 149 - units32 x) 1⟩) x =
      pack32 ⟨false, roundMag fmt32 (magUnits fmt32 (roundMag fmt32 (2 ^ 149 - units32 x) 1) + units32 x) 1⟩ := by
    apply add32_nonneg hd.mag_lt_inf h.mag_lt_inf
    · rw [hd.1]; rfl
    · rw [hd.units, h.units, units32, hmag]; rfl
  rw [add32_one_neg h, hexact, roundMag_near_one (by omega) (by omega)]
  rfl

/-! ### The share of a ramp that remains (R173) -/

theorem roundMag_f32_lt_inf {n : Nat} (h : n ≤ 2 ^ 33) : roundMag fmt32 (n * 2 ^ 149) 1 < fmt32.inf := by
  have h33 : roundMag fmt32 (2 ^ 33 * 2 ^ 149) 1 < fmt32.inf := by decide +kernel
  exact Nat.lt_of_le_of_lt (roundMag_mono (by decide) (Nat.mul_le_mul_right _ h) 1) h33

/-- A count up to `2 ^ 33` as a binary32 value: positive or zero, finite, its magnitude rounded once (R16). -/
theorem unpack32_f32 {n : Nat} (h : n ≤ 2 ^ 33) : unpack32 (f32 n) = ⟨false, roundMag fmt32 (n * 2 ^ 149) 1⟩ :=
  unpack32_pack32 (Nat.lt_trans (roundMag_f32_lt_inf h) (by decide))

/-- The quotient of two positive finite values is their exact quotient, rounded once (R14). -/
theorem Flt.div_finite {f : Fmt} {x y : Flt} (hx : x.mag < f.inf) (hy : y.mag < f.inf) (h0 : y.mag ≠ 0) :
    Flt.div f x y =
      some ⟨x.neg != y.neg, roundMag f (magUnits f x.mag * 2 ^ f.scale) (magUnits f y.mag)⟩ := by
  unfold Flt.div
  simp only [Flt.isNaN_of_lt hx, Flt.isNaN_of_lt hy, Flt.isInf_of_lt hx, Flt.isInf_of_lt hy, Bool.or_self,
    Bool.false_eq_true, if_false, h0]

/-- A quotient that is at most 1 is rounded to at most 1.0. -/
theorem roundMag_quotient_le_one {u v : Nat} (h : u ≤ v) (hv : 0 < v) :
    roundMag fmt32 (u * 2 ^ fmt32.scale) v ≤ 0x3F800000 :=
  calc roundMag fmt32 (u * 2 ^ fmt32.scale) v
      ≤ roundMag fmt32 (v * 2 ^ fmt32.scale) v := roundMag_mono (by decide) (Nat.mul_le_mul_right _ h) v
    _ = roundMag fmt32 (2 ^ 149 * v) (1 * v) := by rw [Nat.one_mul, Nat.mul_comm]; rfl
    _ = 0x3F800000 := by rw [roundMag_scale _ _ _ _ hv, roundMag_one]

/-- The quotient of two values that are not negative, the first at most the second, is from 0 to 1. -/
theorem inUnit_div32 {x y : B32} (hx : (unpack32 x).neg = false) (hy : (unpack32 y).neg = false)
    (hle : (unpack32 x).mag ≤ (unpack32 y).mag) (hinf : (unpack32 y).mag < fmt32.inf) (hpos : 0 < units32 y) :
    InUnit (div32 x y) := by
  have h0 : (unpack32 y).mag ≠ 0 := fun h => by
    rw [units32, h] at hpos
    exact absurd hpos (by decide)
  rw [div32, Flt.div_finite (Nat.lt_of_le_of_lt hle hinf) hinf h0, hx, hy]
  exact (inUnit_pack32 (roundMag_quotient_le_one (magUnits_mono (by decide) hle (Nat.le_of_lt hinf)) hpos)).1

/-- `f32(a) / f32(b)` is from 0 to 1 for counts `a ≤ b`, though each of the three is rounded. -/
theorem inUnit_div32_f32 {a b : Nat} (hab : a ≤ b) (hb : 0 < b) (hb33 : b ≤ 2 ^ 33) : InUnit (div32 (f32 a) (f32 b)) := by
  have hua := unpack32_f32 (Nat.le_trans hab hb33)
  have hub := unpack32_f32 hb33
  have hinf := roundMag_f32_lt_inf hb33
  have hone : 0x3F800000 ≤ roundMag fmt32 (b * 2 ^ 149) 1 :=
    roundMag_one ▸ roundMag_mono (by decide) (Nat.le_mul_of_pos_left _ hb) 1
  have hunits : 2 ^ 149 ≤ units32 (f32 b) := by
    rw [units32, hub, ← magUnits_one]
    exact magUnits_mono (by decide) hone (Nat.le_of_lt hinf)
  apply inUnit_div32
  · rw [hua]
  · rw [hub]
  · rw [hua, hub]
    exact roundMag_mono (by decide) (Nat.mul_le_mul_right _ hab) 1
  · rwa [hub]
  · exact Nat.lt_of_lt_of_le (by positivity) hunits

/-! ### A crossfade -/

/-- Multiplying by a value of magnitude 1.0 sets the sign and rounds nothing. -/
theorem mul32_of_mag_one {w x : B32} (hw : (unpack32 w).mag = 0x3F800000) (hx : (unpack32 x).mag < fmt32.inf) :
    mul32 w x = pack32 ⟨(unpack32 w).neg != (unpack32 x).neg, (unpack32 x).mag⟩ := by
  have hw' : (unpack32 w).mag < fmt32.inf := hw ▸ (by decide)
  unfold mul32 Flt.mul
  simp only [Flt.isNaN_of_lt hw', Flt.isNaN_of_lt hx, Flt.isInf_of_lt hw', Flt.isInf_of_lt hx, Bool.or_self,
    Bool.false_eq_true, if_false, hw]
  have hround := roundMag_scale fmt32 (magUnits fmt32 (unpack32 x).mag) 1 (2 ^ fmt32.scale) (by positivity)
  rw [Nat.one_mul, roundMag_magUnits fmt32 (by decide) (Nat.le_of_lt hx), Nat.mul_comm] at hround
  rw [magUnits_one, show (2 : Nat) ^ 149 = 2 ^ fmt32.scale from rfl, hround]
  rfl

/-- The value of a ramp from 1.0 to 0.0 with the share `q` left: `q` itself. -/
theorem fadeOut_value {q : B32} (h : InUnit q) : add32 zero32 (mul32 (sub32 one32 zero32) q) = q := by
  have hs : sub32 one32 zero32 = one32 := by decide +kernel
  have hq : mul32 one32 q = q := by
    rw [mul32_of_mag_one (by decide) h.mag_lt_inf, h.1, unpack32_one32]
    exact (congrArg pack32 h.unpack).symm.trans (pack32_unpack32 q)
  have hfin : finite32 q = true := decide_eq_true h.mag_lt_inf
  rw [hs, hq, add32_zero32_left hfin, if_neg]
  rintro rfl
  exact absurd h.1 (by decide)

/-- The value of a ramp from 0.0 to 1.0 with the share `q` left: `1.0 - q`, rounded. -/
theorem fadeIn_value {q : B32} (h : InUnit q) : add32 one32 (mul32 (sub32 zero32 one32) q) = add32 one32 (neg32 q) := by
  have hs : sub32 zero32 one32 = 0xBF800000#32 := by decide +kernel
  have hq : mul32 0xBF800000#32 q = neg32 q := by
    have hn : (unpack32 0xBF800000#32).neg = true := by decide
    rw [mul32_of_mag_one (by decide) h.mag_lt_inf, hn, Bool.true_bne, ← unpack32_neg32, pack32_unpack32]
  rw [hs, hq]

/-- EVERYTHING A CROSSFADE KEEPS: a ramp toward 1.0 and one toward 0.0 with the same steps left, and values that sum to 1.0. -/
structure Crossfade (fadeIn fadeOut : Ramp) : Prop where
  ends : fadeIn.s = zero32 ∧ fadeIn.t = one32 ∧ fadeOut.s = one32 ∧ fadeOut.t = zero32
  rem : fadeOut.rem = fadeIn.rem
  tot : fadeOut.tot = fadeIn.tot
  wf : fadeIn.Wf
  sum : add32 fadeIn.v fadeOut.v = one32

theorem Crossfade.between_sum {r₁ r₂ : Ramp} (h : Crossfade r₁ r₂) {m : U33} (hm : m.toNat ≤ r₁.tot.toNat)
    (h0 : 0 < r₁.tot.toNat) : add32 (r₁.between m) (r₂.between m) = one32 := by
  obtain ⟨hs₁, ht₁, hs₂, ht₂⟩ := h.ends
  have hq := inUnit_div32_f32 hm h0 (Nat.le_of_lt r₁.tot.isLt)
  rw [Ramp.between, Ramp.between, h.tot, hs₁, ht₁, hs₂, ht₂, fadeIn_value hq, fadeOut_value hq]
  exact add32_one_neg_add hq

/-! What a tick leaves in each field of a ramp (R173). -/

@[simp] theorem Ramp.tick_s (r : Ramp) : r.tick.s = r.s := by unfold Ramp.tick; split <;> rfl
@[simp] theorem Ramp.tick_t (r : Ramp) : r.tick.t = r.t := by unfold Ramp.tick; split <;> rfl
@[simp] theorem Ramp.tick_tot (r : Ramp) : r.tick.tot = r.tot := by unfold Ramp.tick; split <;> rfl
theorem Ramp.tick_rem (r : Ramp) : r.tick.rem = if 0 < r.rem.toNat then r.rem - 1 else r.rem := by
  unfold Ramp.tick; split <;> rfl
theorem Ramp.tick_v (r : Ramp) :
    r.tick.v = if 0 < r.rem.toNat ∧ r.rem - 1 ≠ 0 then r.between (r.rem - 1) else r.t := by
  unfold Ramp.tick
  by_cases h0 : 0 < r.rem.toNat <;> simp [h0]

/-- A step that remains is one of the steps of the whole ramp. -/
theorem Ramp.Wf.rem_sub_one_le {r : Ramp} (h : r.Wf) (h0 : 0 < r.rem.toNat) : (r.rem - 1).toNat ≤ r.tot.toNat := by
  rw [BitVec.toNat_sub_of_le (show (1 : U33) ≤ r.rem from h0)]
  exact Nat.le_trans (Nat.sub_le _ _) h

/-- Two ramps of one length stay a crossfade: both take the value of the same share, or both arrive. -/
theorem Crossfade.tick {r₁ r₂ : Ramp} (h : Crossfade r₁ r₂) : Crossfade r₁.tick r₂.tick where
  ends := by simpa using h.ends
  rem := by rw [Ramp.tick_rem, Ramp.tick_rem, h.rem]
  tot := by simpa using h.tot
  wf := Ramp.tick_wf h.wf
  sum := by
    rw [Ramp.tick_v, Ramp.tick_v, h.rem]
    split
    next hc => exact h.between_sum (h.wf.rem_sub_one_le hc.1) (Nat.lt_of_lt_of_le hc.1 h.wf)
    next =>
      obtain ⟨_, ht₁, _, ht₂⟩ := h.ends
      rw [ht₁, ht₂]
      decide +kernel

/-- A ramp from 0.0 to 1.0 and one from 1.0 to 0.0, started together with one length, are a crossfade (R172, R207). -/
theorem crossfade_start (n : U32) : Crossfade ((steadyRamp zero32).ramp one32 n) ((steadyRamp one32).ramp zero32 n) where
  ends := ⟨rfl, rfl, rfl, rfl⟩
  rem := rfl
  tot := rfl
  wf := Ramp.ramp_wf _ _ _
  sum := by
    change add32 zero32 one32 = one32
    decide +kernel

theorem Crossfade.iterate_tick {r₁ r₂ : Ramp} (h : Crossfade r₁ r₂) (k : Nat) :
    Crossfade (Ramp.tick^[k] r₁) (Ramp.tick^[k] r₂) := by
  induction k with
  | zero => exact h
  | succ k ih => rw [Function.iterate_succ_apply', Function.iterate_succ_apply']; exact ih.tick

/-- Settles O22: the two ramps are a crossfade on every tick, and adding `q` back undoes the
rounding of `1.0 - q`. -/
theorem complementaryRampsSumToOne : Obligations.ComplementaryRampsSumToOne := fun n k =>
  ((crossfade_start n).iterate_tick k).sum

end Sys2Proof.Machine
end

section
/-! SUPPORT. Every command is one use of the frame on its unit, so that every step keeps the construction (spec/00_scope.md R3, R6); the
legal constructions (R6, R49); which command raises which fault (spec/60_exceptions.md R382). -/

namespace Sys2Proof.Machine

-- As in the tests: one kernel check at a time keeps the compile within the check's memory limit; no proof depends on it.
set_option Elab.async false

/-! ### Every command is one use of the frame -/

/-- A selector and a constructor of one configuration's unit: the selector answers exactly on what the constructor builds. -/
structure Selects {α : Type} (k : Kind) (sel : UnitState → Option α) (put : α → UnitState) : Prop where
  eq_some : ∀ {u : UnitState} {a : α}, sel u = some a ↔ u = put a
  eq_none : ∀ {u : UnitState}, sel u = none ↔ u.kind ≠ k
  kind_put : ∀ a : α, (put a).kind = k

theorem selects_engine : Selects .engine UnitState.engine? UnitState.engine :=
  ⟨UnitState.engine?_eq_some, UnitState.engine?_eq_none, fun _ => rfl⟩
theorem selects_cbuf : Selects .cbuf UnitState.cbuf? UnitState.cbuf :=
  ⟨UnitState.cbuf?_eq_some, UnitState.cbuf?_eq_none, fun _ => rfl⟩
theorem selects_ramp : Selects .ramp UnitState.ramp? UnitState.ramp :=
  ⟨UnitState.ramp?_eq_some, UnitState.ramp?_eq_none, fun _ => rfl⟩
theorem selects_grain : Selects .grain UnitState.grain? UnitState.grain :=
  ⟨UnitState.grain?_eq_some, UnitState.grain?_eq_none, fun _ => rfl⟩
theorem selects_pool : Selects .pool UnitState.pool? UnitState.pool :=
  ⟨UnitState.pool?_eq_some, UnitState.pool?_eq_none, fun _ => rfl⟩
theorem selects_evsched : Selects .evsched UnitState.evsched? UnitState.evsched :=
  ⟨UnitState.evsched?_eq_some, UnitState.evsched?_eq_none, fun _ => rfl⟩
theorem selects_lem : Selects .lem UnitState.lem? UnitState.lem :=
  ⟨UnitState.lem?_eq_some, UnitState.lem?_eq_none, fun _ => rfl⟩

/-- EVERYTHING `exec` IS: a read of a register, or the frame of every command around a body on the unit of the command's
configuration (R383). -/
theorem exec_cases (i : Instr) (s : State) :
    (∃ reg, i = .eReadReg reg) ∨
    ∃ (α : Type) (sel : UnitState → Option α) (put : α → UnitState) (body : α → Except Cause (α × List Word64)),
      Selects i.kind sel put ∧ exec i s = .next (s.command i sel put body) := by
  cases i
  case eReadReg reg => exact .inl ⟨reg, rfl⟩
  case eTick | eSetGrid | eSetLoopOffset | eSetFadeTime | eSetTempo | eSetSampleRate | eSetReverse | eSetSpeed | eStartLooping
      | eStopLooping | eReset => exact .inr ⟨_, _, _, _, selects_engine, rfl⟩
  case cbTick | cbRead | cbReadInterp | cbReset => exact .inr ⟨_, _, _, _, selects_cbuf, rfl⟩
  case rvSet | rvRamp | rvTick => exact .inr ⟨_, _, _, _, selects_ramp, rfl⟩
  case grNew | grTick | grStop | grIsFinished | grIsWaiting | grIsPlaying | grIsFadingIn | grIsFadingOut =>
    exact .inr ⟨_, _, _, _, selects_grain, rfl⟩
  case gpSchedule | gpStartLooping | gpStopLooping | gpTick | gpStopAll | gpCountPlaying | gpCountWaiting | gpCountFinished
      | gpMostRecent | gpReset => exact .inr ⟨_, _, _, _, selects_pool, rfl⟩
  case esSchedule | esTick | esClear => exact .inr ⟨_, _, _, _, selects_evsched, rfl⟩
  case lmStartLooping | lmStopLooping | lmSetGridInterval | lmTick | lmSetFadeInTime | lmReset =>
    exact .inr ⟨_, _, _, _, selects_lem, rfl⟩

/-- EVERYTHING A REGISTER READ CAN DO: be an illegal word in another configuration, answer the register, be rejected while faulted,
or take ILLEGAL_COMMAND (R346, R385). -/
theorem execEReadReg_cases (reg : BitVec 8) (s : State) :
    (∃ cw unit op, execEReadReg reg s = .next (s.illegalWord cw unit op) ∧ s.kind ≠ .engine) ∨
    (∃ v, execEReadReg reg s = .next (s.respond .ok [v])) ∨
    (s.fault.valid = true ∧ ∃ zeros, execEReadReg reg s = .next (s.reject zeros)) ∨
    (s.fault.valid = false ∧ ∃ unit op zeros, execEReadReg reg s = .next (s.takeFault .illegalCommand unit op zeros)) := by
  unfold execEReadReg
  cases hu : s.unit.engine? with
  | none => exact .inl ⟨_, _, _, rfl, UnitState.engine?_eq_none.1 hu⟩
  | some e =>
    cases hr : e.readReg s.params s.fault reg with
    | some v => exact .inr (.inl ⟨v, by simp only [hr]⟩)
    | none =>
      cases hv : s.fault.valid with
      | true => exact .inr (.inr (.inl ⟨rfl, (Instr.eReadReg reg).zeroWords, by simp only [hr, if_true]⟩))
      | false =>
        exact .inr (.inr (.inr ⟨rfl, (Instr.eReadReg reg).kind.code, (Instr.eReadReg reg).op, (Instr.eReadReg reg).zeroWords,
          by simp only [hr, Bool.false_eq_true, if_false]⟩))

/-! ### Every step keeps the construction -/

/-- `t` is what was built as `s` is, with the same things presented: the same construction parameters and configuration, the same port. -/
def State.SameInstance (s t : State) : Prop := t.params = s.params ∧ t.kind = s.kind ∧ t.port = s.port

theorem State.illegalWord_sameInstance (s : State) (cw : CmdWord) (unit op : BitVec 4) :
    s.SameInstance (s.illegalWord cw unit op) := by
  obtain ⟨zeros, _, ⟨_, e⟩ | ⟨_, e⟩⟩ := s.illegalWord_cases cw unit op <;> rw [e] <;> exact ⟨rfl, rfl, rfl⟩

/-- The frame of a command puts back a unit of the configuration that it took. -/
theorem Selects.command_sameInstance {α : Type} {k : Kind} {sel : UnitState → Option α} {put : α → UnitState}
    (hs : Selects k sel put) (s : State) (i : Instr) (body : α → Except Cause (α × List Word64)) :
    s.SameInstance (s.command i sel put body) := by
  rcases s.command_cases i sel put body with ⟨_, e⟩ | ⟨_, _, _, e⟩ | ⟨a, a', _, ha, _, _, e⟩ | ⟨_, _, _, _, _, e⟩ <;> rw [e]
  · exact s.illegalWord_sameInstance _ _ _
  · exact ⟨rfl, rfl, rfl⟩
  · refine ⟨rfl, ?_, rfl⟩
    rw [State.executed_kind, hs.kind_put, State.kind, hs.eq_some.1 ha, hs.kind_put]
  · exact ⟨rfl, rfl, rfl⟩

theorem execEReadReg_sameInstance (reg : BitVec 8) (s : State) :
    ∃ t, execEReadReg reg s = .next t ∧ s.SameInstance t := by
  rcases execEReadReg_cases reg s with ⟨_, _, _, e, _⟩ | ⟨_, e⟩ | ⟨_, _, e⟩ | ⟨_, _, _, _, e⟩
  · exact ⟨_, e, s.illegalWord_sameInstance _ _ _⟩
  · exact ⟨_, e, rfl, rfl, rfl⟩
  · exact ⟨_, e, rfl, rfl, rfl⟩
  · exact ⟨_, e, rfl, rfl, rfl⟩

theorem exec_sameInstance (i : Instr) (s : State) : ∃ t, exec i s = .next t ∧ s.SameInstance t := by
  rcases exec_cases i s with ⟨reg, rfl⟩ | ⟨_, _, _, body, hs, e⟩
  · exact execEReadReg_sameInstance reg s
  · exact ⟨_, e, hs.command_sameInstance s i body⟩

theorem runTransaction_sameInstance (tx : Transaction) (s : State) :
    ∃ t, runTransaction tx s = .next t ∧ s.SameInstance t := by
  unfold runTransaction
  cases decode s.kind tx with
  | ok i => exact exec_sameInstance i s
  | error _ => exact ⟨_, rfl, s.illegalWord_sameInstance _ _ _⟩

/-- Settles O8: a step holds the state, resets the machine as constructed, or runs a command, which keeps the construction. -/
theorem everyStepAnswersAndKeepsConfiguration : Obligations.EveryStepAnswersAndKeepsConfiguration := by
  intro s
  unfold step
  cases hp : s.port with
  | nil => exact ⟨s, rfl, rfl, rfl, hp⟩
  | cons p rest =>
    cases p with
    | reset => exact ⟨_, rfl, rfl, State.hardwareReset_kind _, rfl⟩
    | command tx => exact runTransaction_sameInstance tx { s with port := rest }

/-! ### The legal constructions -/

theorem powerOnFault_wf : powerOnFault.Wf := ⟨by simp [powerOnFault], fun _ => ⟨rfl, rfl, rfl⟩⟩

theorem valid_engine_iff {p : Params} : p.Valid .engine ↔ p.validPool ∧ p.validQ ∧ p.validF := decide_eq_true_iff
theorem valid_cbuf_iff {p : Params} : p.Valid .cbuf ↔ p.validC ∧ p.validN := decide_eq_true_iff
theorem valid_pool_iff {p : Params} : p.Valid .pool ↔ p.validPool := decide_eq_true_iff
theorem valid_evsched_iff {p : Params} : p.Valid .evsched ↔ p.validQ := decide_eq_true_iff
theorem valid_lem_iff {p : Params} : p.Valid .lem ↔ p.validQ := decide_eq_true_iff

/-- Both buffers of a legal pool have a slot. -/
theorem Params.buffers_pos {p : Params} (h : p.validPool) : 0 < p.R ∧ 0 < p.S := by
  obtain ⟨_, ⟨hLR, _⟩, hL, _, _⟩ := h
  exact ⟨Nat.lt_of_le_of_lt (Nat.zero_le _) hLR, Nat.lt_of_lt_of_le hL (Nat.le_add_right _ _)⟩

/-- The power-on unit of a legal construction is sound. -/
theorem powerOnUnit_wfB {p : Params} {k : Kind} (h : p.Valid k) : (powerOnUnit p k).wfB p = true := by
  cases k
  case engine =>
    obtain ⟨hR, hS⟩ := Params.buffers_pos (valid_engine_iff.1 h).1
    exact decide_eq_true (powerOnEngine_wf hR hS)
  case cbuf => exact decide_eq_true (powerOnCBuf_wf (valid_cbuf_iff.1 h).2.1 _)
  case ramp => exact decide_eq_true (steadyRamp_wf 0)
  case grain => exact decide_eq_true powerOnGrain_wf
  case pool =>
    obtain ⟨hR, hS⟩ := Params.buffers_pos (valid_pool_iff.1 h)
    exact decide_eq_true (powerOnPool_wf hR hS)
  case evsched => exact decide_eq_true (evQueueWf_nil (α := Word64) p.Q)
  case lem => exact decide_eq_true (powerOnLem_wf p.Q)

theorem State.powerOn_inv {p : Params} {k : Kind} (h : p.Valid k) : (State.powerOn p k).Inv :=
  ⟨by simpa using h, powerOnFault_wf, powerOnUnit_wfB h⟩

/-- Settles O14: the construction tests `Valid`, and the power-on state of every legal construction is sound. -/
theorem constructionIsSoundOrRefused : Obligations.ConstructionIsSoundOrRefused := by
  intro p k
  refine ⟨fun h => ⟨if_pos h, State.powerOn_inv h⟩, fun h => if_neg h, ?_⟩
  rw [valid_engine_iff]
  simp only [and_assoc]
  rfl

/-! ### The causes of each command -/

/-- A command of this configuration that leaves the machine faulted, where it was not, ran on the unit and raised the cause. -/
theorem Selects.command_fault {α : Type} {k : Kind} {sel : UnitState → Option α} {put : α → UnitState} (hs : Selects k sel put)
    {s t : State} {i : Instr} {body : α → Except Cause (α × List Word64)} (hk : s.kind = k) (hv : s.fault.valid = false)
    (h : (Host.Outcome.next (s.command i sel put body) : Host.Outcome State Fault Refusal) = .next t)
    (hf : t.fault.valid = true) : ∃ a c, s.unit = put a ∧ body a = .error c ∧ t.fault.cause = c.code := by
  cases ha : sel s.unit with
  | none => exact absurd hk (hs.eq_none.1 ha)
  | some a =>
    obtain ⟨c, hb, hc⟩ := State.command_fault ha hv h hf
    exact ⟨a, c, hs.eq_some.1 ha, hb, hc⟩

theorem Engine.silently_error {r : Except Cause Engine} {c : Cause} (h : Engine.silently r = .error c) : r = .error c := by
  cases r <;> cases h; rfl

theorem Engine.withLem_error {e : Engine} {r : Except Cause Lem} {c : Cause} (h : e.withLem r = .error c) : r = .error c := by
  cases r <;> cases h; rfl

theorem Lem.silently_error {r : Except Cause Lem} {c : Cause} (h : Lem.silently r = .error c) : r = .error c := by
  cases r <;> cases h; rfl

theorem Grain.installing_error {r : Except Cause Grain} {c : Cause} (h : Grain.installing r = .error c) : r = .error c := by
  cases r <;> cases h; rfl

theorem CBuf.reading_error {b : CBuf} {r : Except Cause Sample} {c : Cause} (h : b.reading r = .error c) : r = .error c := by
  cases r <;> cases h; rfl

theorem evTick_error {α : Type} {q : EvQueue α} {now : B64} {c : Cause} (h : evTick q now = .error c) : c = .badParameter := by
  rcases evTick_cases q now with ⟨_, e⟩ | ⟨_, e⟩ <;> rw [e] at h <;> cases h
  rfl

theorem Engine.setLoopOffset_error {e : Engine} {x : B64} {c : Cause} (h : e.setLoopOffset x = .error c) : c = .badParameter := by
  unfold Engine.setLoopOffset at h
  split at h <;> cases h
  rfl

theorem Engine.setTempo_error {e : Engine} {x : B64} {c : Cause} (h : e.setTempo x = .error c) : c = .badParameter := by
  unfold Engine.setTempo at h
  split at h <;> cases h
  rfl

theorem Engine.setSampleRate_error {e : Engine} {x : B64} {c : Cause} (h : e.setSampleRate x = .error c) : c = .badParameter := by
  unfold Engine.setSampleRate at h
  split at h <;> cases h
  rfl

theorem Engine.setSpeed_error {e : Engine} {x : B32} {c : Cause} (h : e.setSpeed x = .error c) : c = .badParameter := by
  unfold Engine.setSpeed at h
  split at h <;> cases h
  rfl

/-- E.START_LOOPING faults as the LEM's start does (R343). -/
theorem Engine.startLooping_error {prm : Params} {e : Engine} {c : Cause} (h : e.startLooping prm = .error c) :
    e.E.startLooping prm.Q = .error c := by
  unfold Engine.startLooping at h
  split at h
  · cases h
  · split at h <;> cases h
    assumption

/-- E.STOP_LOOPING faults as the LEM's stop does (R344). -/
theorem Engine.stopLooping_error {prm : Params} {e : Engine} {c : Cause} (h : e.stopLooping prm = .error c) :
    e.E.stopLooping prm.Q = .error c := by
  unfold Engine.stopLooping at h
  split at h
  · cases h
  · split at h <;> cases h
    assumption

/-- E.TICK's row of R382 is every cause but the two that its tick cannot raise. -/
theorem Engine.tick_code_mem {prm : Params} (hp : prm.Valid .engine) {e : Engine} {x : Sample} {b : B64} {c : Cause}
    (h : e.tick prm x b = .error c) : c.code.toNat ∈ [2, 3, 4, 5, 7, 8, 9] := by
  obtain ⟨⟨_, ⟨hLR, hR⟩, _⟩, _, hF⟩ := valid_engine_iff.1 hp
  obtain ⟨h1, h6⟩ := Engine.tick_error (Nat.le_of_lt (Nat.lt_of_lt_of_le hLR hR)) hF h
  cases c <;> simp [Cause.code] at h1 h6 ⊢

/-- A grain's construction raises the two causes of R191. -/
theorem Grain.new_code_mem {wait : U32} {offset : B32} {duration fade : U32} {reverse : Bool} {speed : B32} {c : Cause}
    (h : Grain.new wait offset duration fade reverse speed = .error c) : c.code.toNat ∈ [8, 6] := by
  rcases Grain.new_error h with rfl | ⟨rfl, _⟩ <;> decide

/-- A schedule raises the three causes of R270. -/
theorem evSchedule_code_mem {α : Type} {cap : Nat} {q : EvQueue α} {time : B64} {e : α} {c : Cause}
    (h : evSchedule cap q time e = .error c) : c.code.toNat ∈ [8, 3, 4] := by
  rcases evSchedule_error h with ⟨rfl, _⟩ | ⟨rfl, _⟩ | ⟨rfl, _⟩ <;> decide

/-- A LEM's tick raises the four causes of R292. -/
theorem Lem.tick_code_mem {cap : Nat} {m : Lem} {st : B64} {c : Cause} (h : m.tick cap st = .error c) :
    c.code.toNat ∈ [8, 5, 4, 3] := by
  rcases Lem.tick_error h with rfl | rfl | rfl | rfl <;> decide

/-- A start raises the two causes of its row, or BAD_PARAMETER at a boundary that is not finite (log entry 11). -/
theorem Lem.startLooping_code {cap : Nat} {m : Lem} {c : Cause} (h : m.startLooping cap = .error c) :
    c.code.toNat ∈ [3, 4] ∨ (c.code.toNat = 8 ∧ finite64 (ngb (m.cst.getD 0) m.grid m.lead) = false) := by
  rcases Lem.startLooping_error h with ⟨rfl, hn⟩ | rfl | rfl
  · exact .inr ⟨rfl, hn⟩
  · exact .inl (by decide)
  · exact .inl (by decide)

/-- The part of the parameters that a queue needs, in both configurations that hold a LEM: room for two entries. -/
theorem Params.validQ_two_le {p : Params} (h : p.validQ) : 2 ≤ p.Q := Nat.le_trans (by decide) h.1

/-- A command of this configuration raises one of these codes where every fault of its body has one of them. -/
theorem Selects.cause_mem {α : Type} {k : Kind} {sel : UnitState → Option α} {put : α → UnitState} (hs : Selects k sel put)
    {s t : State} {i : Instr} {body : α → Except Cause (α × List Word64)} (hk : s.kind = k) (hv : s.fault.valid = false)
    (h : (Host.Outcome.next (s.command i sel put body) : Host.Outcome State Fault Refusal) = .next t)
    (hf : t.fault.valid = true) {codes : List Nat} (hcodes : ∀ a c, body a = .error c → c.code.toNat ∈ codes) :
    t.fault.cause.toNat ∈ codes := by
  obtain ⟨a, c, _, hb, hc⟩ := hs.command_fault hk hv h hf
  rw [hc]
  exact hcodes a c hb

/-- A command of this configuration whose only fault is BAD_PARAMETER. -/
theorem Selects.cause_badParameter {α : Type} {k : Kind} {sel : UnitState → Option α} {put : α → UnitState}
    (hs : Selects k sel put) {s t : State} {i : Instr} {body : α → Except Cause (α × List Word64)} (hk : s.kind = k)
    (hv : s.fault.valid = false)
    (h : (Host.Outcome.next (s.command i sel put body) : Host.Outcome State Fault Refusal) = .next t)
    (hf : t.fault.valid = true) (hbad : ∀ a c, body a = .error c → c = .badParameter) : t.fault.cause.toNat ∈ [8] :=
  hs.cause_mem hk hv h hf fun a c hb => hbad a c hb ▸ List.mem_singleton.2 rfl

/-- A read of a register that leaves the machine faulted was of a reserved one (R346). -/
theorem execEReadReg_cause {s t : State} {reg : BitVec 8} (hk : s.kind = .engine) (hv : s.fault.valid = false)
    (h : execEReadReg reg s = .next t) (hf : t.fault.valid = true) : t.fault.cause.toNat ∈ [1] := by
  rcases execEReadReg_cases reg s with ⟨_, _, _, _, hne⟩ | ⟨_, e⟩ | ⟨hv', _⟩ | ⟨_, _, _, _, e⟩
  · exact absurd hk hne
  · cases e.symm.trans h
    exact absurd hf (by simp [hv])
  · exact absurd hv' (by simp [hv])
  · cases e.symm.trans h
    exact List.mem_singleton.2 rfl

/-- Settles O56: the causes of the operation that each command calls, on the parameters that the construction allows. -/
theorem causesPerCommand : Obligations.CausesPerCommand := by
  intro s t i hinv hk hv h hf
  obtain ⟨hvalid, _, _⟩ := hinv
  rw [hk] at hvalid
  cases i
  case eTick =>
    refine .inl (selects_engine.cause_mem hk hv h hf fun e c hb => ?_)
    split at hb <;> cases hb
    exact Engine.tick_code_mem hvalid ‹_›
  case eSetGrid =>
    obtain ⟨_, hQ, _⟩ := valid_engine_iff.1 hvalid
    exact .inl (selects_engine.cause_badParameter hk hv h hf fun _ _ hb =>
      Lem.setGridInterval_error (Params.validQ_two_le hQ) (Engine.withLem_error (Engine.silently_error hb)))
  case eSetLoopOffset =>
    exact .inl (selects_engine.cause_badParameter hk hv h hf fun _ _ hb =>
      Engine.setLoopOffset_error (Engine.silently_error hb))
  case eSetFadeTime =>
    exact .inl (selects_engine.cause_badParameter hk hv h hf fun _ _ hb =>
      Lem.setFadeInTime_error (Engine.withLem_error (Engine.silently_error hb)))
  case eSetTempo =>
    exact .inl (selects_engine.cause_badParameter hk hv h hf fun _ _ hb => Engine.setTempo_error (Engine.silently_error hb))
  case eSetSampleRate =>
    exact .inl (selects_engine.cause_badParameter hk hv h hf fun _ _ hb =>
      Engine.setSampleRate_error (Engine.silently_error hb))
  case eSetSpeed =>
    exact .inl (selects_engine.cause_badParameter hk hv h hf fun _ _ hb => Engine.setSpeed_error (Engine.silently_error hb))
  case eStartLooping =>
    obtain ⟨e, c, hu, hb, hc⟩ := selects_engine.command_fault hk hv h hf
    rw [hc]
    refine (Lem.startLooping_code (Engine.startLooping_error (Engine.silently_error hb))).imp_right ?_
    exact fun ⟨h8, hn⟩ => ⟨h8, by simp, e.E, .inr ⟨e, hu, rfl⟩, hn⟩
  case eStopLooping =>
    obtain ⟨_, hQ, _⟩ := valid_engine_iff.1 hvalid
    obtain ⟨e, c, hu, hb, hc⟩ := selects_engine.command_fault hk hv h hf
    obtain ⟨rfl, hn⟩ := Lem.stopLooping_error (Params.validQ_two_le hQ)
      (Engine.stopLooping_error (Engine.silently_error hb))
    exact .inr ⟨by rw [hc]; rfl, by simp, e.E, .inr ⟨e, hu, rfl⟩, hn⟩
  case eReadReg => exact .inl (execEReadReg_cause hk hv h hf)
  case cbRead =>
    exact .inl (selects_cbuf.cause_mem hk hv h hf fun _ _ hb =>
      CBuf.read_error (CBuf.reading_error hb) ▸ List.mem_singleton.2 rfl)
  case cbReadInterp =>
    exact .inl (selects_cbuf.cause_mem hk hv h hf fun _ _ hb =>
      CBuf.readInterp_error (CBuf.reading_error hb) ▸ List.mem_singleton.2 rfl)
  case grNew =>
    exact .inl (selects_grain.cause_mem hk hv h hf fun _ _ hb => Grain.new_code_mem (Grain.installing_error hb))
  case gpSchedule =>
    refine .inl (selects_pool.cause_mem hk hv h hf fun p c hb => ?_)
    split at hb <;> cases hb
    exact Grain.new_code_mem ‹_›
  case gpTick =>
    refine .inl (selects_pool.cause_mem hk hv h hf fun p c hb => ?_)
    split at hb <;> cases hb
    exact Pool.tick_error ‹_› ▸ List.mem_singleton.2 rfl
  case esSchedule =>
    refine .inl (selects_evsched.cause_mem hk hv h hf fun q c hb => ?_)
    split at hb <;> cases hb
    exact evSchedule_code_mem ‹_›
  case esTick =>
    refine .inl (selects_evsched.cause_badParameter hk hv h hf fun q c hb => ?_)
    split at hb <;> cases hb
    exact evTick_error ‹_›
  case lmStartLooping =>
    obtain ⟨m, c, hu, hb, hc⟩ := selects_lem.command_fault hk hv h hf
    rw [hc]
    refine (Lem.startLooping_code (Lem.silently_error hb)).imp_right ?_
    exact fun ⟨h8, hn⟩ => ⟨h8, by simp, m, .inl hu, hn⟩
  case lmStopLooping =>
    obtain ⟨m, c, hu, hb, hc⟩ := selects_lem.command_fault hk hv h hf
    obtain ⟨rfl, hn⟩ := Lem.stopLooping_error (Params.validQ_two_le (valid_lem_iff.1 hvalid)) (Lem.silently_error hb)
    exact .inr ⟨by rw [hc]; rfl, by simp, m, .inl hu, hn⟩
  case lmSetGridInterval =>
    exact .inl (selects_lem.cause_badParameter hk hv h hf fun _ _ hb =>
      Lem.setGridInterval_error (Params.validQ_two_le (valid_lem_iff.1 hvalid)) (Lem.silently_error hb))
  case lmTick =>
    refine .inl (selects_lem.cause_mem hk hv h hf fun m c hb => ?_)
    split at hb <;> cases hb
    exact Lem.tick_code_mem ‹_›
  case lmSetFadeInTime =>
    exact .inl (selects_lem.cause_badParameter hk hv h hf fun _ _ hb => Lem.setFadeInTime_error (Lem.silently_error hb))
  case eSetReverse | eReset =>
    obtain ⟨_, _, -, hb, -⟩ := selects_engine.command_fault hk hv h hf
    cases hb
  case cbTick | cbReset =>
    obtain ⟨_, _, -, hb, -⟩ := selects_cbuf.command_fault hk hv h hf
    cases hb
  case rvSet | rvRamp | rvTick =>
    obtain ⟨_, _, -, hb, -⟩ := selects_ramp.command_fault hk hv h hf
    cases hb
  case grTick | grStop | grIsFinished | grIsWaiting | grIsPlaying | grIsFadingIn | grIsFadingOut =>
    obtain ⟨_, _, -, hb, -⟩ := selects_grain.command_fault hk hv h hf
    cases hb
  case gpStartLooping | gpStopLooping | gpStopAll | gpCountPlaying | gpCountWaiting | gpCountFinished | gpMostRecent | gpReset =>
    obtain ⟨_, _, -, hb, -⟩ := selects_pool.command_fault hk hv h hf
    cases hb
  case esClear =>
    obtain ⟨_, _, -, hb, -⟩ := selects_evsched.command_fault hk hv h hf
    cases hb
  case lmReset =>
    obtain ⟨_, _, -, hb, -⟩ := selects_lem.command_fault hk hv h hf
    cases hb

end Sys2Proof.Machine
end

section
/-! SUPPORT. The invariants of spec/10_state.md: each operation and the frame of a command keep them, so that they hold at reset
(R49) and every step keeps them (R33 to R35, R37 to R39, R41, R42, R46). -/

namespace Sys2Proof.Machine

-- As in the tests: one kernel check at a time keeps the compile within the check's memory limit; no proof depends on it.
set_option Elab.async false

/-! ### The check of a unit is the soundness of what it holds -/

theorem wfB_engine_iff {prm : Params} (e : Engine) : (UnitState.engine e).wfB prm = true ↔ e.Wf prm := decide_eq_true_iff
theorem wfB_cbuf_iff {prm : Params} (b : CBuf) : (UnitState.cbuf b).wfB prm = true ↔ b.Wf prm.N prm.C := decide_eq_true_iff
theorem wfB_ramp_iff {prm : Params} (r : Ramp) : (UnitState.ramp r).wfB prm = true ↔ r.Wf := decide_eq_true_iff
theorem wfB_grain_iff {prm : Params} (g : Grain) : (UnitState.grain g).wfB prm = true ↔ g.Wf := decide_eq_true_iff
theorem wfB_pool_iff {prm : Params} (p : Pool) : (UnitState.pool p).wfB prm = true ↔ p.Wf prm := decide_eq_true_iff
theorem wfB_evsched_iff {prm : Params} (q : EvQueue Word64) :
    (UnitState.evsched q).wfB prm = true ↔ EvQueueWf prm.Q q := decide_eq_true_iff
theorem wfB_lem_iff {prm : Params} (m : Lem) : (UnitState.lem m).wfB prm = true ↔ m.Wf prm.Q := decide_eq_true_iff

/-! ### The ENGINE's setters and controls keep it sound (R336 to R345) -/

theorem Engine.setLoopOffset_wf {prm : Params} {e e' : Engine} {x : B64} (h : e.Wf prm) (he : e.setLoopOffset x = .ok e') :
    e'.Wf prm := by
  unfold Engine.setLoopOffset at he
  split at he <;> cases he
  exact h

theorem Engine.setTempo_wf {prm : Params} {e e' : Engine} {x : B64} (h : e.Wf prm) (he : e.setTempo x = .ok e') :
    e'.Wf prm := by
  obtain ⟨hP, hE, hD, _, _, hr⟩ := h
  unfold Engine.setTempo at he
  split at he <;> cases he
  rename_i hc
  simp only [Bool.or_eq_true, Bool.not_eq_true', not_or, Bool.not_eq_false] at hc
  exact ⟨hP, hE, hD, hc.1, hc.2, hr⟩

theorem Engine.setSampleRate_wf {prm : Params} {e e' : Engine} {x : B64} (h : e.Wf prm) (he : e.setSampleRate x = .ok e') :
    e'.Wf prm := by
  obtain ⟨hP, hE, hD, ht, ht0, _, _, hv⟩ := h
  unfold Engine.setSampleRate at he
  split at he <;> cases he
  rename_i hc
  simp only [Bool.or_eq_true, Bool.not_eq_true', not_or, Bool.not_eq_false] at hc
  exact ⟨hP, hE, hD, ht, ht0, hc.1, hc.2, hv⟩

theorem Engine.setSpeed_wf {prm : Params} {e e' : Engine} {x : B32} (h : e.Wf prm) (he : e.setSpeed x = .ok e') :
    e'.Wf prm := by
  obtain ⟨hP, hE, hD, ht, ht0, hs, hs0, _⟩ := h
  unfold Engine.setSpeed at he
  split at he <;> cases he
  rename_i hc
  exact ⟨hP, hE, hD, ht, ht0, hs, hs0, by simpa using hc⟩

/-- An operation of the LEM that keeps the LEM sound keeps the ENGINE around it sound (R330). -/
theorem Engine.withLem_wf {prm : Params} {e e' : Engine} {r : Except Cause Lem} (h : e.Wf prm) (he : e.withLem r = .ok e')
    (hr : e.E.Wf prm.Q → ∀ m, r = .ok m → m.Wf prm.Q) : e'.Wf prm := by
  obtain ⟨hP, hE, hrest⟩ := h
  unfold Engine.withLem at he
  split at he <;> cases he
  exact ⟨hP, hr hE _ rfl, hrest⟩

theorem Engine.startLooping_wf {prm : Params} {e e' : Engine} (h : e.Wf prm) (hS : 0 < prm.S)
    (he : e.startLooping prm = .ok e') : e'.Wf prm := by
  unfold Engine.startLooping at he
  split at he
  · cases he; exact h
  · obtain ⟨hP, hE, hrest⟩ := h
    split at he <;> cases he
    exact ⟨Pool.startLooping_wf hP hS, Lem.startLooping_wf hE ‹_›, hrest⟩

theorem Engine.stopLooping_wf {prm : Params} {e e' : Engine} (h : e.Wf prm) (he : e.stopLooping prm = .ok e') :
    e'.Wf prm := by
  unfold Engine.stopLooping at he
  split at he
  · cases he; exact h
  · obtain ⟨hP, hE, hrest⟩ := h
    split at he <;> cases he
    exact ⟨Pool.stopLooping_wf hP, Lem.stopLooping_wf hE ‹_›, hrest⟩

theorem Engine.reset_wf {prm : Params} {e : Engine} (h : e.Wf prm) (hR : 0 < prm.R) (hS : 0 < prm.S) : (e.reset prm).Wf prm := by
  obtain ⟨_, hE, _, hrest⟩ := h
  exact ⟨powerOnPool_wf hR hS, Lem.reset_wf hE, steadyRamp_wf one32, hrest⟩

/-! ### What a command's body answers is what its operation answers -/

theorem Engine.silently_ok {r : Except Cause Engine} {e : Engine} {res : List Word64} (h : Engine.silently r = .ok (e, res)) :
    r = .ok e := by
  cases r <;> cases h; rfl

theorem Lem.silently_ok {r : Except Cause Lem} {m : Lem} {res : List Word64} (h : Lem.silently r = .ok (m, res)) :
    r = .ok m := by
  cases r <;> cases h; rfl

theorem Grain.installing_ok {r : Except Cause Grain} {g : Grain} {res : List Word64} (h : Grain.installing r = .ok (g, res)) :
    r = .ok g := by
  cases r <;> cases h; rfl

/-- A read gives the buffer back as it was (R152, R153). -/
theorem CBuf.reading_ok {b b' : CBuf} {r : Except Cause Sample} {res : List Word64} (h : b.reading r = .ok (b', res)) :
    b' = b := by
  cases r <;> cases h; rfl

/-- The static buffer of a legal pool is far below the range of its 32-bit copy counter. -/
theorem Params.S_lt {p : Params} (h : p.validPool) : p.S < 2 ^ 32 := by
  obtain ⟨_, _, _, hS, _⟩ := h
  exact Nat.lt_of_le_of_lt hS (by decide)

/-! ### The frame of a command keeps the invariant -/

/-- The codes of the causes are 1 to 9 (R381). -/
theorem Cause.code_range (c : Cause) : 1 ≤ c.code.toNat ∧ c.code.toNat ≤ 9 := by cases c <;> decide

/-- FAULT is sound after a fault (R32, R384). -/
theorem FaultReg.wf_of_cause (c : Cause) (unit op : BitVec 4) : FaultReg.Wf ⟨true, c.code, unit, op⟩ :=
  ⟨fun _ => c.code_range, fun h => by cases h⟩

theorem State.takeFault_inv {s : State} (h : s.Inv) (c : Cause) (unit op : BitVec 4) (n : Nat) :
    (s.takeFault c unit op n).Inv := by
  obtain ⟨hp, _, hu⟩ := h
  exact ⟨hp, FaultReg.wf_of_cause c unit op, hu⟩

theorem State.illegalWord_inv {s : State} (h : s.Inv) (cw : CmdWord) (unit op : BitVec 4) : (s.illegalWord cw unit op).Inv := by
  obtain ⟨zeros, _, ⟨_, e⟩ | ⟨_, e⟩⟩ := s.illegalWord_cases cw unit op <;> rw [e]
  · exact h
  · exact State.takeFault_inv h _ _ _ _

/-- A command keeps the invariant where its body, under the legal parameters of its configuration, keeps the unit sound. -/
theorem Selects.command_inv {α : Type} {k : Kind} {sel : UnitState → Option α} {put : α → UnitState} (hs : Selects k sel put)
    {s t : State} {Sound : α → Prop} (hsound : ∀ a, (put a).wfB s.params = true ↔ Sound a) (hinv : s.Inv) {i : Instr}
    {body : α → Except Cause (α × List Word64)}
    (h : (Host.Outcome.next (s.command i sel put body) : Host.Outcome State Fault Refusal) = .next t)
    (hbody : s.params.Valid k → ∀ a a' res, Sound a → body a = .ok (a', res) → Sound a') : t.Inv := by
  cases h
  rcases s.command_cases i sel put body with ⟨_, e⟩ | ⟨_, _, _, e⟩ | ⟨a, a', res, ha, _, hb, e⟩ | ⟨_, c, _, _, _, e⟩ <;> rw [e]
  · exact State.illegalWord_inv hinv _ _ _
  · exact hinv
  · obtain ⟨hp, hf, hu⟩ := hinv
    have hunit : s.unit = put a := hs.eq_some.1 ha
    have hvalid : s.params.Valid k := by rwa [State.kind, hunit, hs.kind_put] at hp
    have ha' : Sound a' := hbody hvalid a a' res ((hsound a).1 (hunit ▸ hu)) hb
    exact ⟨by rwa [State.executed_kind, hs.kind_put], hf, (hsound a').2 ha'⟩
  · exact State.takeFault_inv hinv _ _ _ _

theorem execEReadReg_inv {s t : State} {reg : BitVec 8} (hinv : s.Inv) (h : execEReadReg reg s = .next t) : t.Inv := by
  rcases execEReadReg_cases reg s with ⟨_, _, _, e, _⟩ | ⟨_, e⟩ | ⟨_, _, e⟩ | ⟨_, _, _, _, e⟩ <;> cases e.symm.trans h
  · exact State.illegalWord_inv hinv _ _ _
  · exact hinv
  · exact hinv
  · exact State.takeFault_inv hinv _ _ _ _

/-! ### Every command and every step keeps the invariant -/

theorem exec_inv {s t : State} {i : Instr} (hinv : s.Inv) (h : exec i s = .next t) : t.Inv := by
  cases i
  case eTick =>
    refine selects_engine.command_inv wfB_engine_iff hinv h fun hv e e' res hw hb => ?_
    split at hb <;> cases hb
    exact Engine.tick_wf hw (Params.S_lt (valid_engine_iff.1 hv).1) (smp_length _ _) ‹_›
  case eSetGrid =>
    exact selects_engine.command_inv wfB_engine_iff hinv h fun _ _ _ _ hw hb =>
      Engine.withLem_wf hw (Engine.silently_ok hb) fun hE _ => Lem.setGridInterval_wf hE
  case eSetLoopOffset =>
    exact selects_engine.command_inv wfB_engine_iff hinv h fun _ _ _ _ hw hb =>
      Engine.setLoopOffset_wf hw (Engine.silently_ok hb)
  case eSetFadeTime =>
    exact selects_engine.command_inv wfB_engine_iff hinv h fun _ _ _ _ hw hb =>
      Engine.withLem_wf hw (Engine.silently_ok hb) fun hE _ => Lem.setFadeInTime_wf hE
  case eSetTempo =>
    exact selects_engine.command_inv wfB_engine_iff hinv h fun _ _ _ _ hw hb => Engine.setTempo_wf hw (Engine.silently_ok hb)
  case eSetSampleRate =>
    exact selects_engine.command_inv wfB_engine_iff hinv h fun _ _ _ _ hw hb =>
      Engine.setSampleRate_wf hw (Engine.silently_ok hb)
  case eSetReverse =>
    exact selects_engine.command_inv wfB_engine_iff hinv h fun _ _ _ _ hw hb => by cases hb; exact hw
  case eSetSpeed =>
    exact selects_engine.command_inv wfB_engine_iff hinv h fun _ _ _ _ hw hb => Engine.setSpeed_wf hw (Engine.silently_ok hb)
  case eStartLooping =>
    exact selects_engine.command_inv wfB_engine_iff hinv h fun hv _ _ _ hw hb =>
      Engine.startLooping_wf hw (Params.buffers_pos (valid_engine_iff.1 hv).1).2 (Engine.silently_ok hb)
  case eStopLooping =>
    exact selects_engine.command_inv wfB_engine_iff hinv h fun _ _ _ _ hw hb =>
      Engine.stopLooping_wf hw (Engine.silently_ok hb)
  case eReset =>
    refine selects_engine.command_inv wfB_engine_iff hinv h fun hv _ _ _ hw hb => ?_
    cases hb
    obtain ⟨hR, hS⟩ := Params.buffers_pos (valid_engine_iff.1 hv).1
    exact Engine.reset_wf hw hR hS
  case eReadReg => exact execEReadReg_inv hinv h
  case cbTick =>
    refine selects_cbuf.command_inv wfB_cbuf_iff hinv h fun _ _ _ _ hw hb => ?_
    cases hb
    exact CBuf.tick_wf hw (smp_length _ _)
  case cbRead | cbReadInterp =>
    exact selects_cbuf.command_inv wfB_cbuf_iff hinv h fun _ _ _ _ hw hb => CBuf.reading_ok hb ▸ hw
  case cbReset =>
    refine selects_cbuf.command_inv wfB_cbuf_iff hinv h fun hv _ _ _ _ hb => ?_
    cases hb
    exact powerOnCBuf_wf (valid_cbuf_iff.1 hv).2.1 _
  case rvSet =>
    exact selects_ramp.command_inv wfB_ramp_iff hinv h fun _ _ _ _ _ hb => by cases hb; exact Ramp.set_wf _ _
  case rvRamp =>
    exact selects_ramp.command_inv wfB_ramp_iff hinv h fun _ _ _ _ _ hb => by cases hb; exact Ramp.ramp_wf _ _ _
  case rvTick =>
    exact selects_ramp.command_inv wfB_ramp_iff hinv h fun _ _ _ _ hw hb => by cases hb; exact Ramp.tick_wf hw
  case grNew =>
    exact selects_grain.command_inv wfB_grain_iff hinv h fun _ _ _ _ _ hb => Grain.new_wf (Grain.installing_ok hb)
  case grTick =>
    exact selects_grain.command_inv wfB_grain_iff hinv h fun _ _ _ _ hw hb => by cases hb; exact Grain.tick_wf hw
  case grStop =>
    exact selects_grain.command_inv wfB_grain_iff hinv h fun _ _ _ _ hw hb => by cases hb; exact Grain.stop_wf hw
  case grIsFinished | grIsWaiting | grIsPlaying | grIsFadingIn | grIsFadingOut =>
    exact selects_grain.command_inv wfB_grain_iff hinv h fun _ _ _ _ hw hb => by cases hb; exact hw
  case gpSchedule =>
    refine selects_pool.command_inv wfB_pool_iff hinv h fun _ _ _ _ hw hb => ?_
    split at hb <;> cases hb
    exact Pool.schedule_wf hw (Grain.new_wf ‹_›)
  case gpStartLooping =>
    refine selects_pool.command_inv wfB_pool_iff hinv h fun hv _ _ _ hw hb => ?_
    cases hb
    exact Pool.startLooping_wf hw (Params.buffers_pos (valid_pool_iff.1 hv)).2
  case gpStopLooping =>
    exact selects_pool.command_inv wfB_pool_iff hinv h fun _ _ _ _ hw hb => by cases hb; exact Pool.stopLooping_wf hw
  case gpTick =>
    refine selects_pool.command_inv wfB_pool_iff hinv h fun hv _ _ _ hw hb => ?_
    split at hb <;> cases hb
    exact Pool.tick_wf hw (Params.S_lt (valid_pool_iff.1 hv)) (smp_length _ _) ‹_›
  case gpStopAll =>
    exact selects_pool.command_inv wfB_pool_iff hinv h fun _ _ _ _ hw hb => by cases hb; exact Pool.stopAll_wf hw
  case gpCountPlaying | gpCountWaiting | gpCountFinished | gpMostRecent =>
    exact selects_pool.command_inv wfB_pool_iff hinv h fun _ _ _ _ hw hb => by cases hb; exact hw
  case gpReset =>
    refine selects_pool.command_inv wfB_pool_iff hinv h fun hv _ _ _ _ hb => ?_
    cases hb
    obtain ⟨hR, hS⟩ := Params.buffers_pos (valid_pool_iff.1 hv)
    exact powerOnPool_wf hR hS
  case esSchedule =>
    refine selects_evsched.command_inv wfB_evsched_iff hinv h fun _ _ _ _ hw hb => ?_
    split at hb <;> cases hb
    exact evSchedule_wf hw ‹_›
  case esTick now =>
    refine selects_evsched.command_inv wfB_evsched_iff hinv h fun _ q _ _ hw hb => ?_
    rcases evTick_cases q now with ⟨_, e⟩ | ⟨_, e⟩ <;> rw [e] at hb <;> cases hb
    exact evRest_wf hw now
  case esClear =>
    exact selects_evsched.command_inv wfB_evsched_iff hinv h fun _ _ _ _ _ hb => by cases hb; exact evQueueWf_nil _
  case lmStartLooping =>
    exact selects_lem.command_inv wfB_lem_iff hinv h fun _ _ _ _ hw hb => Lem.startLooping_wf hw (Lem.silently_ok hb)
  case lmStopLooping =>
    exact selects_lem.command_inv wfB_lem_iff hinv h fun _ _ _ _ hw hb => Lem.stopLooping_wf hw (Lem.silently_ok hb)
  case lmSetGridInterval =>
    exact selects_lem.command_inv wfB_lem_iff hinv h fun _ _ _ _ hw hb => Lem.setGridInterval_wf hw (Lem.silently_ok hb)
  case lmTick =>
    refine selects_lem.command_inv wfB_lem_iff hinv h fun _ _ _ _ hw hb => ?_
    split at hb <;> cases hb
    exact Lem.tick_wf hw ‹_›
  case lmSetFadeInTime =>
    exact selects_lem.command_inv wfB_lem_iff hinv h fun _ _ _ _ hw hb => Lem.setFadeInTime_wf hw (Lem.silently_ok hb)
  case lmReset =>
    exact selects_lem.command_inv wfB_lem_iff hinv h fun _ _ _ _ hw hb => by cases hb; exact Lem.reset_wf hw

theorem runTransaction_inv {s t : State} {tx : Transaction} (hinv : s.Inv) (h : runTransaction tx s = .next t) : t.Inv := by
  unfold runTransaction at h
  split at h
  · exact exec_inv hinv h
  · cases h
    exact State.illegalWord_inv hinv _ _ _

/-- The reset input gives the power-on state of the construction, which is legal in a sound state (R410). -/
theorem State.hardwareReset_inv {s : State} (h : s.Inv) : s.hardwareReset.Inv := State.powerOn_inv h.1

/-- Settles O12: a step holds the state, resets the machine as constructed, or runs a command, whose operation keeps its unit
sound. -/
theorem stepKeepsInvariant : Obligations.StepKeepsInvariant := by
  intro s t hinv h
  unfold step at h
  split at h
  · cases h
    exact hinv
  · cases h
    exact State.hardwareReset_inv hinv
  · rename_i tx rest hp
    exact runTransaction_inv (s := { s with port := rest }) hinv h

/-- Settles O13: the parameters of the reset state are those of a legal ENGINE, and the power-on state of every legal construction
is sound. -/
theorem resetStateIsSound : Obligations.ResetStateIsSound := State.powerOn_inv (by decide)

end Sys2Proof.Machine
end

section
/-! SUPPORT. The register map of the ENGINE (spec/10_state.md R46), the fields of its packed registers as numbers, and the command
that reads it (spec/46_loop_engine.md R346): its word and what it answers. -/

namespace Sys2Proof.Machine

-- As in the tests: one kernel check at a time keeps the compile within the check's memory limit; no proof depends on it.
set_option Elab.async false

/-! ### Fields side by side in one word -/

/-- Two fields in one word, as a number: the upper one counts in units of `2 ^ w`. -/
theorem toNat_append_fields {v w : Nat} (x : BitVec v) (y : BitVec w) : (x ++ y).toNat = x.toNat * 2 ^ w + y.toNat := by
  rw [BitVec.toNat_append, ← Nat.shiftLeft_add_eq_or_of_lt y.isLt, Nat.shiftLeft_eq]

/-- A word given by its number. -/
theorem eq_ofNat_of_toNat {w n : Nat} {x : BitVec w} (h : x.toNat = n) : x = BitVec.ofNat w n := by
  rw [← h, BitVec.ofNat_toNat, BitVec.setWidth_eq]

/-- A flag as a one-bit field. -/
theorem toNat_ofBool_flag (b : Bool) : (BitVec.ofBool b).toNat = if b then 1 else 0 := by cases b <;> rfl

/-- A 32-bit value as a result word, as a number (R118). -/
theorem word32_eq_ofNat (x : BitVec 32) : word32 x = BitVec.ofNat 64 x.toNat := (BitVec.ofNat_toNat 64 x).symm

/-- A condition as a result word (R118). -/
theorem wordBool_eq_ite (b : Bool) : wordBool b = if b then 1 else 0 := by cases b <;> rfl

/-! ### The packed registers -/

/-- STATUS (register 0x00): the fault register in [23:0] and the state bits above it (R45, R46). -/
theorem Engine.statusWord_eq (fr : FaultReg) (e : Engine) :
    e.statusWord fr = BitVec.ofNat 64
      ((if fr.valid then 1 else 0) + fr.cause.toNat * 2 ^ 8 + fr.unit.toNat * 2 ^ 16 + fr.op.toNat * 2 ^ 20
        + (if e.E.looping then 1 else 0) * 2 ^ 24 + e.P.phase.code.toNat * 2 ^ 25 + (if e.E.first then 1 else 0) * 2 ^ 27
        + (if e.E.cst = none then 0 else 1) * 2 ^ 28 + (if 0 < e.DRY.rem.toNat then 1 else 0) * 2 ^ 29) := by
  have hsong : (if e.E.songTimeValid then 1 else 0) = if e.E.cst = none then 0 else 1 := by
    unfold Lem.songTimeValid
    cases e.E.cst <;> rfl
  have hdry : (if e.dryRamping then 1 else 0) = if 0 < e.DRY.rem.toNat then 1 else 0 := by
    simp only [Engine.dryRamping, decide_eq_true_eq]
  refine eq_ofNat_of_toNat ?_
  simp only [Engine.statusWord, toNat_append_fields, toNat_ofBool_flag, hsong, hdry, BitVec.ofNat_eq_ofNat,
    BitVec.toNat_ofNat, Nat.zero_mod]
  ring

/-- A count of the slots of a pool of at most 256 fits its sixteen-bit field. -/
theorem toNat_ofNat_countP {gs : List Grain} (h : gs.length ≤ 256) (p : Grain → Bool) :
    (BitVec.ofNat 16 (gs.countP p)).toNat = (gs.filter p).length := by
  have hle : gs.countP p ≤ gs.length := List.countP_le_length
  rw [BitVec.toNat_ofNat, Nat.mod_eq_of_lt (by omega), List.countP_eq_length_filter]

/-- GRAIN_COUNTS (register 0x0E): the three counts in sixteen bits each (R46, R241 to R243). -/
theorem Pool.countsWord_eq {p : Pool} (h : p.grain.length ≤ 256) :
    p.countsWord = BitVec.ofNat 64
      ((p.grain.filter Grain.playing).length + (p.grain.filter Grain.waiting).length * 2 ^ 16
        + (p.grain.filter Grain.finished).length * 2 ^ 32) := by
  refine eq_ofNat_of_toNat ?_
  simp only [Pool.countsWord, Pool.countPlaying, Pool.countWaiting, Pool.countFinished, toNat_append_fields,
    toNat_ofNat_countP h, BitVec.ofNat_eq_ofNat, BitVec.toNat_ofNat, Nat.zero_mod]
  ring

/-- The numbers 0x0F and 0x17 to 0xFF are reserved (R46). -/
theorem Engine.readReg_reserved {prm : Params} {fr : FaultReg} {e : Engine} {reg : BitVec 8}
    (h : reg.toNat = 0x0F ∨ 0x17 ≤ reg.toNat) : e.readReg prm fr reg = none := by
  unfold Engine.readReg
  rcases h with h | h
  · rw [h]; rfl
  · obtain ⟨k, hk⟩ := Nat.exists_eq_add_of_le' h
    rw [hk]; rfl

/-! ### E.READ_REG -/

/-- The word of E.READ_REG by arithmetic: unit 0, operation 0xB, the register number in IMM[7:0] (R115, R121). -/
theorem eReadReg_cw (reg : BitVec 8) : BitVec.ofNat 32 (0x0B000000 + reg.toNat) = (Instr.eReadReg reg).cw := by
  have hreg := reg.isLt
  apply BitVec.eq_of_toNat_eq
  simp only [Instr.cw, Instr.kind, Kind.code, Instr.op, Instr.imm, toNat_append_fields, BitVec.ofNat_eq_ofNat,
    BitVec.toNat_ofNat, BitVec.toNat_setWidth]
  omega

/-- The register number comes out of the immediate it is put into (R115). -/
theorem regNumber_eReadReg (reg : BitVec 8) (a b x : Word64) :
    Transaction.regNumber ⟨(Instr.eReadReg reg).cw, a, b, x⟩ = reg := by
  obtain ⟨_, _, _, himm, _⟩ := Laws.CommandWord.eReadReg reg
  have hfield : Transaction.regNumber ⟨(Instr.eReadReg reg).cw, a, b, x⟩ = (BitVec.setWidth 16 reg).extractLsb' 0 8 :=
    congrArg (BitVec.extractLsb' 0 8) himm
  have hreg := reg.isLt
  apply BitVec.eq_of_toNat_eq
  rw [hfield, BitVec.extractLsb'_toNat, BitVec.toNat_setWidth, Nat.shiftRight_zero]
  omega

/-- The word of E.READ_REG decodes to it, whatever its operand words hold (R115, R121). -/
theorem decode_eReadReg (reg : BitVec 8) (a b x : Word64) :
    decode .engine ⟨(Instr.eReadReg reg).cw, a, b, x⟩ = .ok (.eReadReg reg) := by
  obtain ⟨hunit, hop, hrsv, himm, r, hrow, hmask, _⟩ := Laws.CommandWord.eReadReg reg
  obtain rfl : (⟨.engine, 0xB, 0x00FF, 1, fun t => .eReadReg t.regNumber⟩ : OpRow) = r := Option.some.inj hrow
  have hdecode := decode_of_row (k := .engine) (t := ⟨(Instr.eReadReg reg).cw, a, b, x⟩) hunit
    (by rw [← hrow, ← hunit, ← hop]; rfl) hrsv (himm ▸ hmask)
  exact hdecode.trans (congrArg (fun n => Except.ok (Instr.eReadReg n)) (regNumber_eReadReg reg a b x))

/-- A register of the map is read, faulted or not, and nothing but the response is written (R346). -/
theorem exec_eReadReg_of_some {s : State} {e : Engine} {reg : BitVec 8} {v : Word64} (hu : s.unit = .engine e)
    (hr : e.readReg s.params s.fault reg = some v) : exec (.eReadReg reg) s = .next (s.respond .ok [v]) := by
  show execEReadReg reg s = _
  simp only [execEReadReg, hu, UnitState.engine?_engine, hr]

/-- A reserved register is ILLEGAL_COMMAND, or while faulted a rejection (R346, R385). -/
theorem exec_eReadReg_of_none {s : State} {e : Engine} {reg : BitVec 8} (hu : s.unit = .engine e)
    (hr : e.readReg s.params s.fault reg = none) :
    exec (.eReadReg reg) s = .next (if s.fault.valid then s.reject 1 else s.faultedBy .illegalCommand 0x0 0xB 1) := by
  show execEReadReg reg s = _
  simp only [execEReadReg, hu, UnitState.engine?_engine, hr]
  rfl

/-- Settles O50: the row of each register in the map, the packed ones as numbers, and E.READ_REG on the answer of the map. -/
theorem engineRegistersRead : Obligations.EngineRegistersRead := by
  refine ⟨fun a b x reg => by rw [eReadReg_cw]; exact decode_eReadReg reg a b x, fun s e hu hlen => ⟨fun r hr => ?_, ?_⟩⟩
  · refine exec_eReadReg_of_some hu ?_
    revert r
    simp only [List.forall_mem_cons]
    refine ⟨?status, rfl, rfl, rfl, rfl, rfl, congrArg some (word32_eq_ofNat _), congrArg some (wordBool_eq_ite _), rfl, rfl,
      congrArg some (word32_eq_ofNat _), congrArg some (word32_eq_ofNat _), congrArg some (word32_eq_ofNat _), rfl,
      congrArg some (Pool.countsWord_eq hlen), rfl, rfl, rfl, rfl, rfl, rfl, rfl, List.forall_mem_nil _⟩
    case status =>
      refine congrArg some ((e.statusWord_eq s.fault).trans ?_)
      cases e.P.phase <;> rfl
  · intro reg hreg
    have hexec := exec_eReadReg_of_none hu (Engine.readReg_reserved (prm := s.params) (fr := s.fault) (e := e) hreg)
    exact ⟨fun hv => by rw [hexec, hv]; rfl, fun hv => by rw [hexec, hv]; rfl⟩

end Sys2Proof.Machine
end

section
/-! SUPPORT. The decoder undoes the encoder (spec/30_encoding.md R114 to R121), the reader of a transport its serialiser
(spec/20_memory.md R90), samples in operand and result words (R116, R118), and what one step does with what is presented (R95,
R397, R411). -/

namespace Sys2Proof.Machine

-- As in the tests: one kernel check at a time keeps the compile within the check's memory limit; no proof depends on it.
set_option Elab.async false

/-! ### The row of a command builds the command -/

/-- A unit code names its configuration, and the codes differ (R113). -/
theorem kindOfCode_code (k : Kind) : kindOfCode k.code = some k := by cases k <;> rfl

theorem kind_code_injective : Function.Injective Kind.code := fun k k' h =>
  Option.some.inj ((kindOfCode_code k).symm.trans ((congrArg kindOfCode h).trans (kindOfCode_code k')))

/-- The fields of an encoded command (R110, R112). -/
theorem encode_unit (i : Instr) : (encode i).unit = i.kind.code := by
  obtain ⟨hunit, _⟩ := Laws.commandWord_fields i.kind.code i.op i.imm
  exact hunit

theorem encode_imm (i : Instr) : (encode i).imm = i.imm := by
  obtain ⟨_, _, _, himm⟩ := Laws.commandWord_fields i.kind.code i.op i.imm
  exact himm

theorem encode_a (i : Instr) : (encode i).a = i.wordA := rfl
theorem encode_b (i : Instr) : (encode i).b = i.wordB := rfl
theorem encode_k (i : Instr) : (encode i).k = i.wordK := rfl

/-- The flag that the row of an encoded command reads is bit 0 of its immediate (R115). -/
theorem encode_reverseBit (i : Instr) : (encode i).reverseBit = i.imm.getLsbD 0 :=
  congrArg (fun m : BitVec 16 => m.getLsbD 0) (encode_imm i)

/-- A flag comes out of the immediate it is put into (R115). -/
theorem getLsbD_zero_setWidth_ofBool (r : Bool) : (BitVec.setWidth 16 (BitVec.ofBool r)).getLsbD 0 = r := by cases r <;> rfl

/-- Every command has a row of the opcode map, its immediate keeps to the row's mask, and the row reads the command's operands
from the words the encoder put them in (R114 to R116, R121). -/
theorem exists_opRow_build_encode (i : Instr) :
    ∃ r, opRow i.kind.code i.op = some r ∧ i.imm &&& ~~~r.immMask = 0 ∧ r.build (encode i) = i := by
  cases i
  -- operands in the immediate
  case eSetReverse r =>
    refine ⟨_, rfl, Laws.bool_mask r, ?_⟩
    simp only [encode_reverseBit, Instr.imm, getLsbD_zero_setWidth_ofBool]
  case eReadReg reg => exact ⟨_, rfl, Laws.byte_mask reg, congrArg Instr.eReadReg (regNumber_eReadReg reg 0 0 0)⟩
  -- operands in halves of the operand words
  case eSetSpeed | cbRead | cbReadInterp | rvSet | rvRamp =>
    refine ⟨_, rfl, Laws.zero_mask _, ?_⟩
    simp only [encode_a, Instr.wordA, lowHalf_halves, highHalf_halves]
  -- operands in halves and in the immediate
  case grNew wait duration offset speed fade reverse | gpSchedule wait duration offset speed fade reverse =>
    refine ⟨_, rfl, Laws.bool_mask reverse, ?_⟩
    simp only [encode_a, encode_b, encode_k, Instr.wordA, Instr.wordB, Instr.wordK, lowHalf_halves, highHalf_halves,
      encode_reverseBit, Instr.imm, getLsbD_zero_setWidth_ofBool]
  -- operands that are whole words, or none
  all_goals exact ⟨_, rfl, Laws.zero_mask _, rfl⟩

/-- The decoder gives back an encoded command in its own configuration (R121). -/
theorem decode_encode (i : Instr) : decode i.kind (encode i) = .ok i := by
  obtain ⟨r, hrow, hmask, hbuild⟩ := exists_opRow_build_encode i
  obtain ⟨hunit, hop, hrsv, himm, _⟩ := Laws.commandWord_of_row i r hrow hmask
  have hdecode := decode_of_row hunit (by rw [hunit, hop, hrow]) hrsv (by rw [himm, hmask])
  rw [hdecode, hbuild]

/-- A word with another unit code is refused before anything else of it is looked at (R117, R121). -/
theorem decode_of_unit_ne {k : Kind} {t : Transaction} (h : t.unit ≠ k.code) : decode k t = .error .wrongUnit := if_pos h

/-- The decoder refuses an encoded command in every other configuration (R113, R121). -/
theorem decode_encode_of_ne {i : Instr} {k : Kind} (h : k ≠ i.kind) : decode k (encode i) = .error .wrongUnit :=
  decode_of_unit_ne fun hunit => h (kind_code_injective (hunit.symm.trans (encode_unit i)))

/-! ### The byte transport -/

/-- A word of `n` bytes written and read back (R90). -/
theorem ofNat_ofLeBytes_leBytes {n w : Nat} (hw : 256 ^ n = 2 ^ w) (x : BitVec w) :
    BitVec.ofNat w (ofLeBytes (leBytes n x.toNat)) = x := by
  rw [ofLeBytes_leBytes, hw, Nat.mod_eq_of_lt x.isLt, BitVec.ofNat_toNat, BitVec.setWidth_eq]

/-- The first word of a transport, and the transport after it. -/
theorem take_leBytes_append (n w : Nat) (bytes : List (BitVec 8)) : (leBytes n w ++ bytes).take n = leBytes n w :=
  List.take_left' (leBytes_length n w)

theorem drop_leBytes_append (n w : Nat) (bytes : List (BitVec 8)) : (leBytes n w ++ bytes).drop n = bytes :=
  List.drop_left' (leBytes_length n w)

theorem drop_add_leBytes_append (n m w : Nat) (bytes : List (BitVec 8)) :
    (leBytes n w ++ bytes).drop (n + m) = bytes.drop m := by
  rw [← List.drop_drop, drop_leBytes_append]

/-- A serialised transaction is read back, and the bytes after it are left over (R90). -/
theorem deserialise_serialise_append (t : Transaction) (rest : List (BitVec 8)) :
    deserialise (t.serialise ++ rest) = some (t, rest) := by
  have hlen : ¬ (t.serialise ++ rest).length < 28 := by
    simp only [Transaction.serialise, List.length_append, leBytes_length]
    omega
  have hcw := ofNat_ofLeBytes_leBytes (n := 4) (by norm_num) t.cw
  have hword := ofNat_ofLeBytes_leBytes (n := 8) (w := 64) (by norm_num)
  rw [deserialise, if_neg hlen]
  simp only [Transaction.serialise, List.append_assoc]
  rw [show 28 = 4 + (8 + (8 + 8)) from rfl, show 20 = 4 + (8 + 8) from rfl, show 12 = 4 + 8 from rfl]
  simp only [drop_add_leBytes_append, drop_leBytes_append, take_leBytes_append, hcw, hword]

/-- On a byte transport the decoder answers what it answers on the transaction, and the bytes after it. -/
theorem decodeBytes_serialise_append {k : Kind} {t : Transaction} {i : Instr} (h : decode k t = .ok i)
    (rest : List (BitVec 8)) : decodeBytes k (t.serialise ++ rest) = .ok (i, rest) := by
  simp only [decodeBytes, deserialise_serialise_append, h]

/-- Settles O1: the row of each command builds it from its own words, a transport gives the words back, and no two configurations
share a unit code. -/
theorem decodeOfEncodeGivesCommand : Obligations.DecodeOfEncodeGivesCommand := fun i rest =>
  ⟨decode_encode i, decodeBytes_serialise_append (decode_encode i) rest, fun _ hk => decode_encode_of_ne hk⟩

/-! ### Samples in words -/

/-- A sample as a result word: lane 0 in the low half, below the word of the lanes after it (R118). -/
theorem sampleWord_cons (l : B32) (ls : Sample) : sampleWord (l :: ls) = halves (lowHalf (sampleWord ls)) l := by
  refine BitVec.eq_of_getLsbD_eq fun j hj => ?_
  simp only [sampleWord, halves, lowHalf, BitVec.getLsbD_or, BitVec.getLsbD_shiftLeft, BitVec.getLsbD_append,
    BitVec.getLsbD_extractLsb', BitVec.getLsbD_setWidth]
  by_cases h : j < 32
  · simp [h, hj]
  · simp [h, hj, BitVec.getLsbD_of_ge l j (by omega), show j - 32 < 32 by omega]

theorem sampleWord_one (l0 : B32) : sampleWord [l0] = halves 0 l0 := sampleWord_cons l0 []

theorem sampleWord_two (l0 l1 : B32) : sampleWord [l0, l1] = halves l1 l0 := by
  rw [sampleWord_cons, sampleWord_one, lowHalf_halves]

/-- One lane and two lanes of an operand word (R116). -/
theorem smp_one (w : Word64) : smp 1 w = [lowHalf w] := rfl

theorem smp_two (w : Word64) : smp 2 w = [lowHalf w, highHalf w] := rfl

/-- Samples of at most two lanes keep their lanes in a word (R116, R118). -/
theorem smp_sampleWord_smp {c : Nat} (hc : c ≤ 2) (w : Word64) : smp c (sampleWord (smp c w)) = smp c w := by
  interval_cases c
  · exact rfl
  · simp only [smp_one, sampleWord_one, lowHalf_halves]
  · simp only [smp_two, sampleWord_two, lowHalf_halves, highHalf_halves]

/-- Settles O5: one and two lanes are the halves of a word. -/
theorem sampleWordsCarryLanes : Obligations.SampleWordsCarryLanes := by
  refine ⟨fun l0 => ?one, fun l0 l1 => ?two, fun w => ?smpOne, fun w => ?smpTwo, fun c w hc => smp_sampleWord_smp hc w⟩
  case one =>
    have hzero : (0 : B32).toNat = 0 := rfl
    exact eq_ofNat_of_toNat (by rw [sampleWord_one, halves_toNat, hzero, Nat.zero_mul, Nat.zero_add])
  case two => exact eq_ofNat_of_toNat (by rw [sampleWord_two, halves_toNat])
  case smpOne => rw [smp_one, lowHalf_eq_lowWord]
  case smpTwo => rw [smp_two, lowHalf_eq_lowWord, highHalf_eq_highWord]

/-! ### One step on what is presented -/

/-- With nothing presented the machine holds its state (R397, R411). -/
theorem step_of_port_nil {s : State} (hp : s.port = []) : step s = .next s := by
  unfold step
  rw [hp]

/-- A presented command is taken off the port and run (R95). -/
theorem step_of_port_command {s : State} {t : Transaction} {rest : List PortInput} (hp : s.port = .command t :: rest) :
    step s = runTransaction t { s with port := rest } := by
  unfold step
  rw [hp]

/-- A transaction that decodes is its command executed (R121). -/
theorem runTransaction_of_decode {s : State} {t : Transaction} {i : Instr} (h : decode s.kind t = .ok i) :
    runTransaction t s = exec i s := by
  unfold runTransaction
  rw [h]

/-- Settles O6: taking the command off the port leaves the configuration it is decoded for. -/
theorem stepRunsPresentedCommand : Obligations.StepRunsPresentedCommand := by
  refine ⟨fun s t rest i hp hdecode => ?command, fun s hp => step_of_port_nil hp⟩
  case command =>
    have hkind : State.kind { s with port := rest } = s.kind := rfl
    rw [step_of_port_command hp, runTransaction_of_decode (hkind ▸ hdecode)]

end Sys2Proof.Machine
end

section
/-! SUPPORT. Which words are commands (spec/30_encoding.md R112 to R117, R121): the fields of a word by arithmetic, the command that
a row of the opcode map builds, and the words that no row takes. -/

namespace Sys2Proof.Machine

/-! ### The fields of a command word by arithmetic (R112) -/

theorem Transaction.unit_toNat (t : Transaction) : t.unit.toNat = t.cw.toNat / 2 ^ 28 := by
  have hcw := t.cw.isLt
  rw [Transaction.unit, BitVec.extractLsb'_toNat, Nat.shiftRight_eq_div_pow]
  omega

theorem Transaction.op_toNat (t : Transaction) : t.op.toNat = t.cw.toNat / 2 ^ 24 % 16 := by
  rw [Transaction.op, BitVec.extractLsb'_toNat, Nat.shiftRight_eq_div_pow]

theorem Transaction.rsv_toNat (t : Transaction) : t.rsv.toNat = t.cw.toNat / 2 ^ 16 % 256 := by
  rw [Transaction.rsv, BitVec.extractLsb'_toNat, Nat.shiftRight_eq_div_pow]

theorem Transaction.imm_toNat (t : Transaction) : t.imm.toNat = t.cw.toNat % 2 ^ 16 := by
  rw [Transaction.imm, BitVec.extractLsb'_toNat, Nat.shiftRight_zero]

/-- A word is its four fields side by side. -/
theorem Transaction.cw_toNat (t : Transaction) :
    t.cw.toNat = t.unit.toNat * 2 ^ 28 + t.op.toNat * 2 ^ 24 + t.rsv.toNat * 2 ^ 16 + t.imm.toNat := by
  rw [Transaction.unit_toNat, Transaction.op_toNat, Transaction.rsv_toNat, Transaction.imm_toNat]
  omega

/-- The word of a command: UNIT, OP and IMM side by side, RSV zero (R121). -/
theorem Instr.cw_toNat (i : Instr) :
    i.cw.toNat = i.kind.code.toNat * 2 ^ 28 + i.op.toNat * 2 ^ 24 + i.imm.toNat := by
  have hrsv : (0 : BitVec 8).toNat = 0 := rfl
  rw [Instr.cw, toNat_append_fields, toNat_append_fields, toNat_append_fields, hrsv]
  ring

/-! ### The command that a row builds (R114, R115) -/

/-- A row builds commands of its own unit and operation, and the immediate of the command is what the row's mask leaves of the
word's. -/
def BuildsOwnCommand (r : OpRow) : Prop :=
  ∀ t : Transaction, (r.build t).kind = r.kind ∧ (r.build t).op = r.op ∧ (r.build t).imm = t.imm &&& r.immMask

/-- An immediate of all zeros is what the mask 0 leaves. -/
theorem zero_eq_imm_and_zero (t : Transaction) : (0 : BitVec 16) = t.imm &&& 0x0000 := BitVec.and_zero.symm

/-- The flag of an immediate is what the mask 1 leaves. -/
theorem reverseBit_eq_imm_and_one (t : Transaction) :
    BitVec.setWidth 16 (BitVec.ofBool t.reverseBit) = t.imm &&& 0x0001 := BitVec.and_one_eq_setWidth_ofBool_getLsbD.symm

/-- The register number of an immediate is what the mask 0xFF leaves. -/
theorem regNumber_eq_imm_and_byte (t : Transaction) : BitVec.setWidth 16 t.regNumber = t.imm &&& 0x00FF := by
  apply BitVec.eq_of_toNat_eq
  have hmask : (0x00FF : BitVec 16).toNat = 2 ^ 8 - 1 := rfl
  rw [BitVec.toNat_and, hmask, Nat.and_two_pow_sub_one_eq_mod, BitVec.toNat_setWidth, Transaction.regNumber,
    BitVec.extractLsb'_toNat, Nat.shiftRight_zero]
  omega

theorem buildsOwnCommand_of_mem : ∀ r ∈ opTable, BuildsOwnCommand r := by
  simp only [opTable, List.forall_mem_cons]
  refine ⟨?_, ?_, ?_, ?_, ?_, ?_, ?eSetReverse, ?_, ?_, ?_, ?_, ?eReadReg, ?_, ?_, ?_, ?_, ?_, ?_, ?_, ?grNew, ?_, ?_, ?_, ?_,
    ?_, ?_, ?_, ?gpSchedule, ?_, ?_, ?_, ?_, ?_, ?_, ?_, ?_, ?_, ?_, ?_, ?_, ?_, ?_, ?_, ?_, ?_, ?_, List.forall_mem_nil _⟩
  case eSetReverse | grNew | gpSchedule => exact fun t => ⟨rfl, rfl, reverseBit_eq_imm_and_one t⟩
  case eReadReg => exact fun t => ⟨rfl, rfl, regNumber_eq_imm_and_byte t⟩
  all_goals exact fun t => ⟨rfl, rfl, zero_eq_imm_and_zero t⟩

/-! ### Masks -/

/-- Nothing outside a mask is set exactly when the mask leaves everything. -/
theorem and_not_eq_zero_iff {w : Nat} (x m : BitVec w) : x &&& ~~~m = 0 ↔ x &&& m = x := by
  constructor
  · intro h
    calc x &&& m = (x &&& m) ||| (x &&& ~~~m) := by rw [h]; exact BitVec.or_zero.symm
      _ = x := by
        ext j hj
        cases hx : x[j] <;> simp [hx]
  · intro h
    rw [← h, BitVec.and_assoc, BitVec.and_not_self]
    exact BitVec.and_zero

/-- A mask of the low `n` bits leaves everything exactly of the numbers below `2 ^ n`. -/
theorem and_lowMask_eq_self_iff {w n : Nat} {m : BitVec w} (hm : m.toNat + 1 = 2 ^ n) (x : BitVec w) :
    x &&& m = x ↔ x.toNat < 2 ^ n := by
  have hpred : m.toNat = 2 ^ n - 1 := by omega
  rw [← BitVec.toNat_inj, BitVec.toNat_and, hpred, Nat.and_two_pow_sub_one_eq_mod]
  exact ⟨fun h => h ▸ Nat.mod_lt _ (Nat.two_pow_pos n), Nat.mod_eq_of_lt⟩

/-- Every mask of the opcode map is one of low bits (R115). -/
theorem immMask_low_bits : ∀ r ∈ opTable, ∃ n ≤ 8, r.immMask.toNat + 1 = 2 ^ n := by
  decide +kernel

/-- No bit of an immediate is outside the mask of a row exactly when its number does not exceed the mask (R115). -/
theorem imm_inMask_iff {r : OpRow} (hr : r ∈ opTable) (x : BitVec 16) :
    x &&& ~~~r.immMask = 0 ↔ x.toNat < r.immMask.toNat + 1 := by
  obtain ⟨n, _, hn⟩ := immMask_low_bits r hr
  rw [and_not_eq_zero_iff, and_lowMask_eq_self_iff hn, hn]

/-! ### The word of a command that decodes -/

/-- What a legal word says: UNIT, OP and IMM of its command, RSV zero (R117, R121). -/
theorem fields_of_decode {k : Kind} {t : Transaction} {i : Instr} (h : decode k t = .ok i) :
    i.kind = k ∧ t.unit = i.kind.code ∧ t.op = i.op ∧ t.rsv = 0 ∧ t.imm = i.imm := by
  obtain ⟨_, herr⟩ | ⟨_, _, herr⟩ | ⟨r, hunit, hrow, ⟨_, herr⟩ | ⟨_, _, herr⟩ | ⟨hrsv, hmask, hok⟩⟩ := decode_cases k t
  case inr.inr.inr.inr =>
    obtain rfl : i = r.build t := Except.ok.inj (h.symm.trans hok)
    obtain ⟨hmem, hcode, hop⟩ := opRow_eq_some hrow
    obtain ⟨hkind, hop', himm⟩ := buildsOwnCommand_of_mem r hmem t
    have hrk : r.kind = k := kind_code_injective (hcode.trans hunit)
    exact ⟨hkind.trans hrk, by rw [hkind, hcode], by rw [hop', hop], hrsv, by rw [himm, (and_not_eq_zero_iff _ _).1 hmask]⟩
  all_goals rw [herr] at h; cases h

/-- A legal word, as a number (R121). -/
theorem cw_toNat_of_decode {k : Kind} {t : Transaction} {i : Instr} (h : decode k t = .ok i) :
    t.cw.toNat = i.kind.code.toNat * 2 ^ 28 + i.op.toNat * 2 ^ 24 + i.imm.toNat := by
  obtain ⟨_, hunit, hop, hrsv, himm⟩ := fields_of_decode h
  have hzero : (0 : BitVec 8).toNat = 0 := rfl
  rw [Transaction.cw_toNat, hunit, hop, hrsv, himm, hzero, Nat.zero_mul, Nat.add_zero]

/-- Settles O2: the fields of a legal word are those of the command that its row builds. -/
theorem legalWordIsItsCommandsWord : Obligations.LegalWordIsItsCommandsWord := by
  intro k t i h
  obtain ⟨hkind, _⟩ := fields_of_decode h
  have hnum := cw_toNat_of_decode h
  exact ⟨hkind, BitVec.eq_of_toNat_eq ((Instr.cw_toNat i).trans hnum.symm), hnum⟩

/-! ### The illegal words (R117) -/

/-- The unit code of a configuration as a number (R113). -/
def unitNumber : Kind → Nat
  | .engine => 0 | .cbuf => 1 | .ramp => 2 | .grain => 3 | .pool => 4 | .evsched => 5 | .lem => 6

/-- How many operation codes a unit has, from 0 up (R114). -/
def opCount : Kind → Nat
  | .engine => 12 | .cbuf => 4 | .ramp => 3 | .grain => 8 | .pool => 10 | .evsched => 3 | .lem => 6

/-- One more than the largest immediate of an operation (R115). -/
def immLimit (k : Kind) (o : Nat) : Nat :=
  match k, o with
  | .engine, 6 => 2 | .engine, 11 => 256 | .grain, 0 => 2 | .pool, 0 => 2 | _, _ => 1

theorem code_toNat (k : Kind) : k.code.toNat = unitNumber k := by cases k <;> rfl

/-- The opcode map by arithmetic: which operations of a unit have a row, and how far its mask lets an immediate go. -/
theorem opRow_immMask (k : Kind) (o : BitVec 4) :
    (opRow k.code o).map (fun r => r.immMask.toNat + 1) = if o.toNat < opCount k then some (immLimit k o.toNat) else none := by
  cases k <;> decide +revert

/-- A unit has no row exactly for the operation codes past its last. -/
theorem opRow_eq_none_iff (k : Kind) (o : BitVec 4) : opRow k.code o = none ↔ opCount k ≤ o.toNat := by
  rw [← Option.map_eq_none_iff (f := fun r => r.immMask.toNat + 1), opRow_immMask]
  simp only [ite_eq_right_iff, reduceCtorEq, imp_false, not_lt]

/-- The largest immediate of a row is its mask. -/
theorem immMask_of_opRow {k : Kind} {o : BitVec 4} {r : OpRow} (h : opRow k.code o = some r) :
    o.toNat < opCount k ∧ r.immMask.toNat + 1 = immLimit k o.toNat := by
  have hlt : o.toNat < opCount k := by
    by_contra hle
    rw [(opRow_eq_none_iff k o).2 (by omega)] at h
    cases h
  have hmap := opRow_immMask k o
  rw [h, if_pos hlt] at hmap
  exact ⟨hlt, Option.some.inj hmap⟩

/-- The four conditions of R117, on the fields of a word. -/
theorem decode_error_iff (k : Kind) (t : Transaction) :
    (∃ e, decode k t = .error e) ↔
      t.unit.toNat ≠ unitNumber k ∨ opCount k ≤ t.op.toNat ∨ t.rsv.toNat ≠ 0 ∨ immLimit k t.op.toNat ≤ t.imm.toNat := by
  have hunit_iff : t.unit = k.code ↔ t.unit.toNat = unitNumber k := by rw [← code_toNat, BitVec.toNat_inj]
  have hrsv_iff : t.rsv = 0 ↔ t.rsv.toNat = 0 := BitVec.toNat_inj.symm
  obtain ⟨hunit, herr⟩ | ⟨hunit, hrow, herr⟩ | ⟨r, hunit, hrow, hrest⟩ := decode_cases k t
  case inl => exact iff_of_true ⟨_, herr⟩ (.inl (hunit_iff.not.1 hunit))
  case inr.inl =>
    rw [hunit] at hrow
    exact iff_of_true ⟨_, herr⟩ (.inr (.inl ((opRow_eq_none_iff k t.op).1 hrow)))
  case inr.inr =>
    obtain ⟨hmem, _⟩ := opRow_eq_some hrow
    rw [hunit] at hrow
    obtain ⟨hop, hlimit⟩ := immMask_of_opRow hrow
    have himm_iff := imm_inMask_iff hmem t.imm
    rw [hlimit] at himm_iff
    obtain ⟨hrsv, herr⟩ | ⟨_, himm, herr⟩ | ⟨hrsv, himm, hok⟩ := hrest
    case inl => exact iff_of_true ⟨_, herr⟩ (.inr (.inr (.inl (hrsv_iff.not.1 hrsv))))
    case inr.inl => exact iff_of_true ⟨_, herr⟩ (.inr (.inr (.inr (Nat.le_of_not_lt (himm_iff.not.1 himm)))))
    case inr.inr =>
      have hunit_num := hunit_iff.1 hunit
      have hrsv_num := hrsv_iff.1 hrsv
      have himm_num := himm_iff.1 himm
      exact iff_of_false (by simp [hok]) (by omega)

/-- A presented word that does not decode is taken as an illegal word (R117). -/
theorem runTransaction_of_decode_error {s : State} {t : Transaction} {e : DecodeError} (h : decode s.kind t = .error e) :
    runTransaction t s = .next (s.illegalWord t.cw t.unit t.op) := by
  unfold runTransaction
  rw [h]

/-- On a machine that is not faulted an illegal word takes ILLEGAL_COMMAND and does nothing else (R117, R384). -/
theorem State.illegalWord_of_not_faulted {s : State} (hv : s.fault.valid = false) (cw : CmdWord) (unit op : BitVec 4) :
    ∃ zeros ≤ 1, s.illegalWord cw unit op = s.faultedBy .illegalCommand unit op zeros := by
  obtain ⟨zeros, hzeros, ⟨hv', _⟩ | ⟨_, heq⟩⟩ := s.illegalWord_cases cw unit op
  · rw [hv] at hv'
    cases hv'
  · exact ⟨zeros, hzeros, heq⟩

/-- Settles O3: the conditions on the fields read as arithmetic on the word, the step of an illegal word, and the registers that the
map leaves out. -/
theorem illegalCommands : Obligations.IllegalCommands := by
  refine ⟨fun k t => ?conditions, fun s t rest e hp hv hdecode => ?effect, fun s e reg hready hreg => ?reserved⟩
  case conditions =>
    rw [← Transaction.unit_toNat, ← Transaction.op_toNat, ← Transaction.rsv_toNat, ← Transaction.imm_toNat]
    exact decode_error_iff k t
  case effect =>
    have hv' : FaultReg.valid (State.fault { s with port := rest }) = false := hv
    have hkind : State.kind { s with port := rest } = s.kind := rfl
    obtain ⟨zeros, hzeros, heq⟩ := State.illegalWord_of_not_faulted hv' t.cw t.unit t.op
    refine ⟨zeros, hzeros, ?_⟩
    rw [step_of_port_command hp, runTransaction_of_decode_error (hkind ▸ hdecode), heq]
  case reserved =>
    obtain ⟨hu, hv⟩ := hready
    rw [exec_eReadReg_of_none hu (Engine.readReg_reserved hreg), hv]
    rfl

/-! ### The opcode map, written out (R114 to R116) -/

/-- The flag of a written-out word is its bit 0 (R112, R115). -/
theorem reverseBit_mk (cw : CmdWord) (a b x : Word64) : Transaction.reverseBit ⟨cw, a, b, x⟩ = cw.getLsbD 0 := by
  have hfield : Transaction.reverseBit ⟨cw, a, b, x⟩ = (cw.extractLsb' 0 16).getLsbD 0 := rfl
  rw [hfield, BitVec.getLsbD_extractLsb']
  rfl

/-- Settles O4: each word has the row of its fields; the halves that the row reads are the words' halves by arithmetic, and the flag
is bit 0 of the word. -/
theorem writtenOutWordsDecode : Obligations.WrittenOutWordsDecode := by
  refine ⟨⟨?_, ?_, ?_, ?_, ?_, ?_, ?eForward, ?eReverse, ?eSetSpeed, ?_, ?_, ?_, ?eReadFirst, ?eReadLast⟩,
    ⟨?_, ?cbRead, ?cbReadInterp, ?_⟩, ⟨?rvSet, ?rvRamp, ?_⟩, ⟨?grForward, ?grReverse, ?_, ?_, ?_, ?_, ?_, ?_, ?_⟩,
    ⟨?gpForward, ?gpReverse, ?_, ?_, ?_, ?_, ?_, ?_, ?_, ?_, ?_⟩, ⟨?_, ?_, ?_⟩, ⟨?_, ?_, ?_, ?_, ?_, ?_⟩⟩
  -- the register number in the immediate
  case eReadFirst => exact decode_eReadReg 0x00
  case eReadLast => exact decode_eReadReg 0xFF
  -- the flag in the immediate, and halves of the operand words
  case eForward | eReverse | eSetSpeed | cbRead | cbReadInterp | rvSet | rvRamp | grForward | grReverse | gpForward | gpReverse =>
    refine encodes_of_row _ _ rfl rfl rfl rfl rfl rfl fun a b x => ?_
    simp only [reverseBit_mk, BitVec.reduceGetLsb, lowHalf_eq_lowWord, highHalf_eq_highWord]
  -- whole operand words, or none
  all_goals exact encodes_of_row _ _ rfl rfl rfl rfl rfl rfl fun _ _ _ => rfl

end Sys2Proof.Machine
end

section
/-! SUPPORT. The circular buffer (spec/40_circular_buffer.md): what each of its commands does, what a delay reads after a sequence of
writes (R150 to R155), and the five command resets (spec/70_reset_and_hazards.md R412). -/

namespace Sys2Proof.Machine

-- As in the tests: one kernel check at a time keeps the compile within the check's memory limit; no proof depends on it.
set_option Elab.async false

/-! ### Running what is presented (R95) -/

/-- The first of the presented commands is taken off the port and executed, in a machine built as its configuration. -/
theorem step_of_port_presenting_cons {s : State} {i : Instr} {is : List Instr} {rest : List PortInput}
    (hp : s.port = presenting (i :: is) ++ rest) (hk : s.kind = i.kind) :
    step s = exec i { s with port := presenting is ++ rest } := by
  have hdecode : decode (State.kind { s with port := presenting is ++ rest }) (encode i) = .ok i := hk ▸ decode_encode i
  exact (step_of_port_command hp).trans (runTransaction_of_decode hdecode)

/-- A ready machine is built as the configuration of its unit. -/
theorem State.kind_of_ready {s : State} {u : UnitState} (h : s.Ready u) : s.kind = u.kind := congrArg UnitState.kind h.1

/-- A run begins with a step. -/
theorem run_succ_of_step {s t : State} (h : step s = .next t) (k : Nat) : core.run (k + 1) s = core.run k t := by
  have hcore : core.step s = .next t := h
  simp only [Host.Core.run, hcore]

/-- A run of one step. -/
theorem run_one_of_step {s t : State} (h : step s = .next t) : core.run 1 s = .next t := run_succ_of_step h 0

/-! ### The commands of a ready CBUF -/

section Commands

variable {s : State} {b : CBuf}

/-- CB.TICK executes `CBuf.tick` on the sample of its operand word (R151). -/
theorem exec_cbTick_ready (h : s.Ready (.cbuf b)) (v : Word64) :
    exec (.cbTick v) s = .next (s.executed (.cbuf (b.tick s.params.N s.params.C (smp s.params.C v))) []) :=
  State.onCBuf_ready h

/-- CB.READ answers what `CBuf.read` answers, and keeps the buffer (R152). -/
theorem exec_cbRead_ready_of_ok (h : s.Ready (.cbuf b)) {d : U32} {x : Sample}
    (hx : b.read s.params.N s.params.C d.toNat = .ok x) :
    exec (.cbRead d) s = .next (s.executed (.cbuf b) [sampleWord x]) :=
  (State.onCBuf_ready h).trans (by rw [hx]; rfl)

theorem exec_cbRead_ready_of_error (h : s.Ready (.cbuf b)) {d : U32} {c : Cause}
    (hc : b.read s.params.N s.params.C d.toNat = .error c) :
    exec (.cbRead d) s = .next (s.faultedBy c 0x1 0x1 1) :=
  (State.onCBuf_ready h).trans (by rw [hc]; rfl)

/-- CB.READ_INTERP answers what `CBuf.readInterp` answers, and keeps the buffer (R153). -/
theorem exec_cbReadInterp_ready_of_ok (h : s.Ready (.cbuf b)) {d : B32} {x : Sample}
    (hx : b.readInterp s.params.N s.params.C d = .ok x) :
    exec (.cbReadInterp d) s = .next (s.executed (.cbuf b) [sampleWord x]) :=
  (State.onCBuf_ready h).trans (by rw [hx]; rfl)

theorem exec_cbReadInterp_ready_of_error (h : s.Ready (.cbuf b)) {d : B32} {c : Cause}
    (hc : b.readInterp s.params.N s.params.C d = .error c) :
    exec (.cbReadInterp d) s = .next (s.faultedBy c 0x1 0x2 1) :=
  (State.onCBuf_ready h).trans (by rw [hc]; rfl)

/-- CB.RESET leaves the power-on buffer (R154). -/
theorem exec_cbReset_ready (h : s.Ready (.cbuf b)) : exec .cbReset s = .next (s.executed (.cbuf powerOnCBuf) []) :=
  State.onCBuf_ready h

end Commands

/-! ### One write, one read -/

/-- Settles O15: what the slots hold after a write is `CBuf.slot_tick`. -/
theorem cbufTickWritesOneSlot : Obligations.CbufTickWritesOneSlot := by
  obtain ⟨_, ⟨hword, _⟩, _⟩ := writtenOutWordsDecode
  exact ⟨hword, fun s b v hready hwf =>
    ⟨_, exec_cbTick_ready hready v, CBuf.tick_w _ _ _ _, CBuf.slot_tick hwf (smp s.params.C v)⟩⟩

/-- The sample at delay `d`: that of slot `(w - 1 - d) mod n` (R150). -/
def CBuf.atDelay (n c : Nat) (b : CBuf) (d : Nat) : Sample := b.slot c (((b.w : Int) - 1 - d) % n).toNat

/-- Below the capacity a read answers the sample at its delay. -/
theorem CBuf.read_of_lt {n d : Nat} (h : d < n) (c : Nat) (b : CBuf) : b.read n c d = .ok (b.atDelay n c d) := by
  obtain ⟨hle, _⟩ | ⟨_, hok⟩ := b.read_eq n c d
  · omega
  · rw [hok, CBuf.slotIndex_eq h, CBuf.atDelay]

/-- From the capacity up a read faults. -/
theorem CBuf.read_of_le {n d : Nat} (h : n ≤ d) (c : Nat) (b : CBuf) : b.read n c d = .error .cbufReadRange := by
  obtain ⟨_, herr⟩ | ⟨hlt, _⟩ := b.read_eq n c d
  · exact herr
  · omega

/-- Settles O16: the two answers of an integer read. -/
theorem cbufReadAtDelay : Obligations.CbufReadAtDelay := by
  obtain ⟨_, ⟨_, hword, _⟩, _⟩ := writtenOutWordsDecode
  exact ⟨hword, fun s b d hready =>
    ⟨fun hlt => exec_cbRead_ready_of_ok hready (CBuf.read_of_lt hlt _ b),
      fun hle => exec_cbRead_ready_of_error hready (CBuf.read_of_le hle _ b)⟩⟩

/-! ### Fractional delays -/

/-- A finite value that is not below zero is a nonnegative number of units, `-0.0` included (R15). -/
theorem units_nonneg_of_not_lt_zero32 {d : B32} (hfin : finite32 d = true) (hlt : lt32 d zero32 = false) :
    0 ≤ (unpack32 d).units fmt32 := by
  have hzeroNaN : isNaN32 zero32 = false := by decide
  have hzeroKey : (unpack32 zero32).key = 0 := by decide
  have hkey : 0 ≤ (unpack32 d).key := by
    simpa [lt32, isNaN32_of_finite32 hfin, hzeroNaN, hzeroKey] using hlt
  unfold Flt.key at hkey
  unfold Flt.units
  split at hkey
  · have hmag : (unpack32 d).mag = 0 := by omega
    have hunits : magUnits fmt32 0 = 0 := by decide
    rw [hmag, hunits]
    split <;> omega
  · rw [if_neg (by assumption)]
    omega

/-- The floor of a value is at most its ceiling (R16). -/
theorem floor32_le_ceil32 (d : B32) : floor32 d ≤ ceil32 d := by
  have hunit : (0 : Int) < 2 ^ fmt32.scale := by positivity
  have hlow := Int.ediv_mul_le ((unpack32 d).units fmt32) hunit.ne'
  have hhigh := Int.ediv_mul_le (-(unpack32 d).units fmt32) hunit.ne'
  refine le_of_mul_le_mul_right ?_ hunit
  rw [floor32, ceil32, Int.neg_mul]
  omega

/-- The floor of a finite value that is not below zero is a count. -/
theorem floor32_nonneg {d : B32} (hfin : finite32 d = true) (hlt : lt32 d zero32 = false) : 0 ≤ floor32 d :=
  Int.ediv_nonneg (units_nonneg_of_not_lt_zero32 hfin hlt) (by positivity)

/-- A legal fractional delay lies between the counts of its floor and its ceiling, both below the capacity. -/
theorem exists_counts_of_delay {n : Nat} {d : B32} (hfin : finite32 d = true) (hlt : lt32 d zero32 = false)
    (hceil : ceil32 d < n) : ∃ i j : Nat, floor32 d = i ∧ ceil32 d = j ∧ i < n ∧ j < n := by
  have hnonneg := floor32_nonneg hfin hlt
  have hle := floor32_le_ceil32 d
  exact ⟨(floor32 d).toNat, (ceil32 d).toNat, by omega, by omega, by omega, by omega⟩

/-- At a legal delay a fractional read answers the sample of an integer delay, and between two delays the interpolation of the newer
and the older sample (R153). -/
theorem CBuf.readInterp_of_counts {n i j : Nat} {d : B32} (hfin : finite32 d = true) (hlt : lt32 d zero32 = false)
    (hi : floor32 d = i) (hj : ceil32 d = j) (hin : i < n) (hjn : j < n) (c : Nat) (b : CBuf) :
    b.readInterp n c d = .ok (if i = j then b.atDelay n c i
      else Sample.add (b.atDelay n c i)
        (Sample.scale (Sample.sub (b.atDelay n c j) (b.atDelay n c i)) (sub32 d (f32 i)))) := by
  unfold CBuf.readInterp
  simp only [hfin, hlt, hi, hj, Int.toNat_natCast, CBuf.read_of_lt hin, CBuf.read_of_lt hjn, Nat.not_le.2 hjn, Bool.not_true,
    Bool.or_false, Bool.false_eq_true, if_false]
  split <;> rfl

/-- At every other delay a fractional read faults (R153). -/
theorem CBuf.readInterp_of_illegal {n : Nat} {d : B32}
    (h : ¬ (finite32 d = true ∧ lt32 d zero32 = false ∧ ceil32 d < n)) (c : Nat) (b : CBuf) :
    b.readInterp n c d = .error .cbufReadRange := by
  obtain ⟨_, herr⟩ | ⟨hfin, hlt, hceil, _⟩ | ⟨hfin, hlt, hceil, _⟩ := b.readInterp_eq n c d
  case inl => exact herr
  all_goals exact absurd ⟨hfin, hlt, by omega⟩ h

/-- Settles O17: the floor and the ceiling of a legal delay are counts, and the two clauses are whether they are one. -/
theorem cbufReadInterpolates : Obligations.CbufReadInterpolates := by
  obtain ⟨_, ⟨_, _, hword, _⟩, _⟩ := writtenOutWordsDecode
  refine ⟨hword, fun s b d hready => ⟨fun hfin hlt hceil => ?legal, fun h => ?illegal⟩⟩
  case legal =>
    obtain ⟨i, j, hi, hj, hin, hjn⟩ := exists_counts_of_delay hfin hlt hceil
    have hread := exec_cbReadInterp_ready_of_ok hready (CBuf.readInterp_of_counts hfin hlt hi hj hin hjn s.params.C b)
    rw [hi, hj, Int.toNat_natCast]
    refine ⟨fun heq => ?_, fun hne => ?_⟩
    · rw [hread, if_pos (Int.ofNat_inj.1 heq)]
      rfl
    · rw [hread, if_neg (mt Int.ofNat_inj.2 hne)]
      rfl
  case illegal => exact exec_cbReadInterp_ready_of_error hready (CBuf.readInterp_of_illegal h _ b)

/-! ### A sequence of writes (R155) -/

/-- The slots at the delays after a write, counted from the cursor before it. -/
theorem CBuf.atDelay_tick {n c : Nat} {b : CBuf} (h : b.Wf n c) (v : Sample) (d : Nat) :
    (b.tick n c v).atDelay n c d = if (((b.w : Int) - d) % n).toNat = b.w then v
      else b.slot c (((b.w : Int) - d) % n).toNat := by
  have hcursor : (((b.w + 1) % n : Nat) - 1 - d : Int) % n = ((b.w : Int) - d) % n := by
    rw [Int.natCast_mod, sub_sub, Int.emod_sub_emod]
    congr 1
    omega
  rw [CBuf.atDelay, CBuf.tick_w, hcursor, CBuf.slot_tick h]

/-- The sample just written is at delay 0. -/
theorem CBuf.atDelay_tick_zero {n c : Nat} {b : CBuf} (h : b.Wf n c) (v : Sample) : (b.tick n c v).atDelay n c 0 = v := by
  have hw := h.1
  have hslot : ((b.w : Int) - (0 : Nat)) % n = b.w := Int.emod_eq_of_lt (by omega) (by omega)
  rw [CBuf.atDelay_tick h, hslot, Int.toNat_natCast, if_pos rfl]

/-- Every other sample is one delay later than before the write. -/
theorem CBuf.atDelay_tick_succ {n c : Nat} {b : CBuf} (h : b.Wf n c) (v : Sample) {d : Nat} (hd : d + 1 < n) :
    (b.tick n c v).atDelay n c (d + 1) = b.atDelay n c d := by
  have hnonneg := Int.emod_nonneg ((b.w : Int) - (d + 1 : Nat)) (b := n) (by omega)
  have hne : (((b.w : Int) - (d + 1 : Nat)) % n).toNat ≠ b.w := by
    intro heq
    have hdvd : (n : Int) ∣ b.w - ((b.w : Int) - (d + 1 : Nat)) := Int.dvd_sub_self_of_emod_eq (by omega)
    have hle := Int.le_of_dvd (by omega) hdvd
    omega
  have hshift : (b.w : Int) - (d + 1 : Nat) = b.w - 1 - d := by omega
  rw [CBuf.atDelay_tick h, if_neg hne, hshift, CBuf.atDelay]

/-- Writes one after the other. -/
def CBuf.ticks (n c : Nat) (b : CBuf) (xs : List Sample) : CBuf := xs.foldl (CBuf.tick n c) b

@[simp] theorem CBuf.ticks_nil (n c : Nat) (b : CBuf) : b.ticks n c [] = b := rfl
@[simp] theorem CBuf.ticks_cons (n c : Nat) (b : CBuf) (x : Sample) (xs : List Sample) :
    b.ticks n c (x :: xs) = (b.tick n c x).ticks n c xs := rfl
@[simp] theorem CBuf.ticks_concat (n c : Nat) (b : CBuf) (xs : List Sample) (x : Sample) :
    b.ticks n c (xs ++ [x]) = (b.ticks n c xs).tick n c x := List.foldl_concat _ _ _ _

/-- Writes keep a buffer sound. -/
theorem CBuf.ticks_wf {n c : Nat} {b : CBuf} (h : b.Wf n c) {xs : List Sample} (hxs : ∀ x ∈ xs, x.length = c) :
    (b.ticks n c xs).Wf n c := by
  induction xs generalizing b with
  | nil => exact h
  | cons x xs ih =>
    obtain ⟨hx, hxs'⟩ := List.forall_mem_cons.1 hxs
    exact ih (CBuf.tick_wf h hx) hxs'

/-- THE LAW OF THE BUFFER: after any sequence of writes delay `d` holds the sample written `d` writes ago, and where there were not so
many the sample that was at delay `d` less their number. -/
theorem CBuf.atDelay_ticks {n c : Nat} {b : CBuf} (h : b.Wf n c) {xs : List Sample} (hxs : ∀ x ∈ xs, x.length = c) {d : Nat}
    (hd : d < n) : (b.ticks n c xs).atDelay n c d = xs.reverse[d]?.getD (b.atDelay n c (d - xs.length)) := by
  induction xs using List.reverseRecOn generalizing d with
  | nil => rfl
  | append_singleton xs x ih =>
    have hxs' : ∀ y ∈ xs, y.length = c := fun y hy => hxs y (List.mem_append_left _ hy)
    have hwf := CBuf.ticks_wf h hxs'
    rw [CBuf.ticks_concat, List.reverse_concat]
    cases d with
    | zero => exact CBuf.atDelay_tick_zero hwf x
    | succ d =>
      rw [CBuf.atDelay_tick_succ hwf x hd, ih hxs' (by omega), List.getElem?_cons_succ, List.length_append, List.length_singleton,
        Nat.add_sub_add_right]

section Presented

variable {s : State} {b : CBuf} {is : List Instr} {rest : List PortInput} (hready : s.Ready (.cbuf b))
include hready

/-- A presented CB.TICK writes its sample. -/
theorem step_cbTick {v : Word64} (hp : s.port = presenting (.cbTick v :: is) ++ rest) :
    step s = .next (State.executed { s with port := presenting is ++ rest }
      (.cbuf (b.tick s.params.N s.params.C (smp s.params.C v))) []) :=
  (step_of_port_presenting_cons hp (State.kind_of_ready hready)).trans
    (exec_cbTick_ready (s := { s with port := presenting is ++ rest }) hready v)

/-- A presented CB.READ below the capacity returns the sample at its delay and changes nothing else. -/
theorem step_cbRead {d : U32} (hd : d.toNat < s.params.N) (hp : s.port = presenting (.cbRead d :: is) ++ rest) :
    step s = .next (State.executed { s with port := presenting is ++ rest } (.cbuf b)
      [sampleWord (b.atDelay s.params.N s.params.C d.toNat)]) :=
  (step_of_port_presenting_cons hp (State.kind_of_ready hready)).trans
    (exec_cbRead_ready_of_ok (s := { s with port := presenting is ++ rest }) hready (CBuf.read_of_lt hd _ b))

/-- A presented CB.RESET leaves the power-on buffer. -/
theorem step_cbReset (hp : s.port = presenting (.cbReset :: is) ++ rest) :
    step s = .next (State.executed { s with port := presenting is ++ rest } (.cbuf powerOnCBuf) []) :=
  (step_of_port_presenting_cons hp (State.kind_of_ready hready)).trans
    (exec_cbReset_ready (s := { s with port := presenting is ++ rest }) hready)

end Presented

/-- A machine that runs a sequence of presented CB.TICKs writes their samples, and goes on to what is presented after them. -/
theorem run_cbTicks {s : State} {b : CBuf} {vs : List Word64} {is : List Instr} {rest : List PortInput}
    (hready : s.Ready (.cbuf b)) (hp : s.port = presenting (vs.map Instr.cbTick ++ is) ++ rest) :
    ∃ t : State, (∀ k, core.run (vs.length + k) s = core.run k t) ∧
      t.Ready (.cbuf (b.ticks s.params.N s.params.C (vs.map (smp s.params.C)))) ∧
      t.port = presenting is ++ rest ∧ t.fault = s.fault ∧ t.params = s.params := by
  induction vs generalizing s b with
  | nil => exact ⟨s, fun k => by rw [List.length_nil, Nat.zero_add], hready, hp, rfl, rfl⟩
  | cons v vs ih =>
    have hvalid := hready.2
    have hstep := step_cbTick hready hp
    obtain ⟨t, hrun, hready', hport, hfault, hparams⟩ :=
      ih (s := State.executed { s with port := presenting (vs.map Instr.cbTick ++ is) ++ rest } _ []) ⟨rfl, hvalid⟩ rfl
    refine ⟨t, fun k => ?_, hready', hport, hfault, hparams⟩
    rw [List.length_cons, Nat.add_right_comm]
    exact (run_succ_of_step hstep _).trans (hrun k)

/-- Settles O18: the writes run one after the other, the law of the buffer says what each delay then holds, and a power-on buffer
holds `0̄` at every delay. -/
theorem bufferReadsWhatWasWritten : Obligations.BufferReadsWhatWasWritten := by
  refine fun s b vs d rest hready hwf hd => ⟨fun hp => ?written, fun hp => ?reset⟩
  case written =>
    obtain ⟨t, hrun, hready', hport, hfault, hparams⟩ := run_cbTicks hready hp
    have hlaw := CBuf.atDelay_ticks hwf (xs := vs.map (smp s.params.C)) (by simp) hd
    rw [← List.map_reverse, List.getElem?_map, List.length_map] at hlaw
    have hstep := step_cbRead hready' (hparams ▸ hd) hport
    rw [hparams, hlaw] at hstep
    refine ⟨_, (hrun 1).trans (run_one_of_step hstep), rfl, hfault, ?_⟩
    rw [State.executed_resp]
    cases vs.reverse[d.toNat]? <;> rfl
  case reset =>
    obtain ⟨t, hrun, hready', hport, _, hparams⟩ := run_cbTicks hready hp
    have hreset := step_cbReset hready' hport
    obtain ⟨_, hvalid⟩ := hready'
    have hread := step_cbRead (s := State.executed { t with port := presenting [.cbRead d] ++ rest } (.cbuf powerOnCBuf) [])
      ⟨rfl, hvalid⟩ (hparams ▸ hd) rfl
    refine ⟨_, (hrun 2).trans ((run_succ_of_step hreset 1).trans (run_one_of_step hread)), ?_⟩
    rw [State.executed_resp, CBuf.atDelay, powerOnCBuf_slot, ← hparams]
    rfl

/-! ### The command resets (R412) -/

/-- `1.0` is the count 1 (R16). -/
theorem one32_eq_f32_one : one32 = f32 1 := by decide +kernel

/-- What E.RESET gives back, and the settings that it keeps (R345). -/
theorem Engine.reset_eq (prm : Params) (e : Engine) :
    e.reset prm =
      { P := powerOnPool prm.G, E := e.E.reset, DRY := steadyRamp (f32 1), offset := e.offset, tempo := e.tempo, sr := e.sr,
        speed := e.speed, reverse := e.reverse } := by
  rw [← one32_eq_f32_one]
  rfl

/-- Settles O36: each reset executes the reset of its unit. -/
theorem commandResets : Obligations.CommandResets := by
  obtain ⟨⟨_, _, _, _, _, _, _, _, _, _, _, hengine, _⟩, ⟨_, _, _, hcbuf⟩, _, _, ⟨_, _, _, _, _, _, _, _, _, _, hpool⟩,
    ⟨_, _, hevsched⟩, ⟨_, _, _, _, _, hlem⟩⟩ := writtenOutWordsDecode
  refine ⟨hcbuf, hpool, hevsched, hlem, hengine, fun s => ⟨fun b h => ?cbuf, fun p h => ?pool, fun q h => ?evsched,
    fun m h => ?lem, fun e h => ?engine⟩⟩
  case cbuf => exact exec_cbReset_ready h
  case pool => exact State.onPool_ready h
  case evsched => exact State.onEvsched_ready h
  case lem => exact State.onLem_ready h
  case engine =>
    have hexec : exec .eReset s = .next (s.executed (.engine (e.reset s.params)) []) := State.onEngine_ready h
    rw [hexec, Engine.reset_eq]
    rfl

end Sys2Proof.Machine
end

section
/-! SUPPORT. The ramped value (spec/41_ramped_value.md): what each of its commands does (R171 to R173), what any number of ticks leaves in
its fields, and the exact arrival (R170, R174). -/

namespace Sys2Proof.Machine

-- As in the tests: one kernel check at a time keeps the compile within the check's memory limit; no proof depends on it.
set_option Elab.async false

/-! ### The commands of a ready RAMP -/

section Commands

variable {s : State} {r : Ramp} {is : List Instr} {rest : List PortInput} (h : s.Ready (.ramp r))
include h

/-- RV.SET executes `Ramp.set` (R171). -/
theorem exec_rvSet_ready (v : B32) : exec (.rvSet v) s = .next (s.executed (.ramp (r.set v)) []) :=
  State.onRamp_ready h

/-- RV.RAMP executes `Ramp.ramp` (R172). -/
theorem exec_rvRamp_ready (target : B32) (n : U32) :
    exec (.rvRamp target n) s = .next (s.executed (.ramp (r.ramp target n)) []) :=
  State.onRamp_ready h

/-- RV.TICK executes `Ramp.tick` and answers the new value (R173). -/
theorem exec_rvTick_ready : exec .rvTick s = .next (s.executed (.ramp r.tick) [word32 r.tick.v]) :=
  State.onRamp_ready h

/-- A presented RV.RAMP starts its ramp. -/
theorem step_rvRamp {target : B32} {n : U32} (hp : s.port = presenting (.rvRamp target n :: is) ++ rest) :
    step s = .next (State.executed { s with port := presenting is ++ rest } (.ramp (r.ramp target n)) []) :=
  (step_of_port_presenting_cons hp (State.kind_of_ready h)).trans
    (exec_rvRamp_ready (s := { s with port := presenting is ++ rest }) h target n)

/-- A presented RV.TICK takes one step of the ramp. -/
theorem step_rvTick (hp : s.port = presenting (.rvTick :: is) ++ rest) :
    step s = .next (State.executed { s with port := presenting is ++ rest } (.ramp r.tick) [word32 r.tick.v]) :=
  (step_of_port_presenting_cons hp (State.kind_of_ready h)).trans
    (exec_rvTick_ready (s := { s with port := presenting is ++ rest }) h)

end Commands

/-! ### The start and one step, by arithmetic -/

/-- A ramp counts `n + 1` steps in all, without wrapping in 33 bits (R172). -/
@[simp] theorem Ramp.ramp_tot_toNat (r : Ramp) (x : B32) (n : U32) : (r.ramp x n).tot.toNat = n.toNat + 1 :=
  r.ramp_rem_toNat x n

/-- The whole ramp that RV.RAMP starts (R172). -/
theorem Ramp.ramp_eq (r : Ramp) (x : B32) (n : U32) :
    r.ramp x n = ⟨r.v, r.v, x, BitVec.ofNat 33 (n.toNat + 1), BitVec.ofNat 33 (n.toNat + 1)⟩ := by
  rw [← eq_ofNat_of_toNat (r.ramp_rem_toNat x n)]
  rfl

/-- Settles O19: the two commands store the ramp they build, and a started ramp's counts are `n + 1`. -/
theorem rampSetAndRampStart : Obligations.RampSetAndRampStart := by
  obtain ⟨_, _, ⟨hset, hramp, _⟩, _⟩ := writtenOutWordsDecode
  exact ⟨hset, hramp, fun s r hready =>
    ⟨exec_rvSet_ready hready, fun target n => r.ramp_eq target n ▸ exec_rvRamp_ready hready target n⟩⟩

/-- The value of a ramp from `s` to `t` with `m` of its `tot` steps left: the target exactly when none is (R173). -/
def rampValue (s t : B32) (tot m : Nat) : B32 :=
  if m = 0 then t else add32 t (mul32 (sub32 s t) (div32 (f32 m) (f32 tot)))

/-- A tick takes one step off those that remain, if there is one. -/
@[simp] theorem Ramp.tick_rem_toNat (r : Ramp) : r.tick.rem.toNat = r.rem.toNat - 1 := by
  obtain ⟨hrem, htick⟩ | ⟨hrem, htick⟩ | ⟨m, hrem, _, htick⟩ := r.tick_cases <;> simp [htick, hrem]

/-- A tick gives the value of the steps that it leaves, whatever the value was (R173). -/
theorem Ramp.tick_v_eq (r : Ramp) : r.tick.v = rampValue r.s r.t r.tot.toNat (r.rem.toNat - 1) := by
  obtain ⟨hrem, htick⟩ | ⟨hrem, htick⟩ | ⟨m, hrem, hpos, htick⟩ := r.tick_cases <;> rw [htick, hrem]
  case inl | inr.inl => exact (if_pos rfl).symm
  case inr.inr => exact (if_neg (Nat.ne_of_gt hpos)).symm

/-- The whole ramp that a tick leaves (R173). -/
theorem Ramp.tick_eq (r : Ramp) :
    r.tick = ⟨rampValue r.s r.t r.tot.toNat (r.rem.toNat - 1), r.s, r.t, BitVec.ofNat 33 (r.rem.toNat - 1), r.tot⟩ := by
  rw [← r.tick_v_eq, ← eq_ofNat_of_toNat r.tick_rem_toNat, ← r.tick_s, ← r.tick_t, ← r.tick_tot]

/-- Settles O20: none of the steps is left after a tick exactly where at most one was left before. -/
theorem rampTickSteps : Obligations.RampTickSteps := by
  obtain ⟨_, _, ⟨_, _, htick⟩, _⟩ := writtenOutWordsDecode
  refine ⟨htick, fun s r hready => ?_⟩
  rw [exec_rvTick_ready hready, word32_eq_ofNat, r.tick_eq]
  simp only [rampValue, Nat.sub_eq_zero_iff_le]

/-! ### Any number of ticks (R174) -/

/-- Ticks keep the start, the target and the step count of a ramp. -/
theorem Ramp.iterate_tick_ends (r : Ramp) (k : Nat) :
    (tick^[k] r).s = r.s ∧ (tick^[k] r).t = r.t ∧ (tick^[k] r).tot = r.tot := by
  induction k with
  | zero => exact ⟨rfl, rfl, rfl⟩
  | succ k ih => simpa only [Function.iterate_succ_apply', tick_s, tick_t, tick_tot] using ih

/-- Each tick takes one step off, down to none. -/
theorem Ramp.iterate_tick_rem_toNat (r : Ramp) (k : Nat) : (tick^[k] r).rem.toNat = r.rem.toNat - k := by
  induction k with
  | zero => rfl
  | succ k ih => rw [Function.iterate_succ_apply', tick_rem_toNat, ih, Nat.sub_sub]

/-- The value on tick `k + 1` is that of the steps left, and depends on nothing but the ramp's ends and counts. -/
theorem Ramp.iterate_succ_tick_v (r : Ramp) (k : Nat) :
    (tick^[k + 1] r).v = rampValue r.s r.t r.tot.toNat (r.rem.toNat - (k + 1)) := by
  obtain ⟨hs, ht, htot⟩ := r.iterate_tick_ends k
  rw [Function.iterate_succ_apply', tick_v_eq, iterate_tick_rem_toNat, hs, ht, htot, Nat.sub_sub]

/-- A machine that runs at least one presented RV.TICK answers the last tick's value. -/
theorem run_rvTicks {s : State} {r : Ramp} {k : Nat} {rest : List PortInput} (hready : s.Ready (.ramp r))
    (hp : s.port = presenting (List.replicate (k + 1) .rvTick) ++ rest) :
    ∃ t : State, core.run (k + 1) s = .next t ∧ t.port = rest ∧ t.fault = s.fault ∧
      t.resp = some ⟨.ok, [word32 (Ramp.tick^[k + 1] r).v]⟩ := by
  have hstep := step_rvTick hready hp
  induction k generalizing s r with
  | zero => exact ⟨_, run_one_of_step hstep, rfl, rfl, rfl⟩
  | succ k ih =>
    obtain ⟨_, hvalid⟩ := hready
    have hready' : State.Ready (State.executed { s with port := presenting (List.replicate (k + 1) .rvTick) ++ rest }
        (.ramp r.tick) [word32 r.tick.v]) (.ramp r.tick) := ⟨rfl, hvalid⟩
    obtain ⟨t, hrun, hrest⟩ := ih hready' rfl (step_rvTick hready' rfl)
    exact ⟨t, (run_succ_of_step hstep _).trans hrun, hrest⟩

/-- Settles O21: the ramp that RV.RAMP starts has `n + 1` steps, so `n + 1 - k` of them are left after `k` ticks, and none exactly from
tick `n + 1` on. -/
theorem rampArrivesExactly : Obligations.RampArrivesExactly := by
  intro s r target n k rest hready hk hp
  obtain ⟨k, rfl⟩ : ∃ j, k = j + 1 := ⟨k - 1, by omega⟩
  have hstep := step_rvRamp hready hp
  obtain ⟨_, hvalid⟩ := hready
  obtain ⟨t, hrun, hport, hfault, hresp⟩ := run_rvTicks
    (s := State.executed { s with port := presenting (List.replicate (k + 1) .rvTick) ++ rest } (.ramp (r.ramp target n)) [])
    ⟨rfl, hvalid⟩ rfl
  refine ⟨t, (run_succ_of_step hstep _).trans hrun, hport, hfault, ?_⟩
  have harrived : n.toNat + 1 - (k + 1) = 0 ↔ ¬ k + 1 ≤ n.toNat := by omega
  rw [hresp, word32_eq_ofNat, Ramp.iterate_succ_tick_v, Ramp.ramp_s, Ramp.ramp_t, Ramp.ramp_rem_toNat, Ramp.ramp_tot_toNat]
  simp only [rampValue, harrived, ite_not]

end Sys2Proof.Machine
end

section
/-! SUPPORT. The event scheduler (spec/44_event_scheduler.md): what a schedule and a tick of any queue do (R270, R271), the commands of a
standalone EVSCHED, and what a sequence of ticks leaves and returns (R273). -/

namespace Sys2Proof.Machine

-- As in the tests: one kernel check at a time keeps the compile within the check's memory limit; no proof depends on it.
set_option Elab.async false

/-! ### A schedule on any queue (R270) -/

section Queue

variable {α : Type} {cap : Nat} {q : EvQueue α} {time now : B64}

/-- A time is not before the last pending entry exactly when no last entry is later than it. -/
theorem beforeLast_eq_false_iff : beforeLast q time = false ↔ ∀ l, q.getLast? = some l → lt64 time l.time = false := by
  unfold beforeLast
  cases q.getLast? <;> simp

theorem beforeLast_of_getLast? {l : Entry α} (hl : q.getLast? = some l) : beforeLast q time = lt64 time l.time := by
  simp only [beforeLast, hl]

/-! The one answer of a schedule under each of its conditions, the three faults in their order. -/

theorem evSchedule_of_not_finite (ht : finite64 time = false) (e : α) : evSchedule cap q time e = .error .badParameter := by
  simp [evSchedule, ht]

theorem evSchedule_of_beforeLast (ht : finite64 time = true) (hb : beforeLast q time = true) (e : α) :
    evSchedule cap q time e = .error .schedNonMonotonic := by
  simp [evSchedule, ht, hb]

theorem evSchedule_of_full (ht : finite64 time = true) (hb : beforeLast q time = false) (hq : q.length = cap) (e : α) :
    evSchedule cap q time e = .error .schedFull := by
  simp [evSchedule, ht, hb, hq]

theorem evSchedule_of_room (ht : finite64 time = true) (hb : beforeLast q time = false) (hq : q.length < cap) (e : α) :
    evSchedule cap q time e = .ok (q ++ [⟨time, e⟩]) := by
  simp [evSchedule, ht, hb, Nat.ne_of_lt hq]

/-! ### A tick of any queue (R271) -/

/-- A queue that is entries due at `now`, then entries that are not, returns the first and keeps the others. -/
theorem evDue_evRest_of_append {due rest : EvQueue α} (hdue : ∀ e ∈ due, le64 e.time now = true)
    (hrest : ∀ e ∈ rest, le64 e.time now = false) :
    evDue (due ++ rest) now = due.map Entry.payload ∧ evRest (due ++ rest) now = rest := by
  unfold evDue evRest
  rw [List.takeWhile_append_of_pos hdue, List.dropWhile_append_of_pos hdue]
  cases rest with
  | nil => simp
  | cons e rest => simp [hrest e (by simp)]

/-- Where the times do not decrease, the entries due at `now` stand before all others. -/
theorem filter_due_append_filter_not_due (hord : q.Pairwise fun a b => le64 a.time b.time = true) (now : B64) :
    (q.filter fun e => le64 e.time now) ++ (q.filter fun e => !le64 e.time now) = q := by
  induction q with
  | nil => rfl
  | cons e q ih =>
    obtain ⟨hfirst, hord⟩ := List.pairwise_cons.1 hord
    cases he : le64 e.time now with
    | true => simpa [he] using ih hord
    | false =>
      have hlater : ∀ x ∈ q, le64 x.time now = false := fun x hx =>
        Bool.eq_false_iff.2 fun hdue => Bool.eq_false_iff.1 he (le64_trans (hfirst x hx) hdue)
      rw [List.filter_eq_nil_iff.2 (by simpa [he] using hlater), List.filter_eq_self.2 (by simpa [he] using hlater),
        List.nil_append]

/-- A tick of a sound queue returns and removes exactly the entries that are due. -/
theorem evDue_evRest_of_wf (hq : EvQueueWf cap q) (now : B64) :
    evDue q now = (q.filter fun e => le64 e.time now).map Entry.payload ∧
      evRest q now = q.filter fun e => !le64 e.time now := by
  obtain ⟨_, _, hord⟩ := hq
  have hsplit := evDue_evRest_of_append (now := now) (due := q.filter fun e => le64 e.time now)
    (rest := q.filter fun e => !le64 e.time now) (by simp) (by simp)
  rwa [filter_due_append_filter_not_due hord now] at hsplit

theorem evTick_of_finite (hnow : finite64 now = true) (q : EvQueue α) : evTick q now = .ok (evDue q now, evRest q now) := by
  simp [evTick, hnow]

theorem evTick_of_not_finite (hnow : finite64 now = false) (q : EvQueue α) : evTick q now = .error .badParameter := by
  simp [evTick, hnow]

end Queue

/-! ### The commands of a ready EVSCHED -/

section Commands

variable {s : State} {q : EvQueue Word64} (h : s.Ready (.evsched q))
include h

/-- ES.SCHEDULE does to the queue what a schedule does (R270). -/
theorem exec_esSchedule_ready_of_ok {time : B64} {payload : Word64} {q' : EvQueue Word64}
    (hq : evSchedule s.params.Q q time payload = .ok q') :
    exec (.esSchedule time payload) s = .next (s.executed (.evsched q') []) :=
  (State.onEvsched_ready h).trans (by rw [hq])

theorem exec_esSchedule_ready_of_error {time : B64} {payload : Word64} {c : Cause}
    (hc : evSchedule s.params.Q q time payload = .error c) :
    exec (.esSchedule time payload) s = .next (s.faultedBy c 0x5 0x0 0) :=
  (State.onEvsched_ready h).trans (by rw [hc]; rfl)

/-- ES.TICK on a sound queue returns the payloads of the due entries, their count first, and keeps the others (R271). -/
theorem exec_esTick_ready_of_finite (hwf : EvQueueWf s.params.Q q) {now : B64} (hnow : finite64 now = true) :
    exec (.esTick now) s = .next (s.executed (.evsched (q.filter fun e => !le64 e.time now))
      (BitVec.ofNat 64 (q.filter fun e => le64 e.time now).length ::
        (q.filter fun e => le64 e.time now).map Entry.payload)) := by
  obtain ⟨hdue, hrest⟩ := evDue_evRest_of_wf hwf now
  refine (State.onEvsched_ready h).trans ?_
  simp only [evTick_of_finite hnow, hdue, hrest, payloadWords, wordNat, List.length_map]

theorem exec_esTick_ready_of_not_finite {now : B64} (hnow : finite64 now = false) :
    exec (.esTick now) s = .next (s.faultedBy .badParameter 0x5 0x1 1) :=
  (State.onEvsched_ready h).trans (by rw [evTick_of_not_finite hnow]; rfl)

/-- A presented ES.TICK on a sound queue. -/
theorem step_esTick {is : List Instr} {rest : List PortInput} (hwf : EvQueueWf s.params.Q q) {now : B64}
    (hnow : finite64 now = true) (hp : s.port = presenting (.esTick now :: is) ++ rest) :
    step s = .next (State.executed { s with port := presenting is ++ rest }
      (.evsched (q.filter fun e => !le64 e.time now))
      (BitVec.ofNat 64 (q.filter fun e => le64 e.time now).length ::
        (q.filter fun e => le64 e.time now).map Entry.payload)) :=
  (step_of_port_presenting_cons hp (State.kind_of_ready h)).trans
    (exec_esTick_ready_of_finite (s := { s with port := presenting is ++ rest }) h hwf hnow)

end Commands

/-! ### One schedule, one tick -/

/-- Settles O37: each clause is the one answer of the schedule under its conditions. -/
theorem eventScheduleAppends : Obligations.EventScheduleAppends := by
  obtain ⟨_, _, _, _, _, ⟨hword, _⟩, _⟩ := writtenOutWordsDecode
  refine ⟨hword, fun s q time payload hready => ⟨fun ht hlast hroom => ?appended, fun ht => ?notFinite,
    fun l ht hl hlt => ?before, fun ht hlast hfull => ?full⟩⟩
  case appended =>
    exact exec_esSchedule_ready_of_ok hready (evSchedule_of_room ht (beforeLast_eq_false_iff.2 hlast) hroom payload)
  case notFinite => exact exec_esSchedule_ready_of_error hready (evSchedule_of_not_finite ht payload)
  case before =>
    exact exec_esSchedule_ready_of_error hready
      (evSchedule_of_beforeLast ht ((beforeLast_of_getLast? hl).trans hlt) payload)
  case full =>
    exact exec_esSchedule_ready_of_error hready (evSchedule_of_full ht (beforeLast_eq_false_iff.2 hlast) hfull payload)

/-- Settles O38: on a sound queue the entries that a tick takes off are all that are due. -/
theorem eventTickReturnsDueEvents : Obligations.EventTickReturnsDueEvents := by
  obtain ⟨_, _, _, _, _, ⟨_, hword, _⟩, _⟩ := writtenOutWordsDecode
  exact ⟨hword, fun s q now hready hwf =>
    ⟨exec_esTick_ready_of_finite hready hwf, exec_esTick_ready_of_not_finite hready⟩⟩

/-! ### A sequence of ticks (R273) -/

/-- The entries of a queue that are not due at any of these times: what ticks at these times leave of it. -/
def EvQueue.pendingAfter {α : Type} (q : EvQueue α) (nows : List B64) : EvQueue α :=
  q.filter fun e => nows.all fun u => !le64 e.time u

theorem EvQueue.pendingAfter_nil {α : Type} (q : EvQueue α) : EvQueue.pendingAfter q [] = q := by
  simp [pendingAfter]

/-- The ticks at a first time and then at others leave what the others leave of what the first leaves. -/
theorem EvQueue.pendingAfter_cons {α : Type} (q : EvQueue α) (u : B64) (nows : List B64) :
    EvQueue.pendingAfter q (u :: nows) = EvQueue.pendingAfter (q.filter fun e => !le64 e.time u) nows := by
  simp only [pendingAfter, List.all_cons, List.filter_filter, Bool.and_comm]

theorem EvQueue.pendingAfter_wf {α : Type} {cap : Nat} {q : EvQueue α} (hq : EvQueueWf cap q) (nows : List B64) :
    EvQueueWf cap (EvQueue.pendingAfter q nows) := by
  have hsub : List.Sublist (EvQueue.pendingAfter q nows) q := List.filter_sublist
  obtain ⟨hlen, hfin, hord⟩ := hq
  exact ⟨Nat.le_trans hsub.length_le hlen, fun e he => hfin e (hsub.subset he), hord.sublist hsub⟩

/-- A machine that runs a sequence of presented ES.TICKs keeps the entries that were due at none of them, and goes on to what is
presented after them. -/
theorem run_esTicks {s : State} {q : EvQueue Word64} {nows : List B64} {is : List Instr} {rest : List PortInput}
    (hready : s.Ready (.evsched q)) (hwf : EvQueueWf s.params.Q q) (hfin : ∀ u ∈ nows, finite64 u = true)
    (hp : s.port = presenting (nows.map Instr.esTick ++ is) ++ rest) :
    ∃ t : State, (∀ k, core.run (nows.length + k) s = core.run k t) ∧ t.Ready (.evsched (EvQueue.pendingAfter q nows)) ∧
      t.port = presenting is ++ rest ∧ t.fault = s.fault ∧ t.params = s.params := by
  induction nows generalizing s q with
  | nil =>
    rw [EvQueue.pendingAfter_nil]
    exact ⟨s, fun k => by rw [List.length_nil, Nat.zero_add], hready, hp, rfl, rfl⟩
  | cons u nows ih =>
    obtain ⟨hu, hfin⟩ := List.forall_mem_cons.1 hfin
    have hstep := step_esTick hready hwf hu hp
    have hwf' : EvQueueWf s.params.Q (q.filter fun e => !le64 e.time u) := (evDue_evRest_of_wf hwf u).2 ▸ evRest_wf hwf u
    obtain ⟨_, hvalid⟩ := hready
    obtain ⟨t, hrun, hready', hport, hfault, hparams⟩ :=
      ih (s := State.executed { s with port := presenting (nows.map Instr.esTick ++ is) ++ rest } _ _) ⟨rfl, hvalid⟩ hwf' hfin rfl
    refine ⟨t, fun k => ?_, EvQueue.pendingAfter_cons q u nows ▸ hready', hport, hfault, hparams⟩
    rw [List.length_cons, Nat.add_right_comm]
    exact (run_succ_of_step hstep _).trans (hrun k)

/-- Settles O39: the last tick finds the entries that no earlier tick returned, and returns those of them that it reaches. -/
theorem eventsReturnInOrderWhenDue : Obligations.EventsReturnInOrderWhenDue := by
  intro s q nows now rest hready hwf hfin hp first
  obtain ⟨hfin, hnow⟩ := List.forall_mem_append.1 hfin
  rw [List.map_append] at hp
  obtain ⟨t, hrun, hready', hport, hfault, hparams⟩ := run_esTicks hready hwf hfin hp
  have hstep := step_esTick hready' (hparams ▸ EvQueue.pendingAfter_wf hwf nows) (hnow now (by simp)) hport
  have hfirst : ((EvQueue.pendingAfter q nows).filter fun e => le64 e.time now) = first := by
    simp only [EvQueue.pendingAfter, List.filter_filter, first, Bool.and_comm]
  have hleft : ((EvQueue.pendingAfter q nows).filter fun e => !le64 e.time now) = EvQueue.pendingAfter q (nows ++ [now]) := by
    simp only [EvQueue.pendingAfter, List.filter_filter, List.all_append, List.all_cons, List.all_nil, Bool.and_comm,
      Bool.true_and]
  rw [hfirst, hleft] at hstep
  exact ⟨_, (hrun 1).trans (run_one_of_step hstep), hfault, rfl, rfl⟩

end Sys2Proof.Machine
end

section
/-! SUPPORT. The loop event machine (spec/45_loop_event_machine.md): what its schedules, its control commands and its tick do under each
condition (R292 to R298), and a boundary that is not finite (R19, R270; log entry 11). -/

namespace Sys2Proof.Machine

-- As in the tests: one kernel check at a time keeps the compile within the check's memory limit; no proof depends on it.
set_option Elab.async false

/-! ### Schedules on the queue of a LEM (R270) -/

section Schedule

variable {cap : Nat} {m : Lem} {time : B64} {e e₁ e₂ : LoopEvent} {c : Cause}

theorem Lem.schedule_of_room (ht : finite64 time = true) (hb : beforeLast m.q time = false) (hq : m.q.length < cap) :
    m.schedule cap time e = .ok { m with q := m.q ++ [⟨time, e⟩] } := by
  simp only [Lem.schedule, evSchedule_of_room ht hb hq]

theorem Lem.schedule_of_error (hc : evSchedule cap m.q time e = .error c) : m.schedule cap time e = .error c := by
  simp only [Lem.schedule, hc]

/-- An event at a finite time behind one that is no later. -/
theorem Lem.schedule_behind {q : EvQueue LoopEvent} {t : B64} (hq : m.q = q ++ [⟨t, e₁⟩]) (ht : finite64 time = true)
    (hlt : lt64 time t = false) (hroom : q.length + 2 ≤ cap) :
    m.schedule cap time e = .ok { m with q := q ++ [⟨t, e₁⟩, ⟨time, e⟩] } := by
  have hb : beforeLast m.q time = false := (beforeLast_of_getLast? (l := ⟨t, e₁⟩) (hq ▸ List.getLast?_concat)).trans hlt
  rw [Lem.schedule_of_room ht hb (by rw [hq, List.length_append]; exact hroom), hq, List.append_assoc]
  rfl

/-- Two events at one time go behind what is pending, where there is room for both. -/
theorem Lem.scheduleTwo_of_room (ht : finite64 time = true) (hb : beforeLast m.q time = false)
    (hroom : m.q.length + 2 ≤ cap) :
    m.scheduleTwo cap time e₁ e₂ = .ok { m with q := m.q ++ [⟨time, e₁⟩, ⟨time, e₂⟩] } := by
  have hfirst : m.schedule cap time e₁ = .ok { m with q := m.q ++ [⟨time, e₁⟩] } :=
    Lem.schedule_of_room ht hb (by omega)
  simp only [Lem.scheduleTwo, hfirst]
  exact Lem.schedule_behind rfl ht (lt64_irrefl time) hroom

/-- A fault of the first schedule is the fault of both. -/
theorem Lem.scheduleTwo_of_error (hc : evSchedule cap m.q time e₁ = .error c) :
    m.scheduleTwo cap time e₁ e₂ = .error c := by
  simp only [Lem.scheduleTwo, Lem.schedule_of_error hc]

/-- Room for the first event alone: the second schedule faults. -/
theorem Lem.scheduleTwo_of_room_for_one (ht : finite64 time = true) (hb : beforeLast m.q time = false)
    (hone : m.q.length + 1 = cap) : m.scheduleTwo cap time e₁ e₂ = .error .schedFull := by
  have hfirst : m.schedule cap time e₁ = .ok { m with q := m.q ++ [⟨time, e₁⟩] } :=
    Lem.schedule_of_room ht hb (by omega)
  have hb' : beforeLast (m.q ++ [⟨time, e₁⟩]) time = false :=
    (beforeLast_of_getLast? List.getLast?_concat).trans (lt64_irrefl time)
  simp only [Lem.scheduleTwo, hfirst]
  exact Lem.schedule_of_error (evSchedule_of_full ht hb' (by rw [List.length_append]; exact hone) e₂)

/-- Two events at a finite time on a queue that was cleared. -/
theorem Lem.scheduleTwo_of_empty (hq : m.q = []) (ht : finite64 time = true) (hcap : 2 ≤ cap) :
    m.scheduleTwo cap time e₁ e₂ = .ok { m with q := [⟨time, e₁⟩, ⟨time, e₂⟩] } := by
  rw [Lem.scheduleTwo_of_room ht (by rw [hq]; rfl) (by rw [hq]; exact hcap), hq]
  rfl

/-- One event at a finite time on a queue that was cleared. -/
theorem Lem.schedule_of_empty (hq : m.q = []) (ht : finite64 time = true) (hcap : 1 ≤ cap) :
    m.schedule cap time e = .ok { m with q := [⟨time, e⟩] } := by
  rw [Lem.schedule_of_room ht (by rw [hq]; rfl) (by rw [hq]; exact hcap), hq]
  rfl

theorem Lem.schedule_of_not_finite (ht : finite64 time = false) : m.schedule cap time e = .error .badParameter :=
  Lem.schedule_of_error (evSchedule_of_not_finite ht e)

theorem Lem.scheduleTwo_of_not_finite (ht : finite64 time = false) :
    m.scheduleTwo cap time e₁ e₂ = .error .badParameter :=
  Lem.scheduleTwo_of_error (evSchedule_of_not_finite ht e₁)

end Schedule

/-! ### The control operations, case by case (R293 to R298) -/

section Control

variable {cap : Nat} {m : Lem} {new : B64}

theorem Lem.startLooping_of_looping (h : m.looping = true) : m.startLooping cap = .ok m := by
  simp [Lem.startLooping, h]

theorem Lem.startLooping_of_not_looping (h : m.looping = false) :
    m.startLooping cap = Lem.scheduleTwo cap { m with looping := true, first := true, tli := m.songTime }
      (ngb m.songTime m.grid m.lead) nextLoopEvent fadeOutDryEvent := by
  simp [Lem.startLooping, h]

theorem Lem.stopLooping_of_not_looping (h : m.looping = false) : m.stopLooping cap = .ok m := by
  simp [Lem.stopLooping, h]

theorem Lem.stopLooping_of_looping (h : m.looping = true) :
    m.stopLooping cap = Lem.scheduleTwo cap { m with looping := false, first := false, q := [] }
      (ngb m.songTime m.grid m.lead) stopGrainEvent fadeInDryEvent := by
  simp [Lem.stopLooping, h]

/-- A grid is legal when it is finite and above zero (R295). -/
theorem Lem.setGridInterval_of_illegal (h : ¬ (finite64 new = true ∧ lt64 zero64 new = true)) :
    m.setGridInterval cap new = .error .badParameter := by
  unfold Lem.setGridInterval
  exact if_pos (by simpa [imp_iff_not_or] using h)

theorem Lem.setGridInterval_of_stored (hfin : finite64 new = true) (hpos : lt64 zero64 new = true)
    (h : m.looping = false ∨ eq64 new m.grid = true) : m.setGridInterval cap new = .ok { m with grid := new } := by
  unfold Lem.setGridInterval
  rw [if_neg (by simp [hfin, hpos]), if_pos (by simpa using h)]

section Edit

variable (hfin : finite64 new = true) (hpos : lt64 zero64 new = true) (hlooping : m.looping = true)
  (hne : eq64 new m.grid = false)
include hfin hpos hlooping hne

theorem Lem.setGridInterval_of_first (hfirst : m.first = true) :
    m.setGridInterval cap new = Lem.firstBoundaryEdit cap { m with grid := new } m.songTime new := by
  simp [Lem.setGridInterval, hfin, hpos, hlooping, hne, hfirst]

theorem Lem.setGridInterval_of_shorter (hfirst : m.first = false) (hlt : lt64 new m.grid = true) :
    m.setGridInterval cap new = Lem.shorten cap { m with grid := new } m.songTime new := by
  simp [Lem.setGridInterval, hfin, hpos, hlooping, hne, hfirst, hlt]

theorem Lem.setGridInterval_of_longer (hfirst : m.first = false) (hlt : lt64 new m.grid = false) :
    m.setGridInterval cap new = Lem.lengthen cap { m with grid := new } m.songTime m.grid new := by
  simp [Lem.setGridInterval, hfin, hpos, hlooping, hne, hfirst, hlt]

end Edit

section Lengthen

variable {t old : B64}

/-- The boundary that a longer grid bridges from: that of the pending NextLoop (R298). -/
def Lem.oldBoundary (m : Lem) (t old : B64) : B64 := m.nextLoopTime?.getD (ngb t old m.lead)

theorem Lem.lengthen_of_bridge (hb : finite64 (ngb t new m.lead) = true) (hold : finite64 (m.oldBoundary t old) = true)
    (hshort : lt64 (sub64 t m.tli) new = true) (hlt : lt64 (m.oldBoundary t old) (ngb t new m.lead) = true) (hcap : 2 ≤ cap) :
    m.lengthen cap t old new = .ok { m with q :=
      [⟨m.oldBoundary t old, startLegatoGrainEvent (sub64 (ngb t new m.lead) (m.oldBoundary t old)) old⟩,
        ⟨ngb t new m.lead, nextLoopEvent⟩] } := by
  unfold Lem.oldBoundary at *
  simp only [Lem.lengthen, hshort, hlt, Bool.and_self, if_true]
  rw [Lem.schedule_of_empty rfl hold (Nat.le_of_succ_le hcap)]
  exact Lem.schedule_behind (q := []) rfl hb (lt64_asymm hlt) hcap

theorem Lem.lengthen_of_no_bridge (hb : finite64 (ngb t new m.lead) = true)
    (hno : ¬ (lt64 (sub64 t m.tli) new = true ∧ lt64 (m.oldBoundary t old) (ngb t new m.lead) = true)) (hcap : 1 ≤ cap) :
    m.lengthen cap t old new = .ok { m with q := [⟨ngb t new m.lead, nextLoopEvent⟩] } := by
  unfold Lem.lengthen
  rw [if_neg (by rwa [Bool.and_eq_true])]
  exact Lem.schedule_of_empty rfl hb hcap

/-- Where the new boundary is not finite, a longer grid takes BAD_PARAMETER with a bridge or without one. -/
theorem Lem.lengthen_of_not_finite (hb : finite64 (ngb t new m.lead) = false) (hcap : 1 ≤ cap) :
    m.lengthen cap t old new = .error .badParameter := by
  simp only [Lem.lengthen]
  split
  case isFalse => exact Lem.schedule_of_not_finite hb
  case isTrue =>
    cases hold : finite64 (m.nextLoopTime?.getD (ngb t old m.lead)) with
    | false => rw [Lem.schedule_of_not_finite hold]
    | true =>
      rw [Lem.schedule_of_empty rfl hold hcap]
      exact Lem.schedule_of_not_finite hb

end Lengthen

/-- A grid edit at a new boundary that is not finite. -/
theorem Lem.setGridInterval_of_not_finite (hfin : finite64 new = true) (hpos : lt64 zero64 new = true)
    (hlooping : m.looping = true) (hne : eq64 new m.grid = false) (hb : finite64 (ngb m.songTime new m.lead) = false)
    (hcap : 1 ≤ cap) : m.setGridInterval cap new = .error .badParameter := by
  cases hfirst : m.first with
  | true =>
    rw [Lem.setGridInterval_of_first hfin hpos hlooping hne hfirst]
    exact Lem.scheduleTwo_of_not_finite hb
  | false =>
    cases hlt : lt64 new m.grid with
    | true =>
      rw [Lem.setGridInterval_of_shorter hfin hpos hlooping hne hfirst hlt]
      exact Lem.scheduleTwo_of_not_finite hb
    | false =>
      rw [Lem.setGridInterval_of_longer hfin hpos hlooping hne hfirst hlt]
      exact Lem.lengthen_of_not_finite hb hcap

end Control

/-! ### The tick, case by case (R292) -/

section Tick

variable {cap : Nat} {m : Lem} {st : B64}

theorem Lem.tick_of_not_finite (hst : finite64 st = false) : m.tick cap st = .error .badParameter := by
  simp [Lem.tick, hst]

theorem Lem.tick_of_not_later {c : B64} (hst : finite64 st = true) (hc : m.cst = some c) (hlt : lt64 c st = false) :
    m.tick cap st = .error .timeNotIncreasing := by
  simp [Lem.tick, Lem.timeNotIncreasing, hst, hc, hlt]

/-- A tick at a later time fires the due entries on the machine that keeps the others. -/
theorem Lem.tick_of_later (hst : finite64 st = true) (hlater : ∀ c, m.cst = some c → lt64 c st = true) :
    m.tick cap st = Lem.fire cap st { m with cst := some st, q := evRest m.q st } (evDue m.q st) := by
  have htime : m.timeNotIncreasing st = false := by
    unfold Lem.timeNotIncreasing
    cases hc : m.cst with
    | none => rfl
    | some c => simp [hlater c hc]
  simp [Lem.tick, hst, htime, evTick_of_finite hst]

theorem Lem.tick_of_append {due rest : EvQueue LoopEvent} (hst : finite64 st = true)
    (hlater : ∀ c, m.cst = some c → lt64 c st = true) (hq : m.q = due ++ rest) (hdue : ∀ e ∈ due, le64 e.time st = true)
    (hrest : ∀ e ∈ rest, le64 e.time st = false) :
    m.tick cap st = Lem.fire cap st { m with cst := some st, q := rest } (due.map Entry.payload) := by
  obtain ⟨hdue, hrest⟩ := evDue_evRest_of_append hdue hrest
  rw [Lem.tick_of_later hst hlater, hq, hdue, hrest]

theorem evDue_cons_of_due {e : Entry LoopEvent} {q : EvQueue LoopEvent} (h : le64 e.time st = true) :
    evDue (e :: q) st = e.payload :: evDue q st := by
  simp [evDue, h]

/-- A NextLoop whose successor cannot be scheduled faults the tick. -/
theorem Lem.fire_nextLoop_of_not_finite {e : LoopEvent} {es : List LoopEvent} (he : e.kind = .nextLoop)
    (hb : finite64 (add64 st m.grid) = false) : Lem.fire cap st m (e :: es) = .error .badParameter := by
  simp only [Lem.fire, he, if_true, Lem.schedule_of_not_finite hb]

/-- The result words of LM.TICK, written out (R118). -/
theorem eventWords_eq (es : List LoopEvent) :
    eventWords es =
      BitVec.ofNat 64 es.length :: es.flatMap fun e => [BitVec.ofNat 64 e.kind.code.toNat, e.dur, e.red] := by
  simp only [eventWords, wordNat, BitVec.ofNat_toNat]
  rfl

end Tick

/-! ### The commands of a ready LEM -/

section Commands

variable {s : State} {m m' : Lem} {c : Cause} (h : s.Ready (.lem m))
include h

/-- A command with no result does what its operation does. -/
theorem State.onLem_silently_of_ok {i : Instr} {op : Lem → Except Cause Lem} (hm : op m = .ok m') :
    s.onLem i (fun x => Lem.silently (op x)) = .next (s.executed (.lem m') []) :=
  (State.onLem_ready h).trans (by rw [hm]; rfl)

theorem State.onLem_silently_of_error {i : Instr} {op : Lem → Except Cause Lem} (hc : op m = .error c) :
    s.onLem i (fun x => Lem.silently (op x)) = .next (s.faultedBy c i.kind.code i.op i.zeroWords) :=
  (State.onLem_ready h).trans (by rw [hc]; rfl)

theorem exec_lmStartLooping_ready_of_ok (hm : m.startLooping s.params.Q = .ok m') :
    exec .lmStartLooping s = .next (s.executed (.lem m') []) := State.onLem_silently_of_ok h hm

theorem exec_lmStartLooping_ready_of_error (hc : m.startLooping s.params.Q = .error c) :
    exec .lmStartLooping s = .next (s.faultedBy c 0x6 0x0 0) := State.onLem_silently_of_error h hc

theorem exec_lmStopLooping_ready_of_ok (hm : m.stopLooping s.params.Q = .ok m') :
    exec .lmStopLooping s = .next (s.executed (.lem m') []) := State.onLem_silently_of_ok h hm

theorem exec_lmStopLooping_ready_of_error (hc : m.stopLooping s.params.Q = .error c) :
    exec .lmStopLooping s = .next (s.faultedBy c 0x6 0x1 0) := State.onLem_silently_of_error h hc

theorem exec_lmSetGridInterval_ready_of_ok {new : B64} (hm : m.setGridInterval s.params.Q new = .ok m') :
    exec (.lmSetGridInterval new) s = .next (s.executed (.lem m') []) :=
  State.onLem_silently_of_ok (op := fun x => x.setGridInterval s.params.Q new) h hm

theorem exec_lmSetGridInterval_ready_of_error {new : B64} (hc : m.setGridInterval s.params.Q new = .error c) :
    exec (.lmSetGridInterval new) s = .next (s.faultedBy c 0x6 0x2 0) :=
  State.onLem_silently_of_error (op := fun x => x.setGridInterval s.params.Q new) h hc

theorem exec_lmTick_ready_of_ok {st : B64} {evs : List LoopEvent} (hm : m.tick s.params.Q st = .ok (m', evs)) :
    exec (.lmTick st) s = .next (s.executed (.lem m') (eventWords evs)) :=
  (State.onLem_ready h).trans (by rw [hm])

theorem exec_lmTick_ready_of_error {st : B64} (hc : m.tick s.params.Q st = .error c) :
    exec (.lmTick st) s = .next (s.faultedBy c 0x6 0x3 1) :=
  (State.onLem_ready h).trans (by rw [hc]; rfl)

end Commands

/-! ### The control commands -/

/-- Settles O41: a start is two schedules at the next boundary, and its fault that of the first of them that fails. -/
theorem lemStartLooping : Obligations.LemStartLooping := by
  obtain ⟨_, _, _, _, _, _, ⟨hword, _⟩⟩ := writtenOutWordsDecode
  refine ⟨hword, ?_⟩
  intro s m hready t b
  refine ⟨fun hl => ?looping, fun hl hb hlast hroom => ?started, fun l hl hb hq hlt => ?before,
    fun hl hb hlast hfull => ?full⟩
  case looping => exact exec_lmStartLooping_ready_of_ok hready (Lem.startLooping_of_looping hl)
  case started =>
    exact exec_lmStartLooping_ready_of_ok hready ((Lem.startLooping_of_not_looping hl).trans
      (Lem.scheduleTwo_of_room hb (beforeLast_eq_false_iff.2 hlast) hroom))
  case before =>
    exact exec_lmStartLooping_ready_of_error hready ((Lem.startLooping_of_not_looping hl).trans
      (Lem.scheduleTwo_of_error (evSchedule_of_beforeLast hb ((beforeLast_of_getLast? hq).trans hlt) _)))
  case full =>
    have hlast := beforeLast_eq_false_iff.2 hlast
    refine exec_lmStartLooping_ready_of_error hready ((Lem.startLooping_of_not_looping hl).trans ?_)
    obtain hfull | hone := hfull
    · exact Lem.scheduleTwo_of_error (evSchedule_of_full hb hlast hfull _)
    · exact Lem.scheduleTwo_of_room_for_one hb hlast hone

/-- Settles O42: a stop is two schedules on the cleared queue. -/
theorem lemStopLooping : Obligations.LemStopLooping := by
  obtain ⟨_, _, _, _, _, _, ⟨_, hword, _⟩⟩ := writtenOutWordsDecode
  refine ⟨hword, ?_⟩
  intro s m hready b
  exact ⟨fun hl => exec_lmStopLooping_ready_of_ok hready (Lem.stopLooping_of_not_looping hl),
    fun hl hb hcap => exec_lmStopLooping_ready_of_ok hready
      ((Lem.stopLooping_of_looping hl).trans (Lem.scheduleTwo_of_empty rfl hb hcap))⟩

/-- Settles O43: every edit that schedules clears the queue first, so that each schedule but the bridge's second meets an empty queue;
the second one meets the old boundary, which is the earlier one. -/
theorem lemGridEdits : Obligations.LemGridEdits := by
  obtain ⟨_, _, _, _, _, _, ⟨_, _, hword, _⟩⟩ := writtenOutWordsDecode
  refine ⟨hword, ?_⟩
  intro s m new hready hcap t bNew bOld
  refine ⟨fun hillegal => ?illegal, fun hfin hpos => ⟨fun hstore => ?stored,
    fun hl hne hb => ⟨fun hfirst => ?first, fun hfirst hlt => ?shorter, fun hfirst hlt hold hshort hbefore => ?bridge,
      fun hfirst hlt hnobridge => ?longer⟩⟩⟩
  case illegal => exact exec_lmSetGridInterval_ready_of_error hready (Lem.setGridInterval_of_illegal hillegal)
  case stored => exact exec_lmSetGridInterval_ready_of_ok hready (Lem.setGridInterval_of_stored hfin hpos hstore)
  case first =>
    exact exec_lmSetGridInterval_ready_of_ok hready ((Lem.setGridInterval_of_first hfin hpos hl hne hfirst).trans
      (Lem.scheduleTwo_of_empty rfl hb hcap))
  case shorter =>
    exact exec_lmSetGridInterval_ready_of_ok hready ((Lem.setGridInterval_of_shorter hfin hpos hl hne hfirst hlt).trans
      (Lem.scheduleTwo_of_empty rfl hb hcap))
  case bridge =>
    exact exec_lmSetGridInterval_ready_of_ok hready ((Lem.setGridInterval_of_longer hfin hpos hl hne hfirst hlt).trans
      (Lem.lengthen_of_bridge hb hold hshort hbefore hcap))
  case longer =>
    exact exec_lmSetGridInterval_ready_of_ok hready ((Lem.setGridInterval_of_longer hfin hpos hl hne hfirst hlt).trans
      (Lem.lengthen_of_no_bridge hb hnobridge (Nat.le_of_succ_le hcap)))

/-! ### The tick -/

/-- Settles O44: a tick fires the due entries, and a NextLoop among them schedules its successor behind what is kept. -/
theorem lemTickReturnsEvents : Obligations.LemTickReturnsEvents := by
  obtain ⟨_, _, _, _, _, _, ⟨_, _, _, hword, _⟩⟩ := writtenOutWordsDecode
  refine ⟨hword, fun s m st due rest hready => ⟨fun hst => ?notFinite, fun c hst hc hlt => ?notLater,
    fun hst hlater hq hdue hrest => ?later⟩⟩
  case notFinite => exact exec_lmTick_ready_of_error hready (Lem.tick_of_not_finite hst)
  case notLater => exact exec_lmTick_ready_of_error hready (Lem.tick_of_not_later hst hc hlt)
  case later =>
    intro words
    have hwords : eventWords = words := funext eventWords_eq
    refine ⟨fun hkinds => ?kept, fun before after nl hsplit hnl hothers hb hlast hroom => ?next⟩
    case kept =>
      have hfire := Lem.fire_no_nextLoop (cap := s.params.Q) (st := st) (m := { m with cst := some st, q := rest })
        (List.forall_mem_map.2 hkinds)
      rw [← hwords]
      exact exec_lmTick_ready_of_ok hready ((Lem.tick_of_append hst hlater hq hdue hrest).trans hfire)
    case next =>
      obtain ⟨hbefore, hafter⟩ := List.forall_mem_append.1 hothers
      have hfire := Lem.fire_nextLoop (cap := s.params.Q) (st := st) (m := { m with cst := some st, q := rest })
        (List.forall_mem_map.2 hbefore) hnl (List.forall_mem_map.2 hafter)
      rw [Lem.schedule_of_room hb (beforeLast_eq_false_iff.2 hlast) hroom, ← List.map_cons, ← List.map_append, ← hsplit] at hfire
      rw [← hwords]
      exact exec_lmTick_ready_of_ok hready ((Lem.tick_of_append hst hlater hq hdue hrest).trans hfire)

/-! ### A boundary that is not finite -/

/-- E.START_LOOPING and E.STOP_LOOPING fault as the LEM inside does (R343, R344). -/
theorem Engine.startLooping_of_error {prm : Params} {e : Engine} {c : Cause} (hl : e.E.looping = false)
    (hc : e.E.startLooping prm.Q = .error c) : e.startLooping prm = .error c := by
  simp [Engine.startLooping, hl, hc]

theorem Engine.stopLooping_of_error {prm : Params} {e : Engine} {c : Cause} (hl : e.E.looping = true)
    (hc : e.E.stopLooping prm.Q = .error c) : e.stopLooping prm = .error c := by
  simp [Engine.stopLooping, hl, hc]

theorem exec_eStartLooping_ready_of_error {s : State} {e : Engine} {c : Cause} (h : s.Ready (.engine e))
    (hc : e.startLooping s.params = .error c) : exec .eStartLooping s = .next (s.faultedBy c 0x0 0x8 0) :=
  (State.onEngine_ready h).trans (by rw [hc]; rfl)

theorem exec_eStopLooping_ready_of_error {s : State} {e : Engine} {c : Cause} (h : s.Ready (.engine e))
    (hc : e.stopLooping s.params = .error c) : exec .eStopLooping s = .next (s.faultedBy c 0x0 0x9 0) :=
  (State.onEngine_ready h).trans (by rw [hc]; rfl)

theorem Lem.startLooping_of_not_finite {cap : Nat} {m : Lem} (hl : m.looping = false)
    (hb : finite64 (ngb m.songTime m.grid m.lead) = false) : m.startLooping cap = .error .badParameter :=
  (Lem.startLooping_of_not_looping hl).trans (Lem.scheduleTwo_of_not_finite hb)

theorem Lem.stopLooping_of_not_finite {cap : Nat} {m : Lem} (hl : m.looping = true)
    (hb : finite64 (ngb m.songTime m.grid m.lead) = false) : m.stopLooping cap = .error .badParameter :=
  (Lem.stopLooping_of_looping hl).trans (Lem.scheduleTwo_of_not_finite hb)

/-- A due NextLoop at the head of the queue whose successor's time is not finite faults the tick. -/
theorem Lem.tick_of_next_not_finite {cap : Nat} {m : Lem} {st : B64} {nl : Entry LoopEvent} {rest : EvQueue LoopEvent}
    (hst : finite64 st = true) (hlater : ∀ c, m.cst = some c → lt64 c st = true) (hq : m.q = nl :: rest)
    (hdue : le64 nl.time st = true) (hnl : nl.payload.kind = .nextLoop) (hb : finite64 (add64 st m.grid) = false) :
    m.tick cap st = .error .badParameter := by
  rw [Lem.tick_of_later hst hlater, hq, evDue_cons_of_due hdue]
  exact Lem.fire_nextLoop_of_not_finite hnl hb

/-- Settles O45: in each command the schedule at the boundary is the first thing that can fail, or comes behind one that fails alike. -/
theorem nonFiniteBoundaryFaults : Obligations.NonFiniteBoundaryFaults := by
  refine ⟨?lem, ?engine⟩
  case lem =>
    intro s m hready b
    refine ⟨fun hl hb => ?start, fun hl hb => ?stop, fun new hl hfin hpos hne hb hcap => ?grid,
      fun st nl rest hst hlater hq hdue hnl hb => ?tick⟩
    case start => exact exec_lmStartLooping_ready_of_error hready (Lem.startLooping_of_not_finite hl hb)
    case stop => exact exec_lmStopLooping_ready_of_error hready (Lem.stopLooping_of_not_finite hl hb)
    case grid =>
      exact exec_lmSetGridInterval_ready_of_error hready (Lem.setGridInterval_of_not_finite hfin hpos hl hne hb hcap)
    case tick => exact exec_lmTick_ready_of_error hready (Lem.tick_of_next_not_finite hst hlater hq hdue hnl hb)
  case engine =>
    intro s e hready b
    refine ⟨fun hl hb => ?start, fun hl hb => ?stop⟩
    case start =>
      exact exec_eStartLooping_ready_of_error hready (Engine.startLooping_of_error hl (Lem.startLooping_of_not_finite hl hb))
    case stop =>
      exact exec_eStopLooping_ready_of_error hready (Engine.stopLooping_of_error hl (Lem.stopLooping_of_not_finite hl hb))

end Sys2Proof.Machine
end

section
/-! SUPPORT. The next grid boundary step by step (spec/45_loop_event_machine.md R291), and the fade lead-in (R299). -/

namespace Sys2Proof.Machine

-- As in the tests: one kernel check at a time keeps the compile within the check's memory limit; no proof depends on it.
set_option Elab.async false

/-! ### The next grid boundary -/

/-- The boundary from the results of its steps: the time with the lead-in, the number of the grid line it rounds up to, that line, and
the line less the lead-in (R291). -/
theorem ngb_of_steps {t i lead sum number line b : B64} (hsum : add64 t lead = sum) (hnumber : ceil64 (div64 sum i) = number)
    (hline : mul64 number i = line) (hb : sub64 line lead = b) : ngb t i lead = b := by
  rw [ngb, hsum, hnumber, hline, hb]

/-- Settles O40: each example by the grid line it rounds up to. In the last one the time with the lead-in is the rounded sum of two
rounded values, so it is given by its bits, as its boundary is. -/
theorem nextGridBoundaryExamples : Obligations.NextGridBoundaryExamples := by
  refine ⟨?origin, ?roundedUp, ?leadBeforeLine, ?leadPastLine, ?halfBeat⟩
  case origin =>
    refine ngb_of_steps (sum := f64 0) (number := f64 0) (line := f64 0) ?_ ?_ ?_ ?_ <;> decide +kernel
  case roundedUp =>
    refine ngb_of_steps (sum := div64 (f64 1) (f64 4)) (number := f64 1) (line := f64 1) ?_ ?_ ?_ ?_ <;> decide +kernel
  case leadBeforeLine =>
    refine ngb_of_steps (sum := div64 (f64 1) (f64 2)) (number := f64 1) (line := f64 1) ?_ ?_ ?_ ?_ <;> decide +kernel
  case leadPastLine =>
    refine ngb_of_steps (sum := div64 (f64 5) (f64 4)) (number := f64 2) (line := f64 2) ?_ ?_ ?_ ?_ <;> decide +kernel
  case halfBeat =>
    refine ngb_of_steps (sum := 0x3FE3333333333334) (number := f64 2) (line := f64 1) ?_ ?_ ?_ ?_ <;> decide +kernel

/-! ### The fade lead-in -/

section FadeInTime

variable {m : Lem} {lead : B64}

theorem Lem.setFadeInTime_of_legal (hfin : finite64 lead = true) (hneg : lt64 lead zero64 = false) :
    m.setFadeInTime lead = .ok { m with lead := lead } := by
  unfold Lem.setFadeInTime
  exact if_neg (by simp [hfin, hneg])

theorem Lem.setFadeInTime_of_illegal (h : ¬ (finite64 lead = true ∧ lt64 lead zero64 = false)) :
    m.setFadeInTime lead = .error .badParameter := by
  unfold Lem.setFadeInTime
  exact if_pos (by simpa [imp_iff_not_or] using h)

end FadeInTime

/-- Settles O46: the two answers of the operation, each in the frame of a command with no result. -/
theorem lemSetFadeInTime : Obligations.LemSetFadeInTime := by
  obtain ⟨_, _, _, _, _, _, ⟨_, _, _, _, hword, _⟩⟩ := writtenOutWordsDecode
  refine ⟨hword, fun s m lead hready => ⟨fun hfin hneg => ?stored, fun hillegal => ?refused⟩⟩
  case stored =>
    exact State.onLem_silently_of_ok (op := fun x => x.setFadeInTime lead) hready (Lem.setFadeInTime_of_legal hfin hneg)
  case refused =>
    exact State.onLem_silently_of_error (op := fun x => x.setFadeInTime lead) hready (Lem.setFadeInTime_of_illegal hillegal)

end Sys2Proof.Machine
end

section
/-! SUPPORT. The loop engine (spec/46_loop_engine.md): the commands of a ready ENGINE, its setters (R336 to R342), a length in beats as
a count of samples and what each loop event makes of it (R331 to R335), E.TICK from its parts (R334), and the ticks of an engine with
nothing looping (R347). -/

namespace Sys2Proof.Machine

-- As in the tests: one kernel check at a time keeps the compile within the check's memory limit; no proof depends on it.
set_option Elab.async false

/-! ### The commands of a ready ENGINE -/

section Commands

variable {s : State} {e e' : Engine} {c : Cause} (h : s.Ready (.engine e))
include h

/-- A command with no result does what its operation does. -/
theorem State.onEngine_silently_of_ok {i : Instr} {op : Engine → Except Cause Engine} (he : op e = .ok e') :
    s.onEngine i (fun x => Engine.silently (op x)) = .next (s.executed (.engine e') []) :=
  (State.onEngine_ready h).trans (by rw [he]; rfl)

theorem State.onEngine_silently_of_error {i : Instr} {op : Engine → Except Cause Engine} (hc : op e = .error c) :
    s.onEngine i (fun x => Engine.silently (op x)) = .next (s.faultedBy c i.kind.code i.op i.zeroWords) :=
  (State.onEngine_ready h).trans (by rw [hc]; rfl)

/-- A command on the LEM inside does to it what the LEM's operation does, and faults as that does (R330). -/
theorem State.onEngine_withLem_of_ok {i : Instr} {op : Lem → Except Cause Lem} {m : Lem} (hm : op e.E = .ok m) :
    s.onEngine i (fun x => Engine.silently (x.withLem (op x.E))) = .next (s.executed (.engine { e with E := m }) []) :=
  State.onEngine_silently_of_ok (op := fun x => x.withLem (op x.E)) h (by simp only [hm, Engine.withLem])

theorem State.onEngine_withLem_of_error {i : Instr} {op : Lem → Except Cause Lem} (hc : op e.E = .error c) :
    s.onEngine i (fun x => Engine.silently (x.withLem (op x.E))) =
      .next (s.faultedBy c i.kind.code i.op i.zeroWords) :=
  State.onEngine_silently_of_error (op := fun x => x.withLem (op x.E)) h (by simp only [hc, Engine.withLem])

/-- E.TICK answers the sample of the engine's tick. -/
theorem exec_eTick_ready_of_ok {time : B64} {input : Word64} {y : Sample}
    (he : e.tick s.params (smp s.params.C input) time = .ok (e', y)) :
    exec (.eTick time input) s = .next (s.executed (.engine e') [sampleWord y]) :=
  (State.onEngine_ready h).trans (by rw [he])

theorem exec_eTick_ready_of_error {time : B64} {input : Word64}
    (hc : e.tick s.params (smp s.params.C input) time = .error c) :
    exec (.eTick time input) s = .next (s.faultedBy c 0x0 0x0 1) :=
  (State.onEngine_ready h).trans (by rw [hc]; rfl)

end Commands

/-! ### The setters -/

section Setters

variable {e : Engine}

theorem Engine.setLoopOffset_of_finite {x : B64} (hx : finite64 x = true) : e.setLoopOffset x = .ok { e with offset := x } := by
  simp [Engine.setLoopOffset, hx]

theorem Engine.setLoopOffset_of_not_finite {x : B64} (hx : finite64 x = false) : e.setLoopOffset x = .error .badParameter := by
  simp [Engine.setLoopOffset, hx]

/-- A tempo is legal when it is finite and above zero; while looping it rescales the offset (R339). -/
theorem Engine.setTempo_of_legal {x : B64} (hx : finite64 x = true) (hpos : lt64 zero64 x = true) :
    e.setTempo x = .ok { e with
      tempo := x, offset := if e.E.looping then div64 (mul64 e.offset x) e.tempo else e.offset } := by
  simp [Engine.setTempo, hx, hpos]

theorem Engine.setTempo_of_illegal {x : B64} (hx : ¬ (finite64 x = true ∧ lt64 zero64 x = true)) :
    e.setTempo x = .error .badParameter :=
  if_pos (by simpa [imp_iff_not_or] using hx)

theorem Engine.setSampleRate_of_legal {x : B64} (hx : finite64 x = true) (hpos : lt64 zero64 x = true) :
    e.setSampleRate x = .ok { e with sr := x } := by
  simp [Engine.setSampleRate, hx, hpos]

theorem Engine.setSampleRate_of_illegal {x : B64} (hx : ¬ (finite64 x = true ∧ lt64 zero64 x = true)) :
    e.setSampleRate x = .error .badParameter :=
  if_pos (by simpa [imp_iff_not_or] using hx)

theorem Engine.setSpeed_of_finite {x : B32} (hx : finite32 x = true) : e.setSpeed x = .ok { e with speed := x } := by
  simp [Engine.setSpeed, hx]

theorem Engine.setSpeed_of_not_finite {x : B32} (hx : finite32 x = false) : e.setSpeed x = .error .badParameter := by
  simp [Engine.setSpeed, hx]

end Setters

/-- Settles O47: each setter's operation, legal operand and illegal, in the frame of a command with no result. -/
theorem engineSettersWriteOneRegister : Obligations.EngineSettersWriteOneRegister := by
  obtain ⟨⟨_, _, hoffset, _, htempo, hrate, hforward, hreverse, hspeed, _⟩, _⟩ := writtenOutWordsDecode
  refine ⟨hoffset, htempo, hrate, hforward, hreverse, hspeed, fun s e h => ?_⟩
  refine ⟨fun x hx => ?offset, fun x hx => ?offsetRefused, fun x hx hpos => ?tempo, fun x hx => ?tempoRefused,
    fun x hx hpos => ?rate, fun x hx => ?rateRefused, fun r => ?reverse, fun x hx => ?speed, fun x hx => ?speedRefused⟩
  case offset =>
    exact State.onEngine_silently_of_ok (op := fun e => e.setLoopOffset x) h (Engine.setLoopOffset_of_finite hx)
  case offsetRefused =>
    exact State.onEngine_silently_of_error (op := fun e => e.setLoopOffset x) h (Engine.setLoopOffset_of_not_finite hx)
  case tempo => exact State.onEngine_silently_of_ok (op := fun e => e.setTempo x) h (Engine.setTempo_of_legal hx hpos)
  case tempoRefused => exact State.onEngine_silently_of_error (op := fun e => e.setTempo x) h (Engine.setTempo_of_illegal hx)
  case rate =>
    exact State.onEngine_silently_of_ok (op := fun e => e.setSampleRate x) h (Engine.setSampleRate_of_legal hx hpos)
  case rateRefused =>
    exact State.onEngine_silently_of_error (op := fun e => e.setSampleRate x) h (Engine.setSampleRate_of_illegal hx)
  case reverse => exact State.onEngine_ready h
  case speed => exact State.onEngine_silently_of_ok (op := fun e => e.setSpeed x) h (Engine.setSpeed_of_finite hx)
  case speedRefused =>
    exact State.onEngine_silently_of_error (op := fun e => e.setSpeed x) h (Engine.setSpeed_of_not_finite hx)

/-! ### The grid and the fade time of the LEM inside -/

section LemInside

variable {s : State} {e : Engine} {x : B64} {c : Cause} (h : s.Ready (.engine e))
include h

theorem exec_eSetGrid_ready_of_ok {m : Lem} (hm : e.E.setGridInterval s.params.Q x = .ok m) :
    exec (.eSetGrid x) s = .next (s.executed (.engine { e with E := m }) []) :=
  State.onEngine_withLem_of_ok (op := fun m => m.setGridInterval s.params.Q x) h hm

theorem exec_eSetGrid_ready_of_error (hc : e.E.setGridInterval s.params.Q x = .error c) :
    exec (.eSetGrid x) s = .next (s.faultedBy c 0x0 0x1 0) :=
  State.onEngine_withLem_of_error (op := fun m => m.setGridInterval s.params.Q x) h hc

end LemInside

/-- The code of a cause tells it from every other (R381). -/
theorem Cause.code_injective : Function.Injective Cause.code := by
  intro c d
  cases c <;> cases d <;> decide

/-- A command that executed did not fault. -/
theorem State.executed_ne_faultedBy {s : State} (hv : s.fault.valid = false) (u : UnitState) (res : List Word64) (c : Cause)
    (unit op : BitVec 4) (zeros : Nat) : s.executed u res ≠ s.faultedBy c unit op zeros := fun heq => by
  have hvalid : s.fault.valid = true := congrArg (fun t => t.fault.valid) heq
  rw [hv] at hvalid
  cases hvalid

section GridOfLem

variable {s : State} {m m' : Lem} {x : B64} {c : Cause} (h : s.Ready (.lem m))
include h

/-- Where LM.SET_GRID_INTERVAL left this machine, its operation answered it. -/
theorem setGridInterval_ok_of_exec (hexec : exec (.lmSetGridInterval x) s = .next (s.executed (.lem m') [])) :
    m.setGridInterval s.params.Q x = .ok m' := by
  cases hop : m.setGridInterval s.params.Q x with
  | ok m'' =>
    have heq := Host.Outcome.next.inj ((exec_lmSetGridInterval_ready_of_ok h hop).symm.trans hexec)
    have hunit : UnitState.lem m'' = .lem m' := congrArg State.unit heq
    rw [UnitState.lem.inj hunit]
  | error d =>
    have heq := Host.Outcome.next.inj ((exec_lmSetGridInterval_ready_of_error h hop).symm.trans hexec)
    exact absurd heq.symm (State.executed_ne_faultedBy h.2 _ _ _ _ _ _)

/-- Where LM.SET_GRID_INTERVAL faulted with this cause, its operation raised it. -/
theorem setGridInterval_error_of_exec (hexec : exec (.lmSetGridInterval x) s = .next (s.faultedBy c 0x6 0x2 0)) :
    m.setGridInterval s.params.Q x = .error c := by
  cases hop : m.setGridInterval s.params.Q x with
  | ok m' =>
    have heq := Host.Outcome.next.inj ((exec_lmSetGridInterval_ready_of_ok h hop).symm.trans hexec)
    exact absurd heq (State.executed_ne_faultedBy h.2 _ _ _ _ _ _)
  | error d =>
    have heq := Host.Outcome.next.inj ((exec_lmSetGridInterval_ready_of_error h hop).symm.trans hexec)
    have hcode : d.code = c.code := congrArg (fun t => t.fault.cause) heq
    rw [Cause.code_injective hcode]

end GridOfLem

/-- Settles O48: what a LEM's command did says what its operation answers, and the engine's command is that operation on the LEM
inside. -/
theorem engineGridAndFadeReachLem : Obligations.EngineGridAndFadeReachLem := by
  obtain ⟨⟨_, hgrid, _, hfade, _⟩, _⟩ := writtenOutWordsDecode
  refine ⟨hgrid, hfade, fun s sl e x h hl hparams => ?_⟩
  refine ⟨fun m hexec => ?edited, fun c hexec => ?refused, fun hx hpos hloop => ?stored, fun hx hneg => ?fadeStored,
    fun hillegal => ?fadeRefused⟩
  case edited => exact exec_eSetGrid_ready_of_ok h (hparams ▸ setGridInterval_ok_of_exec hl hexec)
  case refused => exact exec_eSetGrid_ready_of_error h (hparams ▸ setGridInterval_error_of_exec hl hexec)
  case stored => exact exec_eSetGrid_ready_of_ok h (Lem.setGridInterval_of_stored hx hpos (.inl hloop))
  case fadeStored =>
    exact State.onEngine_withLem_of_ok (op := fun m => m.setFadeInTime x) h (Lem.setFadeInTime_of_legal hx hneg)
  case fadeRefused =>
    exact State.onEngine_withLem_of_error (op := fun m => m.setFadeInTime x) h (Lem.setFadeInTime_of_illegal hillegal)

/-! ### A length in beats as a count of samples (R331, R332) -/

/-- The constants of the model are the values of their counts (R16). -/
theorem sixty64_eq : sixty64 = f64 60 := by decide +kernel
theorem one32_eq : one32 = f32 1 := by decide +kernel

theorem Engine.spb_eq (e : Engine) : e.spb = div64 (mul64 e.sr (f64 60)) e.tempo := by rw [Engine.spb, sixty64_eq]

/-- `y` rounds to a count of samples from 0 up to `limit` (R17, R332). -/
def IsCountUpTo (limit : Nat) (y : B64) : Prop := finite64 y = true ∧ 0 ≤ roundAway y ∧ roundAway y ≤ limit

theorem not_isCountUpTo_iff {limit : Nat} {y : B64} :
    ¬ IsCountUpTo limit y ↔ finite64 y = false ∨ roundAway y < 0 ∨ (limit : Int) < roundAway y := by
  simp only [IsCountUpTo, not_and_or, Bool.not_eq_true, Int.not_le]

theorem IsCountUpTo.mono {a b : Nat} {y : B64} (h : IsCountUpTo a y) (hab : a ≤ b) : IsCountUpTo b y := by
  obtain ⟨hfin, hnonneg, hle⟩ := h
  exact ⟨hfin, hnonneg, by omega⟩

theorem IsCountUpTo.toNat_le {limit : Nat} {y : B64} (h : IsCountUpTo limit y) : (roundAway y).toNat ≤ limit := by
  obtain ⟨_, _, hle⟩ := h
  omega

/-- A count that is not one up to a smaller limit is past it. -/
theorem IsCountUpTo.lt_toNat_of_not {a b : Nat} {y : B64} (h : IsCountUpTo b y) (ha : ¬ IsCountUpTo a y) :
    a < (roundAway y).toNat := by
  obtain ⟨hfin, hnonneg, _⟩ := h
  by_contra hle
  exact ha ⟨hfin, hnonneg, by omega⟩

/-- A 32-bit count keeps its number. -/
theorem IsCountUpTo.ofNat_toNat {y : B64} (h : IsCountUpTo (2 ^ 32 - 1) y) :
    (BitVec.ofNat 32 (roundAway y).toNat).toNat = (roundAway y).toNat := by
  have hle := h.toNat_le
  rw [BitVec.toNat_ofNat, Nat.mod_eq_of_lt (by omega)]

section Samples

variable {e : Engine} {x : B64}

theorem Engine.beatsToSamples_of_count (h : IsCountUpTo (2 ^ 32 - 1) (mul64 x e.spb)) (c : Cause) :
    e.beatsToSamples x c = .ok (BitVec.ofNat 32 (roundAway (mul64 x e.spb)).toNat) := by
  obtain ⟨hfin, hnonneg, hle⟩ := h
  simp only [Engine.beatsToSamples, hfin, Bool.not_true, Bool.false_eq_true, if_false]
  exact if_neg (by omega)

theorem Engine.beatsToSamples_of_not_count (h : ¬ IsCountUpTo (2 ^ 32 - 1) (mul64 x e.spb)) (c : Cause) :
    e.beatsToSamples x c = .error c := by
  obtain herr | ⟨hfin, hnonneg, hle, _⟩ := e.beatsToSamples_cases x c
  · exact herr
  · exact absurd ⟨hfin, hnonneg, by omega⟩ h

end Samples

/-! ### The grain of a request (R333, R335, R414) -/

theorem Grain.new_of_legal {wait : U32} {offset : B32} {duration fade : U32} {reverse : Bool} {speed : B32}
    (ho : finite32 offset = true) (hs : finite32 speed = true) (hf : fade.toNat ≤ duration.toNat) :
    Grain.new wait offset duration fade reverse speed = .ok
      { wait := wait, dur := duration, fade := clampFade duration fade, el := 0, env := steadyRamp zero32
        pos := if reverse then sub32 offset (f32 duration.toNat) else sub32 offset one32
        inc := if reverse then speed else neg32 speed } := by
  simp [Grain.new, ho, hs, Nat.not_lt.2 hf]

theorem Grain.new_of_offset_not_finite {offset : B32} (ho : finite32 offset = false) (wait duration fade : U32)
    (reverse : Bool) (speed : B32) : Grain.new wait offset duration fade reverse speed = .error .badParameter := by
  simp [Grain.new, ho]

/-- The fade of a grain of `n + f` ticks: `f`, or half the ticks where that is less (R192, R414). -/
theorem clampFade_ofNat_add {n f : Nat} (h : n + f < 2 ^ 32) :
    clampFade (BitVec.ofNat 32 (n + f)) (BitVec.ofNat 32 f) = BitVec.ofNat 32 (if n < f then (n + f) / 2 else f) := by
  have hclamp : n + f < 2 * f ↔ n < f := by omega
  have hhalf : BitVec.ofNat 32 (n + f) / 2 = BitVec.ofNat 32 ((n + f) / 2) := by
    refine eq_ofNat_of_toNat ?_
    rw [BitVec.toNat_udiv, BitVec.toNat_ofNat, Nat.mod_eq_of_lt h]
    rfl
  unfold clampFade
  rw [BitVec.toNat_ofNat, BitVec.toNat_ofNat, Nat.mod_eq_of_lt h, Nat.mod_eq_of_lt (by omega), hhalf]
  simp only [hclamp, apply_ite (BitVec.ofNat 32)]

/-- The grain of `n + f` ticks and a fade of `f`, starting at `offset`, that an engine makes now (R333, R414). -/
def Engine.grainOf (e : Engine) (offset : B32) (n f : Nat) : Grain :=
  { wait := 0, dur := BitVec.ofNat 32 (n + f), el := 0, env := steadyRamp zero32
    fade := BitVec.ofNat 32 (if n < f then (n + f) / 2 else f)
    pos := if e.reverse then sub32 offset (f32 (n + f)) else sub32 offset one32
    inc := if e.reverse then e.speed else neg32 e.speed }

theorem Engine.new_eq_grainOf {e : Engine} {offset : B32} {n f : Nat} (h : n + f < 2 ^ 32) (ho : finite32 offset = true)
    (hs : finite32 e.speed = true) :
    Grain.new 0 offset (BitVec.ofNat 32 (n + f)) (BitVec.ofNat 32 f) e.reverse e.speed = .ok (e.grainOf offset n f) := by
  have hdur : (BitVec.ofNat 32 (n + f)).toNat = n + f := by rw [BitVec.toNat_ofNat, Nat.mod_eq_of_lt h]
  have hfade : (BitVec.ofNat 32 f).toNat = f := by rw [BitVec.toNat_ofNat, Nat.mod_eq_of_lt (by omega)]
  rw [Grain.new_of_legal ho hs (by omega), clampFade_ofNat_add h, hdur]
  rfl

section Request

variable {prm : Params} {e : Engine} {dur : B64} {red : Option B64}

/-- A loop longer than `L` samples is a LOOP_TOO_LONG. -/
theorem Engine.makeGrain_of_long_loop (hlong : ¬ IsCountUpTo prm.L (mul64 dur e.spb)) :
    e.makeGrain prm dur red = .error .loopTooLong := by
  by_cases hcount : IsCountUpTo (2 ^ 32 - 1) (mul64 dur e.spb)
  case neg => simp only [Engine.makeGrain, Engine.beatsToSamples_of_not_count hcount]
  case pos =>
    have hover := hcount.lt_toNat_of_not hlong
    simp only [Engine.makeGrain, Engine.beatsToSamples_of_count hcount, hcount.ofNat_toNat, if_pos hover]

/-- After the loop, a fade longer than `F` samples is a FADE_TOO_LONG. -/
theorem Engine.makeGrain_of_long_fade (hL : prm.L ≤ 2 ^ 24) (hloop : IsCountUpTo prm.L (mul64 dur e.spb))
    (hlong : ¬ IsCountUpTo prm.F (mul64 e.E.lead e.spb)) : e.makeGrain prm dur red = .error .fadeTooLong := by
  have hcount := hloop.mono (b := 2 ^ 32 - 1) (by omega)
  have hunder := Nat.not_lt.2 hloop.toNat_le
  by_cases hfade : IsCountUpTo (2 ^ 32 - 1) (mul64 e.E.lead e.spb)
  case neg =>
    simp only [Engine.makeGrain, Engine.fadeSamples, Engine.beatsToSamples_of_count hcount, hcount.ofNat_toNat, if_neg hunder,
      Engine.beatsToSamples_of_not_count hfade]
  case pos =>
    have hover := hfade.lt_toNat_of_not hlong
    simp only [Engine.makeGrain, Engine.fadeSamples, Engine.beatsToSamples_of_count hcount, hcount.ofNat_toNat, if_neg hunder,
      Engine.beatsToSamples_of_count hfade, hfade.ofNat_toNat, if_pos hover]

/-- Within both limits the grain is made of `n + f` ticks and a fade of `f`. -/
theorem Engine.makeGrain_of_within (hL : prm.L ≤ 2 ^ 24) (hF : prm.F ≤ 2 ^ 24)
    (hloop : IsCountUpTo prm.L (mul64 dur e.spb)) (hfade : IsCountUpTo prm.F (mul64 e.E.lead e.spb)) :
    e.makeGrain prm dur red =
      Grain.new 0 (to32 (mul64 (e.grainOffsetBeats red) e.spb))
        (BitVec.ofNat 32 ((roundAway (mul64 dur e.spb)).toNat + (roundAway (mul64 e.E.lead e.spb)).toNat))
        (BitVec.ofNat 32 (roundAway (mul64 e.E.lead e.spb)).toNat) e.reverse e.speed := by
  have hn := hloop.mono (b := 2 ^ 32 - 1) (by omega)
  have hf := hfade.mono (b := 2 ^ 32 - 1) (by omega)
  simp only [Engine.makeGrain, Engine.fadeSamples, Engine.beatsToSamples_of_count hn, hn.ofNat_toNat,
    if_neg (Nat.not_lt.2 hloop.toNat_le), Engine.beatsToSamples_of_count hf, hf.ofNat_toNat,
    if_neg (Nat.not_lt.2 hfade.toNat_le), BitVec.ofNat_add]

theorem Engine.requestGrain_of_ok {g : Grain} (hg : e.makeGrain prm dur red = .ok g) :
    e.requestGrain prm dur red = .ok { e with P := e.P.schedule g } := by
  simp only [Engine.requestGrain, hg]

theorem Engine.requestGrain_of_error {c : Cause} (hc : e.makeGrain prm dur red = .error c) :
    e.requestGrain prm dur red = .error c := by
  simp only [Engine.requestGrain, hc]

/-- A grain event is a request, of a legato grain with its offset reduction (R335). -/
theorem Engine.process_grainEvent (legato : Bool) (red : B64) :
    e.process prm ⟨if legato then .startLegatoGrain else .startGrain, dur, red⟩ =
      e.requestGrain prm dur (if legato then some red else none) := by
  cases legato <;> rfl

theorem Engine.grainOffsetBeats_ite (legato : Bool) (red : B64) :
    e.grainOffsetBeats (if legato then some red else none) = if legato then sub64 e.offset red else e.offset := by
  cases legato <;> rfl

end Request

/-- Settles O51: `make_grain` under each of its limits, in their order. -/
theorem grainRequestMakesGrain : Obligations.GrainRequestMakesGrain := by
  intro prm e legato dur red ev spb y z o n f g hL hF
  have hprocess : e.process prm ev = e.requestGrain prm dur (if legato then some red else none) :=
    Engine.process_grainEvent legato red
  have hspb : e.spb = spb := e.spb_eq
  have hy : mul64 dur e.spb = y := by rw [hspb]
  have hz : mul64 e.E.lead e.spb = z := by rw [hspb]
  have ho : to32 (mul64 (e.grainOffsetBeats (if legato then some red else none)) e.spb) = o := by
    rw [hspb, Engine.grainOffsetBeats_ite]
  have hg : e.grainOf o n f = g := by rw [Engine.grainOf, one32_eq]; rfl
  rw [hprocess]
  refine ⟨fun hy₁ hy₂ hy₃ hz₁ hz₂ hz₃ hfin hspeed => ?made, fun hlong => ?longLoop, fun hy₁ hy₂ hy₃ hlong => ?longFade,
    fun hy₁ hy₂ hy₃ hz₁ hz₂ hz₃ hfin => ?badOffset⟩
  case made =>
    have hloop : IsCountUpTo prm.L y := ⟨hy₁, hy₂, hy₃⟩
    have hfade : IsCountUpTo prm.F z := ⟨hz₁, hz₂, hz₃⟩
    have hsmall : n + f < 2 ^ 32 := by
      have hn : n ≤ prm.L := hloop.toNat_le
      have hf : f ≤ prm.F := hfade.toNat_le
      omega
    refine Engine.requestGrain_of_ok ?_
    rw [Engine.makeGrain_of_within hL hF (hy ▸ hloop) (hz ▸ hfade), ho, hy, hz, ← hg]
    exact Engine.new_eq_grainOf hsmall hfin hspeed
  case longLoop =>
    exact Engine.requestGrain_of_error (Engine.makeGrain_of_long_loop (hy ▸ not_isCountUpTo_iff.2 hlong))
  case longFade =>
    exact Engine.requestGrain_of_error
      (Engine.makeGrain_of_long_fade hL (hy ▸ ⟨hy₁, hy₂, hy₃⟩) (hz ▸ not_isCountUpTo_iff.2 hlong))
  case badOffset =>
    refine Engine.requestGrain_of_error ?_
    rw [Engine.makeGrain_of_within hL hF (hy ▸ ⟨hy₁, hy₂, hy₃⟩) (hz ▸ ⟨hz₁, hz₂, hz₃⟩), ho]
    exact Grain.new_of_offset_not_finite hfin _ _ _ _ _

/-! ### The dry ramp's events (R335) -/

section Dry

variable {e : Engine}

theorem Engine.fadeDry_of_count (h : IsCountUpTo (2 ^ 32 - 1) (mul64 e.E.lead e.spb)) (level : B32) :
    e.fadeDry level = .ok { e with DRY := e.DRY.ramp level (BitVec.ofNat 32 (roundAway (mul64 e.E.lead e.spb)).toNat) } := by
  simp only [Engine.fadeDry, Engine.fadeSamples, Engine.beatsToSamples_of_count h]

theorem Engine.fadeDry_of_not_count (h : ¬ IsCountUpTo (2 ^ 32 - 1) (mul64 e.E.lead e.spb)) (level : B32) :
    e.fadeDry level = .error .fadeTooLong := by
  simp only [Engine.fadeDry, Engine.fadeSamples, Engine.beatsToSamples_of_not_count h]

end Dry

/-- Settles O52: both dry events are one ramp toward a level, which has one step more than the fade has samples. -/
theorem stopAndDryEvents : Obligations.StopAndDryEvents := by
  intro prm e dur red z steps
  have hz : mul64 e.E.lead e.spb = z := by rw [e.spb_eq]
  refine ⟨rfl, fun hfin hnonneg hle => ?ramps, fun hlong => ?faults⟩
  case ramps =>
    have hcount : IsCountUpTo (2 ^ 32 - 1) z := ⟨hfin, hnonneg, hle⟩
    have hramp (level : B32) : e.fadeDry level = .ok { e with DRY := ⟨e.DRY.v, e.DRY.v, level, steps, steps⟩ } := by
      rw [Engine.fadeDry_of_count (hz ▸ hcount), Ramp.ramp_eq, hz, hcount.ofNat_toNat]
    exact ⟨hramp _, hramp _⟩
  case faults =>
    have hcount : ¬ IsCountUpTo (2 ^ 32 - 1) z := not_isCountUpTo_iff.2 hlong
    exact ⟨Engine.fadeDry_of_not_count (hz ▸ hcount) _, Engine.fadeDry_of_not_count (hz ▸ hcount) _⟩

/-! ### E.TICK from its parts (R334) -/

/-- Once an event has raised a fault, no later one is processed. -/
theorem Engine.foldl_process_error (prm : Params) (c : Cause) (evs : List LoopEvent) :
    evs.foldl (fun r ev => r.bind (Engine.process prm · ev)) (Except.error c) = .error c := by
  induction evs with
  | nil => rfl
  | cons ev evs ih => exact ih

/-- The events of a tick processed in order are a fold that stops at the first fault. -/
theorem Engine.processAll_eq_foldl (prm : Params) (e : Engine) (evs : List LoopEvent) :
    Engine.processAll prm e evs = evs.foldl (fun r ev => r.bind (Engine.process prm · ev)) (Except.ok e) := by
  induction evs generalizing e with
  | nil => rfl
  | cons ev evs ih =>
    rw [List.foldl_cons, Engine.processAll, Except.bind]
    cases e.process prm ev with
    | ok e' => exact ih e'
    | error c => exact (Engine.foldl_process_error prm c evs).symm

section Tick

variable {prm : Params} {e e' : Engine} {x : Sample} {time : B64} {m : Lem} {evs : List LoopEvent} {c : Cause}

theorem Engine.tick_of_lem_error (hc : e.E.tick prm.Q time = .error c) : e.tick prm x time = .error c := by
  simp only [Engine.tick, hc]

theorem Engine.tick_of_event_error (hm : e.E.tick prm.Q time = .ok (m, evs))
    (hc : Engine.processAll prm { e with E := m } evs = .error c) : e.tick prm x time = .error c := by
  simp only [Engine.tick, hm, hc]

theorem Engine.tick_of_pool_error (hm : e.E.tick prm.Q time = .ok (m, evs))
    (he : Engine.processAll prm { e with E := m } evs = .ok e') (hc : e'.P.tick prm x = .error c) :
    e.tick prm x time = .error c := by
  simp only [Engine.tick, hm, he, hc]

theorem Engine.tick_of_parts {p : Pool} {wet : Sample} (hm : e.E.tick prm.Q time = .ok (m, evs))
    (he : Engine.processAll prm { e with E := m } evs = .ok e') (hp : e'.P.tick prm x = .ok (p, wet)) :
    e.tick prm x time =
      .ok ({ e' with P := p, DRY := e'.DRY.tick }, Sample.add wet (Sample.scale x e'.DRY.tick.v)) := by
  simp only [Engine.tick, hm, he, hp]

end Tick

/-- Settles O53: the tick's parts in their order, each fault the whole tick's. -/
theorem engineTickRunsItsParts : Obligations.EngineTickRunsItsParts := by
  obtain ⟨⟨hword, _⟩, _⟩ := writtenOutWordsDecode
  refine ⟨hword, fun s e time input h => ?_⟩
  intro x
  refine ⟨fun c hc => ?lemFaults, fun m evs hm => ?lemTicks⟩
  case lemFaults => exact exec_eTick_ready_of_error h (Engine.tick_of_lem_error hc)
  case lemTicks =>
    intro process
    have hfold : Engine.processAll s.params { e with E := m } evs = evs.foldl process (.ok { e with E := m }) :=
      Engine.processAll_eq_foldl _ _ _
    rw [← hfold]
    refine ⟨fun c hc => ?eventFaults, fun e' he => ⟨fun c hc => ?poolFaults, fun p wet hp => ?ticks⟩⟩
    case eventFaults => exact exec_eTick_ready_of_error h (Engine.tick_of_event_error hm hc)
    case poolFaults => exact exec_eTick_ready_of_error h (Engine.tick_of_pool_error hm he hc)
    case ticks => exact exec_eTick_ready_of_ok h (Engine.tick_of_parts hm he hp)

/-! ### Ticks with nothing looping (R347) -/

/-- Finished grains add nothing and stay as they are. -/
theorem Pool.sumGrains_of_finished {prm : Params} {p : Pool} {acc : Sample} {gs : List Grain}
    (h : ∀ g ∈ gs, g.finished = true) : Pool.sumGrains prm p acc gs = .ok (acc, gs) := by
  induction gs with
  | nil => rfl
  | cons g gs ih =>
    obtain ⟨hg, hgs⟩ := List.forall_mem_cons.1 h
    simp only [Pool.sumGrains, hg, if_true, ih hgs]

/-- With room in the rolling buffer for the copy's delay the copy step completes, and it touches no grain. -/
theorem Pool.advanceCopy_of_lt {prm : Params} (hL : prm.L < prm.R) (p : Pool) :
    ∃ p', p.advanceCopy prm = .ok p' ∧ p'.grain = p.grain := by
  obtain ⟨_, hok⟩ | ⟨_, hle, _⟩ | ⟨_, _, hok⟩ := p.advanceCopy_cases prm
  · exact ⟨_, hok, rfl⟩
  · omega
  · exact ⟨_, hok, rfl⟩

/-- A pool with no grain in use ticks to silence, and its grains stay as they are. -/
theorem Pool.tick_of_finished {prm : Params} (hL : prm.L < prm.R) {p : Pool} (h : ∀ g ∈ p.grain, g.finished = true)
    (x : Sample) : ∃ p', p.tick prm x = .ok (p', zeroSample prm.C) ∧ p'.grain = p.grain := by
  obtain ⟨p', hcopy, hgrain⟩ := (p.takeInput prm x).advanceCopy_of_lt hL
  have hgrain : p'.grain = p.grain := hgrain
  refine ⟨{ p' with grain := p'.grain }, ?_, hgrain⟩
  simp only [Pool.tick, hcopy, Pool.sumGrains_of_finished (hgrain ▸ h)]

/-- Nothing loops: no event is pending, no grain is in use, and the dry level is at 1.0 or goes there on the next tick. -/
structure Engine.Idle (e : Engine) : Prop where
  queue : e.E.q = []
  grains : ∀ g ∈ e.P.grain, g.finished = true
  rem : e.DRY.rem = 0
  target : e.DRY.t = one32

/-- A dry ramp with no step left takes its target (R173). -/
theorem Engine.Idle.dry_tick {e : Engine} (h : e.Idle) : e.DRY.tick.v = one32 ∧ e.DRY.tick.rem = 0 := by
  have hrem : ¬ 0 < e.DRY.rem.toNat := by rw [h.rem]; decide
  exact ⟨by rw [Ramp.tick_v, if_neg (fun hc => hrem hc.1), h.target], by rw [Ramp.tick_rem, if_neg hrem, h.rem]⟩

/-- A tick of an idle engine accepts the time, leaves it idle, and answers silence plus the input at 1.0. -/
theorem Engine.Idle.tick {prm : Params} (hL : prm.L < prm.R) {e : Engine} (h : e.Idle) {time : B64}
    (htime : finite64 time = true) (hlater : ∀ c, e.E.cst = some c → lt64 c time = true) (x : Sample) :
    ∃ e' : Engine, e.tick prm x time = .ok (e', Sample.add (zeroSample prm.C) (Sample.scale x one32)) ∧
      e'.Idle ∧ e'.E.cst = some time := by
  have hlem : e.E.tick prm.Q time = .ok ({ e.E with cst := some time, q := [] }, []) := by
    rw [Lem.tick_of_later htime hlater, h.queue]
    rfl
  obtain ⟨p, hpool, hgrain⟩ := Pool.tick_of_finished hL h.grains x
  obtain ⟨hdry, hrem⟩ := h.dry_tick
  have htick := Engine.tick_of_parts hlem rfl hpool
  simp only [hdry] at htick
  exact ⟨_, htick, ⟨rfl, fun g hg => h.grains g (hgrain ▸ hg), hrem, (Ramp.tick_t _).trans h.target⟩, rfl⟩

/-- A finite lane through silence and the level 1.0 comes out as it went in, but -0.0 as +0.0. -/
theorem add_zeroSample_scale_one {x : Sample} (h : ∀ l ∈ x, finite32 l = true) :
    Sample.add (zeroSample x.length) (Sample.scale x one32) = x.map fun l => if l = 0x80000000 then 0 else l := by
  induction x with
  | nil => rfl
  | cons l x ih =>
    obtain ⟨hl, hx⟩ := List.forall_mem_cons.1 h
    have hlane : add32 zero32 (mul32 l one32) = if l = 0x80000000 then 0 else l := by
      rw [mul32_one32 (isNaN32_of_finite32 hl), add32_zero32_left hl]
      rfl
    exact congrArg₂ List.cons hlane (ih hx)

/-- A presented E.TICK on an idle engine. -/
theorem step_eTick_idle {s : State} {e : Engine} {time : B64} {input : Word64} {is : List Instr} {rest : List PortInput}
    (hready : s.Ready (.engine e)) (hL : s.params.L < s.params.R) (hidle : e.Idle) (htime : finite64 time = true)
    (hlater : ∀ c, e.E.cst = some c → lt64 c time = true) (hp : s.port = presenting (.eTick time input :: is) ++ rest) :
    ∃ e' : Engine, e'.Idle ∧ e'.E.cst = some time ∧
      step s = .next (State.executed { s with port := presenting is ++ rest } (.engine e')
        [sampleWord (Sample.add (zeroSample s.params.C) (Sample.scale (smp s.params.C input) one32))]) := by
  obtain ⟨e', htick, hidle', hcst⟩ := hidle.tick hL htime hlater (smp s.params.C input)
  exact ⟨e', hidle', hcst, (step_of_port_presenting_cons hp (State.kind_of_ready hready)).trans
    (exec_eTick_ready_of_ok (s := { s with port := presenting is ++ rest }) hready htick)⟩

/-- A machine that runs presented E.TICKs at strictly increasing times on an idle engine stays idle, and goes on at the last of these
times to what is presented after them. -/
theorem run_eTicks_idle {s : State} {e : Engine} {ins : List (B64 × Word64)} {last : B64 × Word64} {rest : List PortInput}
    (hready : s.Ready (.engine e)) (hL : s.params.L < s.params.R) (hidle : e.Idle)
    (htimes : ∀ p ∈ ins ++ [last], finite64 p.1 = true ∧ ∀ c, e.E.cst = some c → lt64 c p.1 = true)
    (hincreasing : List.Pairwise (fun a b : B64 × Word64 => lt64 a.1 b.1 = true) (ins ++ [last]))
    (hp : s.port = presenting ((ins ++ [last]).map fun p => .eTick p.1 p.2) ++ rest) :
    ∃ t : State, core.run (ins.length + 1) s = .next t ∧ t.fault = s.fault ∧
      t.resp = some ⟨.ok, [sampleWord (Sample.add (zeroSample s.params.C) (Sample.scale (smp s.params.C last.2) one32))]⟩ := by
  induction ins generalizing s e with
  | nil =>
    obtain ⟨hfin, hlater⟩ := htimes last (by simp)
    obtain ⟨_, _, _, hstep⟩ := step_eTick_idle hready hL hidle hfin hlater hp
    exact ⟨_, run_one_of_step hstep, rfl, rfl⟩
  | cons first ins ih =>
    obtain ⟨⟨hfin, hlater⟩, htimes⟩ := List.forall_mem_cons.1 htimes
    obtain ⟨hfirst, hincreasing⟩ := List.pairwise_cons.1 hincreasing
    obtain ⟨e', hidle', hcst, hstep⟩ := step_eTick_idle hready hL hidle hfin hlater hp
    have htimes' : ∀ p ∈ ins ++ [last], finite64 p.1 = true ∧ ∀ c, e'.E.cst = some c → lt64 c p.1 = true :=
      fun p hmem => ⟨(htimes p hmem).1, fun c hc => Option.some.inj (hcst.symm.trans hc) ▸ hfirst p hmem⟩
    obtain ⟨_, hvalid⟩ := hready
    obtain ⟨t, hrun, hend⟩ := ih (s := State.executed { s with port := _ } (.engine e') _) ⟨rfl, hvalid⟩ hL hidle' htimes'
      hincreasing rfl
    exact ⟨t, (run_succ_of_step hstep _).trans hrun, hend⟩

/-- Settles O55: every tick leaves the engine idle, and the last one answers silence plus its input at 1.0. -/
theorem passthroughReturnsInput : Obligations.PassthroughReturnsInput := by
  intro s e ins time input rest hready hparams _ hqueue hgrains hrem htarget htimes hincreasing hlanes hp
  obtain ⟨_, ⟨hL, _⟩, _⟩ := hparams
  obtain ⟨t, hrun, hfault, hresp⟩ := run_eTicks_idle hready hL ⟨hqueue, hgrains, hrem, htarget⟩ htimes hincreasing hp
  refine ⟨t, hrun, hfault, hresp.trans ?_⟩
  have hlane := add_zeroSample_scale_one hlanes
  rw [smp_length] at hlane
  rw [hlane]

end Sys2Proof.Machine
end

section
/-! SUPPORT. Faults and the hardware reset (spec/60_exceptions.md R383 to R390, spec/70_reset_and_hazards.md R410): what a command that
faults leaves, what a faulted machine does with each thing presented, and the power-on values that the reset gives back. -/

namespace Sys2Proof.Machine

-- As in the tests: one kernel check at a time keeps the compile within the check's memory limit; no proof depends on it.
set_option Elab.async false

/-! ### A unit of the command's configuration -/

/-- A machine built as a configuration holds a unit that its selector finds. -/
theorem Selects.exists_of_kind {α : Type} {k : Kind} {sel : UnitState → Option α} {put : α → UnitState} (hs : Selects k sel put)
    {u : UnitState} (hk : u.kind = k) : ∃ a, sel u = some a :=
  Option.ne_none_iff_exists'.1 fun hnone => hs.eq_none.1 hnone hk

theorem UnitState.exists_engine_of_kind {u : UnitState} (hk : u.kind = .engine) : ∃ e, u = .engine e :=
  (selects_engine.exists_of_kind hk).imp fun _ he => selects_engine.eq_some.1 he

/-! ### The command that faults (R384, R387) -/

/-- A fault of a frame's body is the only thing by which a command of this configuration leaves the machine faulted. -/
theorem Selects.command_eq_faultedBy {α : Type} {sel : UnitState → Option α} {put : α → UnitState} {s : State} {i : Instr}
    {body : α → Except Cause (α × List Word64)} (hs : Selects i.kind sel put) (hk : s.kind = i.kind)
    (hv : s.fault.valid = false) (hf : (s.command i sel put body).fault.valid = true) :
    ∃ c, s.command i sel put body = s.faultedBy c i.kind.code i.op i.zeroWords := by
  obtain ⟨a, ha⟩ := hs.exists_of_kind hk
  have hcommand := State.command_ready (i := i) (put := put) (body := body) ha hv
  cases hbody : body a with
  | error c => exact ⟨c, by rw [hcommand, hbody]⟩
  | ok p =>
    rw [hcommand, hbody, State.executed_fault, hv] at hf
    cases hf

/-- A command of this configuration that leaves the machine faulted, where it was not, took one fault under its own UNIT and OP and
with its own count of zero words. -/
theorem exec_eq_faultedBy {s t : State} {i : Instr} (hk : s.kind = i.kind) (hv : s.fault.valid = false)
    (h : exec i s = .next t) (hf : t.fault.valid = true) : ∃ c, t = s.faultedBy c i.kind.code i.op i.zeroWords := by
  obtain ⟨reg, rfl⟩ | ⟨α, sel, put, body, hs, hexec⟩ := exec_cases i s
  case inl =>
    obtain ⟨e, hu⟩ := UnitState.exists_engine_of_kind hk
    cases hr : e.readReg s.params s.fault reg with
    | some v =>
      obtain rfl := Host.Outcome.next.inj ((exec_eReadReg_of_some hu hr).symm.trans h)
      rw [State.respond_fault, hv] at hf
      cases hf
    | none =>
      have hexec := exec_eReadReg_of_none hu hr
      rw [hv] at hexec
      exact ⟨.illegalCommand, (Host.Outcome.next.inj (hexec.symm.trans h)).symm⟩
  case inr =>
    obtain rfl := Host.Outcome.next.inj (hexec.symm.trans h)
    exact hs.command_eq_faultedBy hk hv hf

/-- A command returns at most one zero word (R386). -/
theorem Instr.zeroWords_le_one (i : Instr) : i.zeroWords ≤ 1 := by
  unfold Instr.zeroWords
  split
  next r hrow => exact OpRow.zeroWords_le_one r (opRow_eq_some hrow).1
  next => exact Nat.zero_le 1

/-- A word that leaves the machine faulted, where it was not, took one fault under its own UNIT and OP: ILLEGAL_COMMAND where it is no
command, and otherwise what the command raised. -/
theorem runTransaction_eq_faultedBy {s t : State} {tx : Transaction} (hv : s.fault.valid = false)
    (h : runTransaction tx s = .next t) (hf : t.fault.valid = true) :
    ∃ c, ∃ zeros ≤ 1, (∀ i, decode s.kind tx = .ok i → zeros = i.zeroWords) ∧ t = s.faultedBy c tx.unit tx.op zeros := by
  cases hdecode : decode s.kind tx with
  | error e =>
    obtain ⟨zeros, hzeros, heq⟩ := State.illegalWord_of_not_faulted hv tx.cw tx.unit tx.op
    have ht := Host.Outcome.next.inj ((runTransaction_of_decode_error hdecode).symm.trans h)
    exact ⟨_, zeros, hzeros, nofun, ht.symm.trans heq⟩
  | ok i =>
    obtain ⟨hkind, hunit, hop, _⟩ := fields_of_decode hdecode
    rw [runTransaction_of_decode hdecode] at h
    obtain ⟨c, ht⟩ := exec_eq_faultedBy hkind.symm hv h hf
    exact ⟨c, i.zeroWords, Instr.zeroWords_le_one i, fun j hj => congrArg Instr.zeroWords (Except.ok.inj hj),
      by rw [ht, hunit, hop]⟩

/-- Settles O9: the one fault that the presented word took is all that changed. -/
theorem faultsArePrecise : Obligations.FaultsArePrecise := by
  intro s t tx rest hp hstep hv hf
  rw [step_of_port_command hp] at hstep
  obtain ⟨c, zeros, hzeros, hcount, rfl⟩ := runTransaction_eq_faultedBy (s := { s with port := rest }) hv hstep hf
  exact ⟨c, zeros, hzeros, hcount, rfl, rfl⟩

/-! ### A command while faulted (R385, R386) -/

/-- The numbers up to 0x16, 0x0F left out, are registers (R46). -/
theorem Engine.exists_readReg {reg : BitVec 8} (hle : reg.toNat ≤ 0x16) (hne : reg.toNat ≠ 0x0F) (prm : Params) (fr : FaultReg)
    (e : Engine) : ∃ v, e.readReg prm fr reg = some v := by
  unfold Engine.readReg
  generalize reg.toNat = n at hle hne ⊢
  interval_cases n
  -- the sixteenth number is the reserved 0x0F
  on_goal 16 => exact absurd rfl hne
  all_goals exact ⟨_, rfl⟩

/-- A read of a register that exists is answered, faulted or not (R346). -/
theorem exec_eReadReg_of_exists {s : State} {reg : BitVec 8} (hk : s.kind = .engine) (hle : reg.toNat ≤ 0x16)
    (hne : reg.toNat ≠ 0x0F) : ∃ v, exec (.eReadReg reg) s = .next (s.respond .ok [v]) := by
  obtain ⟨e, hu⟩ := UnitState.exists_engine_of_kind hk
  exact (Engine.exists_readReg hle hne s.params s.fault e).imp fun _ hr => exec_eReadReg_of_some hu hr

/-- While faulted a command of this configuration is rejected, unless it reads a register that exists (R385). -/
theorem exec_of_faulted {s : State} {i : Instr} (hk : s.kind = i.kind) (hv : s.fault.valid = true)
    (hreg : ∀ reg, i = .eReadReg reg → reg.toNat = 0x0F ∨ 0x17 ≤ reg.toNat) : exec i s = .next (s.reject i.zeroWords) := by
  obtain ⟨reg, rfl⟩ | ⟨α, sel, put, body, hs, hexec⟩ := exec_cases i s
  case inl =>
    obtain ⟨e, hu⟩ := UnitState.exists_engine_of_kind hk
    exact (exec_eReadReg_of_none hu (Engine.readReg_reserved (hreg reg rfl))).trans (by rw [hv]; rfl)
  case inr =>
    obtain ⟨a, ha⟩ := hs.exists_of_kind hk
    exact hexec.trans (congrArg _ (State.command_faulted ha hv))

/-- While faulted an illegal word is rejected too (R383, R385). -/
theorem State.illegalWord_of_faulted {s : State} (hv : s.fault.valid = true) (cw : CmdWord) (unit op : BitVec 4) :
    ∃ zeros ≤ 1, s.illegalWord cw unit op = s.reject zeros := by
  obtain ⟨zeros, hzeros, ⟨_, heq⟩ | ⟨hv', _⟩⟩ := s.illegalWord_cases cw unit op
  · exact ⟨zeros, hzeros, heq⟩
  · rw [hv] at hv'
    cases hv'

/-- While faulted every word is rejected but a read of a register that exists (R385). -/
theorem runTransaction_of_faulted {s : State} {tx : Transaction} (hv : s.fault.valid = true)
    (hreg : ∀ reg, decode s.kind tx = .ok (.eReadReg reg) → reg.toNat = 0x0F ∨ 0x17 ≤ reg.toNat) :
    ∃ zeros ≤ 1, runTransaction tx s = .next (s.reject zeros) ∧ ∀ i, decode s.kind tx = .ok i → zeros = i.zeroWords := by
  cases hdecode : decode s.kind tx with
  | error e =>
    obtain ⟨zeros, hzeros, heq⟩ := State.illegalWord_of_faulted hv tx.cw tx.unit tx.op
    exact ⟨zeros, hzeros, (runTransaction_of_decode_error hdecode).trans (congrArg _ heq), nofun⟩
  | ok i =>
    obtain ⟨hkind, _⟩ := fields_of_decode hdecode
    have hexec := exec_of_faulted hkind.symm hv fun reg hi => hreg reg (hi ▸ hdecode)
    exact ⟨i.zeroWords, Instr.zeroWords_le_one i, (runTransaction_of_decode hdecode).trans hexec,
      fun j hj => congrArg Instr.zeroWords (Except.ok.inj hj)⟩

/-- Settles O10: the one command that is answered, and the rejection of every other word with R386's count read off the opcode map. -/
theorem faultedMachineRejects : Obligations.FaultedMachineRejects := by
  intro s tx rest hp hv
  rw [step_of_port_command hp]
  refine ⟨fun reg hdecode hle hne => ?answered, fun hreg => ?rejected⟩
  case answered =>
    obtain ⟨hkind, _⟩ := fields_of_decode hdecode
    rw [runTransaction_of_decode (s := { s with port := rest }) hdecode]
    exact exec_eReadReg_of_exists hkind.symm hle hne
  case rejected =>
    obtain ⟨zeros, hzeros, hrun, hcount⟩ := runTransaction_of_faulted (s := { s with port := rest }) hv
      fun reg hdecode => (hreg reg hdecode).symm
    refine ⟨zeros, hzeros, hrun, fun i hdecode => (hcount i hdecode).trans ?_⟩
    cases i <;> rfl

/-! ### Leaving a fault (R390, R410) -/

/-- A faulted machine that is not reset writes nothing but its response, whatever is presented (R385). -/
theorem step_of_faulted {s : State} (hv : s.fault.valid = true) (hreset : ∀ rest, s.port ≠ .reset :: rest) :
    ∃ resp, step s = .next { s with port := s.port.tail, resp := resp } := by
  match hp : s.port with
  | [] => exact ⟨s.resp, (step_of_port_nil hp).trans (by rw [List.tail_nil, ← hp])⟩
  | .reset :: rest => exact absurd hp (hreset rest)
  | .command tx :: rest =>
    obtain ⟨hanswered, hrejected⟩ := faultedMachineRejects s tx rest hp hv
    by_cases hread : ∃ reg, decode s.kind tx = .ok (.eReadReg reg) ∧ reg.toNat ≤ 0x16 ∧ reg.toNat ≠ 0x0F
    · obtain ⟨reg, hdecode, hle, hne⟩ := hread
      obtain ⟨_, hstep⟩ := hanswered reg hdecode hle hne
      exact ⟨_, hstep⟩
    · have hreserved : ∀ reg, decode s.kind tx = .ok (.eReadReg reg) → 0x16 < reg.toNat ∨ reg.toNat = 0x0F := by
        intro reg hdecode
        by_contra hnot
        exact hread ⟨reg, hdecode, by omega, by omega⟩
      obtain ⟨_, _, hstep, _⟩ := hrejected hreserved
      exact ⟨_, hstep⟩

/-- Settles O11: by induction on the number of steps, each of which keeps FAULT and takes one thing that is no reset off the port. -/
theorem onlyHardwareResetLeavesFault : Obligations.OnlyHardwareResetLeavesFault := by
  intro n
  induction n with
  | zero =>
    intro s t _ _ hrun
    obtain rfl := Host.Outcome.next.inj hrun
    exact ⟨rfl, rfl, rfl⟩
  | succ n ih =>
    intro s t hv hreset hrun
    have hfirst : ∀ rest, s.port ≠ .reset :: rest := fun rest hp => hreset (by rw [hp]; exact List.mem_cons_self)
    have hlater : PortInput.reset ∉ s.port.tail.take n := fun hmem => hreset (by
      cases hp : s.port with
      | nil => simp [hp] at hmem
      | cons p rest => exact List.mem_cons_of_mem p (by rwa [hp] at hmem))
    obtain ⟨resp, hstep⟩ := step_of_faulted hv hfirst
    rw [run_succ_of_step hstep] at hrun
    exact ih { s with port := s.port.tail, resp := resp } t hv hlater hrun

/-! ### The power-on values (R32 to R44), as the values of their counts (R16) -/

theorem powerOnLem_eq : powerOnLem = ⟨[], f64 1, 0, none, false, 0, false⟩ := by decide +kernel

theorem powerOnEngine_eq (g : Nat) :
    powerOnEngine g =
      { P := powerOnPool g, E := powerOnLem, DRY := steadyRamp (f32 1), offset := f64 1, tempo := f64 120, sr := f64 48000,
        speed := f32 1, reverse := false } := by
  have hone32 : (0x3F800000 : B32) = f32 1 := one32_eq
  have hone64 : (0x3FF0000000000000 : B64) = f64 1 := by decide +kernel
  have htempo : (0x405E000000000000 : B64) = f64 120 := by decide +kernel
  have hrate : (0x40E7700000000000 : B64) = f64 48000 := by decide +kernel
  rw [powerOnEngine, hone32, hone64, htempo, hrate]

/-- The reset input builds the machine afresh (R410). -/
theorem step_of_port_reset {s : State} {rest : List PortInput} (hp : s.port = .reset :: rest) :
    step s = .next (State.hardwareReset { s with port := rest }) := by
  unfold step
  rw [hp]

/-- What the reset input leaves, from the power-on unit of the configuration. -/
theorem State.hardwareReset_eq {s : State} {u : UnitState} (hu : powerOnUnit s.params s.kind = u) :
    s.hardwareReset = ⟨s.params, ⟨false, 0, 0, 0⟩, u, s.port, none⟩ := by
  rw [← hu]
  rfl

/-- Settles O7: the power-on unit of each configuration, written out, and that a faulted machine which is not reset keeps FAULT. -/
theorem hardwareResetGivesPowerOn : Obligations.HardwareResetGivesPowerOn := by
  refine ⟨fun s rest hp => ⟨none, ?reset⟩, fun s t hv hstep hcleared => ?only⟩
  case reset =>
    rw [step_of_port_reset hp]
    refine congrArg _ (State.hardwareReset_eq (s := { s with port := rest }) ?_)
    have hkind : State.kind { s with port := rest } = s.kind := rfl
    rw [hkind]
    cases s.kind
    case engine =>
      have hengine := powerOnEngine_eq s.params.G
      rw [powerOnLem_eq] at hengine
      exact congrArg UnitState.engine hengine
    case lem => exact congrArg UnitState.lem powerOnLem_eq
    case cbuf | ramp | grain | pool | evsched => rfl
  case only =>
    by_contra hnot
    obtain ⟨_, hstep'⟩ := step_of_faulted hv fun rest hp => hnot ⟨rest, hp⟩
    obtain rfl := Host.Outcome.next.inj (hstep'.symm.trans hstep)
    cases hv.symm.trans hcleared

end Sys2Proof.Machine
end

section
/-! SUPPORT. The grain (spec/42_grain.md): what each of its commands does (R191 to R204), what any number of ticks leaves of a grain,
and the finish and stop laws (R205, R206). -/

namespace Sys2Proof.Machine

-- As in the tests: one kernel check at a time keeps the compile within the check's memory limit; no proof depends on it.
set_option Elab.async false

/-! ### The commands of a ready GRAIN -/

section Commands

variable {s : State} {g : Grain} {is : List Instr} {rest : List PortInput} (h : s.Ready (.grain g))
include h

/-- GR.NEW replaces the grain by the one it constructs, or faults as the construction does (R191). -/
theorem exec_grNew_ready_of_ok {wait duration fade : U32} {offset speed : B32} {reverse : Bool} {g' : Grain}
    (hg : Grain.new wait offset duration fade reverse speed = .ok g') :
    exec (.grNew wait duration offset speed fade reverse) s = .next (s.executed (.grain g') []) :=
  (State.onGrain_ready h).trans (by rw [hg]; rfl)

theorem exec_grNew_ready_of_error {wait duration fade : U32} {offset speed : B32} {reverse : Bool} {c : Cause}
    (hc : Grain.new wait offset duration fade reverse speed = .error c) :
    exec (.grNew wait duration offset speed fade reverse) s = .next (s.faultedBy c 0x3 0x0 0) :=
  (State.onGrain_ready h).trans (by rw [hc]; rfl)

/-- GR.TICK executes `Grain.tick` and answers its position and gain (R194). -/
theorem exec_grTick_ready :
    exec .grTick s = .next (s.executed (.grain g.tick.1) [positionGainWord g.tick.2.1 g.tick.2.2]) :=
  State.onGrain_ready h

/-- GR.STOP executes `Grain.stop` (R196). -/
theorem exec_grStop_ready : exec .grStop s = .next (s.executed (.grain g.stop) []) := State.onGrain_ready h

/-- A presented GR.NEW of legal operands. -/
theorem step_grNew {wait duration fade : U32} {offset speed : B32} {reverse : Bool} {g' : Grain}
    (hg : Grain.new wait offset duration fade reverse speed = .ok g')
    (hp : s.port = presenting (.grNew wait duration offset speed fade reverse :: is) ++ rest) :
    step s = .next (State.executed { s with port := presenting is ++ rest } (.grain g') []) :=
  (step_of_port_presenting_cons hp (State.kind_of_ready h)).trans
    (exec_grNew_ready_of_ok (s := { s with port := presenting is ++ rest }) h hg)

/-- A presented GR.TICK. -/
theorem step_grTick (hp : s.port = presenting (.grTick :: is) ++ rest) :
    step s = .next (State.executed { s with port := presenting is ++ rest } (.grain g.tick.1)
      [positionGainWord g.tick.2.1 g.tick.2.2]) :=
  (step_of_port_presenting_cons hp (State.kind_of_ready h)).trans
    (exec_grTick_ready (s := { s with port := presenting is ++ rest }) h)

/-- A presented GR.STOP. -/
theorem step_grStop (hp : s.port = presenting (.grStop :: is) ++ rest) :
    step s = .next (State.executed { s with port := presenting is ++ rest } (.grain g.stop) []) :=
  (step_of_port_presenting_cons hp (State.kind_of_ready h)).trans
    (exec_grStop_ready (s := { s with port := presenting is ++ rest }) h)

end Commands

/-! ### The queries, by arithmetic (R200 to R204) -/

section Queries

variable {g : Grain}

theorem Grain.finished_iff : g.finished = true ↔ g.dur.toNat ≤ g.el.toNat := decide_eq_true_iff

theorem Grain.finished_eq_false_iff : g.finished = false ↔ g.el.toNat < g.dur.toNat := by
  rw [Bool.eq_false_iff, ne_eq, Grain.finished_iff, Nat.not_le]

theorem Grain.waiting_iff : g.waiting = true ↔ g.el.toNat < g.dur.toNat ∧ 0 < g.wait.toNat := by
  rw [Grain.waiting, Bool.and_eq_true, Bool.not_eq_true', Grain.finished_eq_false_iff, decide_eq_true_iff]

theorem Grain.playing_iff : g.playing = true ↔ g.el.toNat < g.dur.toNat ∧ g.wait.toNat = 0 := by
  rw [Grain.playing, Bool.and_eq_true, Bool.not_eq_true', Grain.finished_eq_false_iff, decide_eq_true_iff]

theorem Grain.fadingIn_iff :
    g.fadingIn = true ↔ g.el.toNat < g.dur.toNat ∧ g.wait.toNat = 0 ∧ g.el.toNat < g.fade.toNat := by
  rw [Grain.fadingIn, Bool.and_eq_true, Grain.playing_iff, decide_eq_true_iff, and_assoc]

theorem Grain.fadingOut_iff :
    g.fadingOut = true ↔
      g.el.toNat < g.dur.toNat ∧ g.wait.toNat = 0 ∧ (g.dur.toNat : Int) - g.fade.toNat ≤ g.el.toNat := by
  have hregion : g.inFadeOutRegion = true ↔ (g.dur.toNat : Int) - g.fade.toNat ≤ g.el.toNat := by
    rw [Grain.inFadeOutRegion, decide_eq_true_iff]
    omega
  rw [Grain.fadingOut, Bool.and_eq_true, Grain.playing_iff, hregion, and_assoc]

/-- A condition as a result word, where it is known as a proposition (R118). -/
theorem wordBool_eq_of_iff {b : Bool} {p : Prop} [Decidable p] (h : b = true ↔ p) : wordBool b = if p then 1 else 0 := by
  rw [wordBool_eq_ite]
  simp only [h]

end Queries

/-- Settles O26: each query answers its flag, which the lemmas above read by arithmetic. -/
theorem grainQueriesReadCounters : Obligations.GrainQueriesReadCounters := by
  obtain ⟨_, _, _, ⟨_, _, _, _, hfinished, hwaiting, hplaying, hfadingIn, hfadingOut⟩, _⟩ := writtenOutWordsDecode
  refine ⟨hfinished, hwaiting, hplaying, hfadingIn, hfadingOut, fun s g h => ⟨?_, ?_, ?_, ?_, ?_⟩⟩
  · rw [← wordBool_eq_of_iff Grain.finished_iff]
    exact State.onGrain_ready h
  · rw [← wordBool_eq_of_iff Grain.waiting_iff]
    exact State.onGrain_ready h
  · rw [← wordBool_eq_of_iff Grain.playing_iff]
    exact State.onGrain_ready h
  · rw [← wordBool_eq_of_iff Grain.fadingIn_iff]
    exact State.onGrain_ready h
  · rw [← wordBool_eq_of_iff Grain.fadingOut_iff]
    exact State.onGrain_ready h

/-! ### The construction (R191, R192) -/

section New

variable {wait duration fade : U32} {offset speed : B32} {reverse : Bool}

theorem Grain.new_of_not_finite (h : finite32 offset = false ∨ finite32 speed = false) :
    Grain.new wait offset duration fade reverse speed = .error .badParameter := by
  unfold Grain.new
  exact if_pos (by simpa using h)

theorem Grain.new_of_long_fade (ho : finite32 offset = true) (hs : finite32 speed = true)
    (hf : duration.toNat < fade.toNat) :
    Grain.new wait offset duration fade reverse speed = .error .fadeExceedsDuration := by
  simp [Grain.new, ho, hs, hf]

end New

/-- The fade that is kept, as a number: half the duration, rounded down, where twice the fade exceeds the duration (R192). -/
theorem clampFade_toNat (duration fade : U32) :
    (clampFade duration fade).toNat = if duration.toNat < 2 * fade.toNat then duration.toNat / 2 else fade.toNat := by
  rw [clampFade, apply_ite BitVec.toNat, BitVec.toNat_udiv]
  rfl

/-- Settles O23: the three answers of the construction; the fade that is kept fits twice into the duration. -/
theorem grainNewConstructs : Obligations.GrainNewConstructs := by
  obtain ⟨_, _, _, ⟨hforward, hreverse, _⟩, _⟩ := writtenOutWordsDecode
  refine ⟨hforward, hreverse, fun s g wait duration offset speed fade reverse h =>
    ⟨fun ho hs hf => ?made, fun hbad => ?notFinite, fun ho hs hf => ?longFade⟩⟩
  case made =>
    refine ⟨clampFade duration fade, clampFade_toNat duration fade, clampFade_le duration fade, ?_⟩
    rw [← one32_eq]
    exact exec_grNew_ready_of_ok h (Grain.new_of_legal ho hs hf)
  case notFinite => exact exec_grNew_ready_of_error h (Grain.new_of_not_finite hbad)
  case longFade => exact exec_grNew_ready_of_error h (Grain.new_of_long_fade ho hs hf)

/-! ### One tick (R194, R195) -/

section Tick

variable {g : Grain}

theorem Grain.tick_of_finished (h : g.dur.toNat ≤ g.el.toNat) : g.tick = (g, zero32, zero32) := by
  simp [Grain.tick, Grain.finished_iff.2 h]

theorem Grain.tick_of_waiting (h : g.el.toNat < g.dur.toNat) (hw : 0 < g.wait.toNat) :
    g.tick = ({ g with wait := g.wait - 1 }, zero32, zero32) := by
  simp [Grain.tick, Grain.finished_eq_false_iff.2 h, hw]

theorem Grain.tick_of_playing (h : g.el.toNat < g.dur.toNat) (hw : g.wait.toNat = 0) :
    g.tick = ({ g with env := g.startRamps.tick, pos := add32 g.pos g.inc, el := g.el + 1 }, g.pos, g.startRamps.tick.v) := by
  simp [Grain.tick, Grain.finished_eq_false_iff.2 h, hw]

/-- The tick of a grain with some wait left. -/
theorem Grain.tick_with_wait (h : g.el.toNat < g.dur.toNat) {w : U32} (hw : 0 < w.toNat) :
    Grain.tick { g with wait := w } = ({ g with wait := w - 1 }, zero32, zero32) :=
  Grain.tick_of_waiting (g := { g with wait := w }) h hw

/-- One tick less to wait, as a number. -/
theorem wait_sub_one_eq {w : U32} (hw : 0 < w.toNat) : w - 1 = BitVec.ofNat 32 (w.toNat - 1) :=
  eq_ofNat_of_toNat (BitVec.toNat_sub_of_le (x := w) (y := 1) hw)

/-- The answer of a tick as a number: the gain above the position (R118). -/
theorem positionGainWord_eq (pos gain : B32) :
    positionGainWord pos gain = BitVec.ofNat 64 (gain.toNat * 2 ^ 32 + pos.toNat) :=
  eq_ofNat_of_toNat (halves_toNat gain pos)

/-- The answer of a silent tick is the zero word. -/
theorem positionGainWord_silent : positionGainWord zero32 zero32 = 0 := by decide

end Tick

/-- Settles O24: the tick of each of the three states of a grain. -/
theorem grainTickAdvances : Obligations.GrainTickAdvances := by
  obtain ⟨_, _, _, ⟨_, _, hword, _⟩, _⟩ := writtenOutWordsDecode
  refine ⟨hword, fun s g h => ⟨fun hdone => ?finished, fun hrun hw => ?waiting, fun hrun hw => ?active⟩⟩
  case finished => rw [exec_grTick_ready h, Grain.tick_of_finished hdone, positionGainWord_silent]
  case waiting =>
    rw [exec_grTick_ready h, Grain.tick_of_waiting hrun hw, positionGainWord_silent, wait_sub_one_eq hw]
  case active =>
    intro fadedIn env
    have hfirst : g.el = 0 ↔ g.el.toNat = 0 := BitVec.toNat_inj.symm
    have hregion : g.el.toNat + g.fade.toNat = g.dur.toNat ↔ (g.el.toNat : Int) = (g.dur.toNat : Int) - g.fade.toNat := by
      omega
    have henv : g.startRamps.tick = env := by
      simp only [Grain.startRamps, hfirst, hregion]
      rfl
    have hel : g.el + 1 = BitVec.ofNat 32 (g.el.toNat + 1) :=
      eq_ofNat_of_toNat (Grain.el_succ_toNat (Grain.finished_eq_false_iff.2 hrun))
    rw [exec_grTick_ready h, Grain.tick_of_playing hrun hw, positionGainWord_eq, henv, hel]

/-! ### A stop (R196) -/

section Stop

variable {g : Grain}

theorem Grain.stop_of_fading (h : g.dur.toNat ≤ g.el.toNat + g.fade.toNat) : g.stop = g := by
  obtain ⟨_, hstop⟩ | ⟨hlt, _⟩ := g.stop_cases
  · exact hstop
  · omega

/-- Before the fade-out region a stop leaves one fade from here; the sum does not wrap. -/
theorem Grain.stop_of_before (h : g.el.toNat + g.fade.toNat < g.dur.toNat) :
    g.stop = { g with dur := BitVec.ofNat 32 (g.el.toNat + g.fade.toNat) } ∧
      g.stop.dur.toNat = g.el.toNat + g.fade.toNat := by
  obtain ⟨hle, _⟩ | ⟨_, hsum, hstop⟩ := g.stop_cases
  · omega
  · rw [hstop]
    exact ⟨by rw [eq_ofNat_of_toNat hsum], hsum⟩

theorem Grain.stop_el (g : Grain) : g.stop.el = g.el := by unfold Grain.stop; split <;> rfl
theorem Grain.stop_fade (g : Grain) : g.stop.fade = g.fade := by unfold Grain.stop; split <;> rfl
theorem Grain.stop_wait (g : Grain) : g.stop.wait = g.wait := by unfold Grain.stop; split <;> rfl
theorem Grain.stop_env (g : Grain) : g.stop.env = g.env := by unfold Grain.stop; split <;> rfl

/-- A stop, written out by arithmetic. -/
theorem Grain.stop_eq (g : Grain) :
    g.stop = if g.dur.toNat ≤ g.el.toNat + g.fade.toNat then g
      else { g with dur := BitVec.ofNat 32 (g.el.toNat + g.fade.toNat) } := by
  split
  next hfading => exact Grain.stop_of_fading hfading
  next hbefore => exact (Grain.stop_of_before (Nat.lt_of_not_le hbefore)).1

/-- A stopped grain is in its fade-out region, so that a second stop does nothing (R196). -/
theorem Grain.stop_stop (g : Grain) : g.stop.stop = g.stop := by
  refine Grain.stop_of_fading ?_
  by_cases hfading : g.dur.toNat ≤ g.el.toNat + g.fade.toNat
  · rwa [Grain.stop_of_fading hfading]
  · obtain ⟨_, hdur⟩ := Grain.stop_of_before (Nat.lt_of_not_le hfading)
    rw [hdur, Grain.stop_el, Grain.stop_fade]

end Stop

/-- Settles O25: a stop on both sides of the fade-out region, and the stop of a stopped grain. -/
theorem grainStopShortens : Obligations.GrainStopShortens := by
  obtain ⟨_, _, _, ⟨_, _, _, hword, _⟩, _⟩ := writtenOutWordsDecode
  refine ⟨hword, fun s g h => ⟨fun hfading => ?fading, fun hbefore => ?before⟩⟩
  case fading => rw [exec_grStop_ready h, Grain.stop_of_fading (by omega)]
  case before =>
    obtain ⟨hstop, hdur⟩ := Grain.stop_of_before (g := g) (by omega)
    refine ⟨g.stop, hstop, hdur, exec_grStop_ready h, fun t ht => ?_⟩
    rw [exec_grStop_ready ht, Grain.stop_stop]

/-! ### Any number of ticks -/

/-- The grain after `k` ticks. -/
def Grain.afterTicks (g : Grain) (k : Nat) : Grain := (fun x => x.tick.1)^[k] g

@[simp] theorem Grain.afterTicks_zero (g : Grain) : g.afterTicks 0 = g := rfl

theorem Grain.afterTicks_succ (g : Grain) (k : Nat) : g.afterTicks (k + 1) = (g.afterTicks k).tick.1 :=
  Function.iterate_succ_apply' _ k g

theorem Grain.afterTicks_tick (g : Grain) (k : Nat) : g.tick.1.afterTicks k = g.afterTicks (k + 1) :=
  (Function.iterate_succ_apply _ k g).symm

theorem Grain.afterTicks_add (g : Grain) (j k : Nat) : g.afterTicks (j + k) = (g.afterTicks j).afterTicks k := by
  rw [Nat.add_comm]
  exact Function.iterate_add_apply _ k j g

/-- What one tick keeps holds after any number of them. -/
theorem Grain.afterTicks_of_kept {P : Grain → Prop} (hkept : ∀ g, P g → P g.tick.1) {g : Grain} (h : P g) (k : Nat) :
    P (g.afterTicks k) := by
  induction k with
  | zero => exact h
  | succ k ih => exact g.afterTicks_succ k ▸ hkept _ ih

/-- The wait counts down and nothing else changes (R194). -/
theorem Grain.afterTicks_of_waiting {g : Grain} (h : g.el.toNat < g.dur.toNat) {k : Nat} (hk : k ≤ g.wait.toNat) :
    g.afterTicks k = { g with wait := BitVec.ofNat 32 (g.wait.toNat - k) } := by
  induction k with
  | zero => rw [Grain.afterTicks_zero, Nat.sub_zero, BitVec.ofNat_toNat, BitVec.setWidth_eq]
  | succ k ih =>
    have hwait : (BitVec.ofNat 32 (g.wait.toNat - k)).toNat = g.wait.toNat - k := by
      have hlt := g.wait.isLt
      rw [BitVec.toNat_ofNat, Nat.mod_eq_of_lt (by omega)]
    have hpos : 0 < (BitVec.ofNat 32 (g.wait.toNat - k)).toNat := by omega
    rw [Grain.afterTicks_succ, ih (by omega), Grain.tick_with_wait h hpos, wait_sub_one_eq hpos, hwait, Nat.sub_sub]

/-- `g'` is what `k` ticks leave of the counters and the position of `g`, which does not wait: they count up to the duration and no
further, and the position steps by the increment (R194). -/
structure Grain.Advanced (g : Grain) (k : Nat) (g' : Grain) : Prop where
  wait : g'.wait.toNat = 0
  dur : g'.dur = g.dur
  fade : g'.fade = g.fade
  inc : g'.inc = g.inc
  el : g'.el.toNat = min (g.el.toNat + k) g.dur.toNat
  pos : g.el.toNat + k ≤ g.dur.toNat → g'.pos = (fun p => add32 p g.inc)^[k] g.pos

theorem Grain.Advanced.zero {g : Grain} (hw : g.wait.toNat = 0) (hle : g.el.toNat ≤ g.dur.toNat) : g.Advanced 0 g :=
  ⟨hw, rfl, rfl, rfl, by omega, fun _ => rfl⟩

theorem Grain.Advanced.tick {g g' : Grain} {k : Nat} (h : g.Advanced k g') : g.Advanced (k + 1) g'.tick.1 := by
  obtain ⟨hw, hdur, hfade, hinc, hel, hpos⟩ := h
  by_cases hdone : g'.dur.toNat ≤ g'.el.toNat
  · rw [Grain.tick_of_finished hdone]
    rw [hdur] at hdone
    exact ⟨hw, hdur, hfade, hinc, by simp only; omega, fun hle => by omega⟩
  · have hrun := Nat.lt_of_not_le hdone
    have hsucc := Grain.el_succ_toNat (Grain.finished_eq_false_iff.2 hrun)
    rw [Grain.tick_of_playing hrun hw]
    rw [hdur] at hrun
    refine ⟨hw, hdur, hfade, hinc, by simp only [hsucc]; omega, fun hle => ?_⟩
    rw [Function.iterate_succ_apply', ← hpos (by omega), ← hinc]

theorem Grain.advanced_afterTicks {g : Grain} (hw : g.wait.toNat = 0) (hle : g.el.toNat ≤ g.dur.toNat) (k : Nat) :
    g.Advanced k (g.afterTicks k) := by
  induction k with
  | zero => exact .zero hw hle
  | succ k ih => exact g.afterTicks_succ k ▸ ih.tick

/-- A grain that does not wait is finished exactly when its ticks reach its duration. -/
theorem Grain.Advanced.finished_iff {g g' : Grain} {k : Nat} (h : g.Advanced k g') :
    g'.finished = true ↔ g.dur.toNat ≤ g.el.toNat + k := by
  rw [Grain.finished_iff, h.dur, h.el]
  omega

/-! ### Running presented ticks -/

/-- A machine that runs presented GR.TICKs ticks its grain, and goes on to what is presented after them. -/
theorem run_grTicks {s : State} {g : Grain} {k : Nat} {is : List Instr} {rest : List PortInput} (hready : s.Ready (.grain g))
    (hp : s.port = presenting (List.replicate k .grTick ++ is) ++ rest) :
    ∃ t : State, (∀ m, core.run (k + m) s = core.run m t) ∧ t.Ready (.grain (g.afterTicks k)) ∧
      t.port = presenting is ++ rest ∧ t.fault = s.fault := by
  induction k generalizing s g with
  | zero => exact ⟨s, fun m => by rw [Nat.zero_add], hready, hp, rfl⟩
  | succ k ih =>
    have hvalid := hready.2
    have hstep := step_grTick hready hp
    obtain ⟨t, hrun, hready', hport, hfault⟩ :=
      ih (s := State.executed { s with port := presenting (List.replicate k .grTick ++ is) ++ rest } (.grain g.tick.1) _)
        ⟨rfl, hvalid⟩ rfl
    refine ⟨t, fun m => ?_, g.afterTicks_tick k ▸ hready', hport, hfault⟩
    rw [Nat.add_right_comm]
    exact (run_succ_of_step hstep _).trans (hrun m)

/-- The last of at least one presented GR.TICKs answers for the grain that the others leave. -/
theorem run_succ_grTicks {s : State} {g : Grain} {k : Nat} {rest : List PortInput} (hready : s.Ready (.grain g))
    (hp : s.port = presenting (List.replicate (k + 1) .grTick) ++ rest) :
    ∃ t : State, core.run (k + 1) s = .next t ∧ t.unit = .grain (g.afterTicks (k + 1)) ∧ t.fault = s.fault ∧
      t.resp = some ⟨.ok, [positionGainWord (g.afterTicks k).tick.2.1 (g.afterTicks k).tick.2.2]⟩ := by
  rw [List.replicate_succ'] at hp
  obtain ⟨t, hrun, hready', hport, hfault⟩ := run_grTicks hready hp
  exact ⟨_, (hrun 1).trans (run_one_of_step (step_grTick hready' hport)), congrArg _ (g.afterTicks_succ k).symm, hfault, rfl⟩

/-! ### The finish law (R206) -/

/-- A grain of fade 0 that has not had its first active tick, or whose envelope is at 1.0 or arrives there on the next tick. -/
def Grain.FullGain (g : Grain) : Prop :=
  g.fade.toNat = 0 ∧ (g.el = 0 ∨ g.env.rem.toNat ≤ 1 ∧ g.env.t = one32)

/-- The envelope of such a grain on an active tick: the fade-out never replaces the fade-in, since it would begin when the grain is
finished. -/
theorem Grain.FullGain.startRamps {g : Grain} (h : g.FullGain) (hrun : g.el.toNat < g.dur.toNat) :
    g.startRamps.rem.toNat ≤ 1 ∧ g.startRamps.t = one32 := by
  obtain ⟨hfade, hstate⟩ := h
  have hregion : ¬ g.el.toNat + g.fade.toNat = g.dur.toNat := by omega
  simp only [Grain.startRamps, if_neg hregion]
  split
  next => exact ⟨by rw [Ramp.ramp_rem_toNat, hfade], rfl⟩
  next hel => exact hstate.resolve_left hel

/-- A ramp of at most one step left takes its target. -/
theorem Ramp.tick_v_of_last {r : Ramp} (h : r.rem.toNat ≤ 1) : r.tick.v = r.t := by
  rw [Ramp.tick_v_eq]
  exact if_pos (by omega)

theorem Grain.FullGain.tick {g : Grain} (h : g.FullGain) : g.tick.1.FullGain := by
  obtain ⟨_, htick⟩ | ⟨_, htick⟩ | ⟨hplaying, htick⟩ := g.tick_cases
  case inl | inr.inl => rw [htick]; exact h
  case inr.inr =>
    obtain ⟨hrem, ht⟩ := h.startRamps (Grain.playing_iff.1 hplaying).1
    rw [htick]
    exact ⟨h.1, .inr ⟨by rw [Ramp.tick_rem_toNat]; omega, by rw [Ramp.tick_t, ht]⟩⟩

theorem Grain.FullGain.gain {g : Grain} (h : g.FullGain) (hrun : g.el.toNat < g.dur.toNat) : g.startRamps.tick.v = one32 := by
  obtain ⟨hrem, ht⟩ := h.startRamps hrun
  rw [Ramp.tick_v_of_last hrem, ht]

section Finish

variable {g : Grain} {n : Nat}

/-- A grain that starts with a wait is, after more ticks than that, where the ticks past its wait take it. -/
theorem Grain.advanced_afterTicks_of_wait (hrun : g.el.toNat < g.dur.toNat) (hn : g.wait.toNat ≤ n) :
    Grain.Advanced { g with wait := 0 } (n - g.wait.toNat) (g.afterTicks n) := by
  have hstart : g.afterTicks g.wait.toNat = { g with wait := 0 } := by
    rw [Grain.afterTicks_of_waiting hrun (Nat.le_refl _), Nat.sub_self]
    rfl
  obtain ⟨m, rfl⟩ := Nat.exists_eq_add_of_le hn
  rw [Grain.afterTicks_add, hstart, Nat.add_sub_cancel_left]
  exact Grain.advanced_afterTicks (g := { g with wait := 0 }) rfl (Nat.le_of_lt hrun) m

/-- A grain that has not counted yet is finished after its wait and its duration. -/
theorem Grain.finished_afterTicks_iff (hel : g.el.toNat = 0) (hdur : 0 < g.dur.toNat) :
    (g.afterTicks n).finished = true ↔ g.wait.toNat + g.dur.toNat ≤ n := by
  have hrun : g.el.toNat < g.dur.toNat := by omega
  by_cases hn : g.wait.toNat ≤ n
  · have hadvanced := Grain.advanced_afterTicks_of_wait hrun hn
    rw [hadvanced.finished_iff]
    simp only
    omega
  · rw [Grain.afterTicks_of_waiting hrun (by omega), Grain.finished_iff]
    simp only
    omega

/-- The ticks of the wait and those after the duration are silent. -/
theorem Grain.tick_afterTicks_silent (hel : g.el.toNat = 0) (hdur : 0 < g.dur.toNat)
    (hn : n < g.wait.toNat ∨ g.wait.toNat + g.dur.toNat ≤ n) :
    positionGainWord (g.afterTicks n).tick.2.1 (g.afterTicks n).tick.2.2 = 0 := by
  have hrun : g.el.toNat < g.dur.toNat := by omega
  obtain hwait | hdone := hn
  · have hlt := g.wait.isLt
    have hpos : 0 < (BitVec.ofNat 32 (g.wait.toNat - n)).toNat := by
      rw [BitVec.toNat_ofNat, Nat.mod_eq_of_lt (by omega)]
      omega
    rw [Grain.afterTicks_of_waiting hrun (by omega), Grain.tick_with_wait hrun hpos, positionGainWord_silent]
  · have hfinished := (Grain.finished_afterTicks_iff hel hdur).2 hdone
    rw [Grain.tick_of_finished (Grain.finished_iff.1 hfinished), positionGainWord_silent]

/-- The ticks between are active: the position has stepped once for each active tick before, and with fade 0 the gain is 1.0. -/
theorem Grain.tick_afterTicks_active (hel : g.el.toNat = 0) (hw : g.wait.toNat ≤ n) (hn : n < g.wait.toNat + g.dur.toNat) :
    (g.afterTicks n).tick.2.1 = (fun p => add32 p g.inc)^[n - g.wait.toNat] g.pos ∧
      (g.fade.toNat = 0 → (g.afterTicks n).tick.2.2 = one32) := by
  have hadvanced := Grain.advanced_afterTicks_of_wait (n := n) (g := g) (by omega) hw
  have hrun : (g.afterTicks n).el.toNat < (g.afterTicks n).dur.toNat := by
    rw [hadvanced.el, hadvanced.dur]
    simp only
    omega
  rw [Grain.tick_of_playing hrun hadvanced.wait]
  refine ⟨hadvanced.pos (by simp only; omega), fun hfade => ?_⟩
  have hfull : g.FullGain := ⟨hfade, .inl (BitVec.eq_of_toNat_eq hel)⟩
  exact Grain.FullGain.gain (Grain.afterTicks_of_kept (fun _ => Grain.FullGain.tick) hfull n) hrun

end Finish

/-- Settles O27: the grain that GR.NEW makes has counted nothing, and the last tick finds it waiting, active or finished. -/
theorem grainFinishesAfterWaitAndDuration : Obligations.GrainFinishesAfterWaitAndDuration := by
  intro s g wait duration offset speed fade reverse n rest hready ho hs hf hdur hn hp
  obtain ⟨n, rfl⟩ : ∃ m, n = m + 1 := ⟨n - 1, by omega⟩
  have hvalid := hready.2
  have hstep := step_grNew hready (Grain.new_of_legal ho hs hf) hp
  obtain ⟨t, hrun, hunit, hfault, hresp⟩ := run_succ_grTicks
    (s := State.executed { s with port := presenting (List.replicate (n + 1) .grTick) ++ rest } (.grain _) []) ⟨rfl, hvalid⟩ rfl
  refine ⟨t, _, (run_succ_of_step hstep _).trans hrun, hunit, hfault, Grain.finished_afterTicks_iff rfl hdur,
    fun hsilent => ?silent, fun hw hd => ?active⟩
  case silent => rw [hresp, Grain.tick_afterTicks_silent rfl hdur (by simp only; omega)]
  case active =>
    obtain ⟨hpos, hgain⟩ := Grain.tick_afterTicks_active (n := n)
      (g := { wait := wait, dur := duration, fade := clampFade duration fade, el := 0, env := steadyRamp zero32
              pos := if reverse then sub32 offset (f32 duration.toNat) else sub32 offset one32
              inc := if reverse then speed else neg32 speed }) rfl (by simp only; omega) (by simp only; omega)
    refine ⟨_, fun hfade => hgain ?_, ?_⟩
    · rw [clampFade_toNat, hfade]
      simp
    · rw [hresp, hpos, ← one32_eq, Nat.sub_right_comm, Nat.add_sub_cancel]
      rfl

/-! ### The stop law (R205) -/

section FadeOut

variable {g : Grain}

/-- Past the first active tick the envelope is restarted only where the fade-out region begins (R195). -/
theorem Grain.startRamps_of_counted (hel : 0 < g.el.toNat) :
    g.startRamps = if g.el.toNat + g.fade.toNat = g.dur.toNat then g.env.ramp zero32 g.fade else g.env := by
  have hne : g.el ≠ 0 := fun h => by rw [h] at hel; exact absurd hel (by decide)
  simp only [Grain.startRamps, if_neg hne]

/-- A grain where its fade-out region begins ramps its envelope toward 0, one step on each tick of the fade. -/
theorem Grain.afterTicks_succ_env (hw : g.wait.toNat = 0) (hel : 0 < g.el.toNat)
    (hregion : g.el.toNat + g.fade.toNat = g.dur.toNat) {k : Nat} (hk : k < g.fade.toNat) :
    (g.afterTicks k).tick.2.2 = (g.afterTicks (k + 1)).env.v ∧
      (g.afterTicks (k + 1)).env = Ramp.tick^[k + 1] (g.env.ramp zero32 g.fade) := by
  have hadvanced := Grain.advanced_afterTicks hw (by omega) k
  have hcount : (g.afterTicks k).el.toNat = g.el.toNat + k := by rw [hadvanced.el]; omega
  have hstart := Grain.startRamps_of_counted (g := g.afterTicks k) (by omega)
  rw [hadvanced.dur, hadvanced.fade, hcount] at hstart
  rw [Grain.afterTicks_succ, Grain.tick_of_playing (by rw [hcount, hadvanced.dur]; omega) hadvanced.wait, hstart]
  refine ⟨rfl, ?_⟩
  cases k with
  | zero => rw [Nat.add_zero, if_pos hregion]; rfl
  | succ k =>
    obtain ⟨_, henv⟩ := Grain.afterTicks_succ_env hw hel hregion (Nat.lt_of_succ_lt hk)
    rw [if_neg (by omega), henv, Function.iterate_succ_apply' _ (k + 1)]

/-- The gain of the tick `k + 1` of a fade-out (R173, R205). -/
theorem Grain.fadeOut_gain (hw : g.wait.toNat = 0) (hel : 0 < g.el.toNat)
    (hregion : g.el.toNat + g.fade.toNat = g.dur.toNat) {k : Nat} (hk : k < g.fade.toNat) :
    (g.afterTicks k).tick.2.2 = add32 zero32 (mul32 (sub32 g.env.v zero32)
      (div32 (f32 (g.fade.toNat + 1 - (k + 1))) (f32 (g.fade.toNat + 1)))) := by
  obtain ⟨hgain, henv⟩ := Grain.afterTicks_succ_env hw hel hregion hk
  rw [hgain, henv, Ramp.iterate_succ_tick_v, Ramp.ramp_s, Ramp.ramp_t, Ramp.ramp_rem_toNat, Ramp.ramp_tot_toNat]
  exact if_neg (by omega)

end FadeOut

/-- Settles O28: the stop leaves the grain where its fade-out region begins. -/
theorem stopLeavesOneFade : Obligations.StopLeavesOneFade := by
  intro s g k rest hready hw hel hbefore hp
  have hvalid := hready.2
  have hstep := step_grStop hready hp
  obtain ⟨_, hdur⟩ := Grain.stop_of_before hbefore
  have hw' : g.stop.wait.toNat = 0 := by rw [Grain.stop_wait, hw]
  have hel' : 0 < g.stop.el.toNat := by rwa [Grain.stop_el]
  have hregion : g.stop.el.toNat + g.stop.fade.toNat = g.stop.dur.toNat := by rw [hdur, Grain.stop_el, Grain.stop_fade]
  have hfinished (k : Nat) : (g.stop.afterTicks k).finished = true ↔ g.fade.toNat ≤ k := by
    rw [(Grain.advanced_afterTicks hw' (by omega) k).finished_iff, ← hregion, Grain.stop_fade]
    omega
  cases k with
  | zero => exact ⟨_, g.stop, run_one_of_step hstep, rfl, rfl, hfinished 0, fun hk => absurd hk (by decide)⟩
  | succ k =>
    obtain ⟨t, hrun, hunit, hfault, hresp⟩ := run_succ_grTicks
      (s := State.executed { s with port := presenting (List.replicate (k + 1) .grTick) ++ rest } (.grain g.stop) [])
      ⟨rfl, hvalid⟩ rfl
    refine ⟨t, _, (run_succ_of_step hstep _).trans hrun, hunit, hfault, hfinished (k + 1), fun _ hk =>
      ⟨(g.stop.afterTicks k).tick.2.1, ?_⟩⟩
    rw [hresp, Grain.fadeOut_gain hw' hel' hregion (by rw [Grain.stop_fade]; omega), Grain.stop_env, Grain.stop_fade]
    rfl

end Sys2Proof.Machine
end

section
/-! SUPPORT. The grain pool (spec/43_grain_pool.md): what each of its commands does (R231 to R244), its tick from its three parts (R235),
what no command but a start and a reset writes (R239), and the copy into the static buffer (R236). -/

namespace Sys2Proof.Machine

-- As in the tests: one kernel check at a time keeps the compile within the check's memory limit; no proof depends on it.
set_option Elab.async false

/-! ### The commands of a ready POOL -/

section Commands

variable {s : State} {p p' : Pool} {is : List Instr} {rest : List PortInput} (h : s.Ready (.pool p))
include h

/-- GP.SCHEDULE puts the grain it constructs on the pool, or faults as the construction does (R231). -/
theorem exec_gpSchedule_ready_of_ok {wait duration fade : U32} {offset speed : B32} {reverse : Bool} {n : Grain}
    (hn : Grain.new wait offset duration fade reverse speed = .ok n) :
    exec (.gpSchedule wait duration offset speed fade reverse) s = .next (s.executed (.pool (p.schedule n)) []) :=
  (State.onPool_ready h).trans (by rw [hn])

theorem exec_gpSchedule_ready_of_error {wait duration fade : U32} {offset speed : B32} {reverse : Bool} {c : Cause}
    (hc : Grain.new wait offset duration fade reverse speed = .error c) :
    exec (.gpSchedule wait duration offset speed fade reverse) s = .next (s.faultedBy c 0x4 0x0 0) :=
  (State.onPool_ready h).trans (by rw [hc]; rfl)

/-- GP.TICK answers the sample of the pool's tick, or faults as that does (R235). -/
theorem exec_gpTick_ready_of_ok {input : Word64} {y : Sample} (hp : p.tick s.params (smp s.params.C input) = .ok (p', y)) :
    exec (.gpTick input) s = .next (s.executed (.pool p') [sampleWord y]) :=
  (State.onPool_ready h).trans (by rw [hp])

theorem exec_gpTick_ready_of_error {input : Word64} {c : Cause} (hc : p.tick s.params (smp s.params.C input) = .error c) :
    exec (.gpTick input) s = .next (s.faultedBy c 0x4 0x3 1) :=
  (State.onPool_ready h).trans (by rw [hc]; rfl)

/-- A presented GP.START_LOOPING. -/
theorem step_gpStartLooping (hp : s.port = presenting (.gpStartLooping :: is) ++ rest) :
    step s = .next (State.executed { s with port := presenting is ++ rest } (.pool p.startLooping) []) :=
  (step_of_port_presenting_cons hp (State.kind_of_ready h)).trans
    (State.onPool_ready (s := { s with port := presenting is ++ rest }) h)

/-- A presented GP.TICK that completes. -/
theorem step_gpTick {input : Word64} {y : Sample} (htick : p.tick s.params (smp s.params.C input) = .ok (p', y))
    (hp : s.port = presenting (.gpTick input :: is) ++ rest) :
    step s = .next (State.executed { s with port := presenting is ++ rest } (.pool p') [sampleWord y]) :=
  (step_of_port_presenting_cons hp (State.kind_of_ready h)).trans
    (exec_gpTick_ready_of_ok (s := { s with port := presenting is ++ rest }) h htick)

end Commands

/-! ### Control (R231, R233, R234, R240) -/

/-- The fade that is kept, written out (R192). -/
theorem clampFade_eq (duration fade : U32) :
    clampFade duration fade = if duration.toNat < 2 * fade.toNat then BitVec.ofNat 32 (duration.toNat / 2) else fade := by
  have hhalf : duration / 2 = BitVec.ofNat 32 (duration.toNat / 2) := eq_ofNat_of_toNat BitVec.toNat_udiv
  rw [clampFade, hhalf]

/-- Settles O29: the three answers of the construction, and the two of the search for a finished slot. -/
theorem poolScheduleInstallsGrain : Obligations.PoolScheduleInstallsGrain := by
  obtain ⟨_, _, _, _, ⟨hforward, hreverse, _⟩, _⟩ := writtenOutWordsDecode
  refine ⟨hforward, hreverse, fun s p wait duration offset speed fade reverse h =>
    ⟨fun ho hs hf => ?made, fun hbad => ?notFinite, fun ho hs hf => ?longFade⟩⟩
  case made =>
    rw [← clampFade_eq, ← one32_eq]
    have hexec := exec_gpSchedule_ready_of_ok h (Grain.new_of_legal (wait := wait) (reverse := reverse) ho hs hf)
    refine ⟨_, rfl, fun before g after hgrains hbefore hg => ?first, fun hrun => ?saturated⟩
    case first =>
      rw [Pool.schedule, hgrains, installGrain_first hbefore hg] at hexec
      exact hexec
    case saturated =>
      rw [Pool.schedule, installGrain_saturated hrun] at hexec
      exact hexec
  case notFinite => exact exec_gpSchedule_ready_of_error h (Grain.new_of_not_finite hbad)
  case longFade => exact exec_gpSchedule_ready_of_error h (Grain.new_of_long_fade ho hs hf)

/-- A stop halts a copy in progress and nothing else (R234). -/
theorem Pool.stopLooping_eq (p : Pool) :
    p.stopLooping = { p with phase := if p.phase = .fillingStatic then .notLooping else p.phase } := by
  unfold Pool.stopLooping
  cases p.phase <;> rfl

/-- Settles O30: each command executes its operation; the stop of every grain is written out by arithmetic. -/
theorem poolControlCommands : Obligations.PoolControlCommands := by
  obtain ⟨_, _, _, _, ⟨_, _, hstart, hstop, _, hstopAll, _⟩, _⟩ := writtenOutWordsDecode
  refine ⟨hstart, hstop, hstopAll, fun s p h => ⟨State.onPool_ready h, ?stop, ?stopAll⟩⟩
  case stop =>
    rw [← p.stopLooping_eq]
    exact State.onPool_ready h
  case stopAll =>
    simp only [← Grain.stop_eq]
    exact State.onPool_ready h

/-! ### The counts (R241 to R243) -/

/-- A count of the grains with a flag, where the flag is known as a proposition. -/
theorem wordNat_countP_of_iff {f : Grain → Bool} {q : Grain → Prop} [DecidablePred q] (h : ∀ g, f g = true ↔ q g)
    (gs : List Grain) : wordNat (gs.countP f) = BitVec.ofNat 64 (gs.filter fun g => q g).length := by
  have hflag : f = fun g => decide (q g) := funext fun g => Bool.eq_iff_iff.2 ((h g).trans decide_eq_true_iff.symm)
  rw [hflag, List.countP_eq_length_filter, wordNat]

/-- A grain is counted once (R190). -/
theorem countP_states (gs : List Grain) :
    gs.countP Grain.playing + gs.countP Grain.waiting + gs.countP Grain.finished = gs.length := by
  induction gs with
  | nil => rfl
  | cons g gs ih =>
    obtain ⟨hf, hw, hp⟩ | ⟨hf, hw, hp⟩ | ⟨hf, hw, hp⟩ := g.state_cases <;>
      simp only [List.countP_cons, List.length_cons, hf, hw, hp, if_true, Bool.false_eq_true, if_false] <;> omega

/-- Settles O32: the three flags by arithmetic, one of which holds of each grain. -/
theorem poolCountsSumToSlots : Obligations.PoolCountsSumToSlots := by
  obtain ⟨_, _, _, _, ⟨_, _, _, _, _, _, hplaying, hwaiting, hfinished, _⟩, _⟩ := writtenOutWordsDecode
  refine ⟨hplaying, hwaiting, hfinished, fun s p h => ?_⟩
  intro playing waiting finished
  have hsum : playing + waiting + finished = p.grain.length := by
    rw [← countP_states p.grain]
    simp only [playing, waiting, finished, List.countP_eq_length_filter, ← Grain.playing_iff, ← Grain.waiting_iff,
      ← Grain.finished_iff, Bool.decide_eq_true]
  refine ⟨?_, ?_, ?_, hsum, fun ⟨_, _, hG, _⟩ => hsum.trans hG⟩
  · rw [← wordNat_countP_of_iff fun _ => Grain.playing_iff]
    exact State.onPool_ready h
  · rw [← wordNat_countP_of_iff fun _ => Grain.waiting_iff]
    exact State.onPool_ready h
  · rw [← wordNat_countP_of_iff fun _ => Grain.finished_iff]
    exact State.onPool_ready h

/-! ### The most recent grain (R244) -/

/-- The best grain so far, if there is one, has counted more than `n`. -/
def OlderThan (n : Nat) (best : Option (Nat × Grain)) : Prop := ∀ b, best = some b → n < b.2.el.toNat

/-- A grain that has counted less than the best so far becomes the best. -/
theorem mostRecentFrom_cons_of_better {i : Nat} {best : Option (Nat × Grain)} {g : Grain} {gs : List Grain}
    (hg : g.playing = true) (hbest : OlderThan g.el.toNat best) :
    mostRecentFrom i best (g :: gs) = mostRecentFrom (i + 1) (some (i, g)) gs := by
  cases best with
  | none => simp [mostRecentFrom, hg]
  | some b => simp [mostRecentFrom, hg, hbest b rfl]

/-- A grain that does not play, or has counted no less, leaves the best as it is. -/
theorem mostRecentFrom_cons_of_not_better {i : Nat} {best : Option (Nat × Grain)} {g : Grain} {gs : List Grain}
    (h : g.playing = false ∨ ∃ b, best = some b ∧ b.2.el.toNat ≤ g.el.toNat) :
    mostRecentFrom i best (g :: gs) = mostRecentFrom (i + 1) best gs := by
  obtain hg | ⟨b, rfl, hle⟩ := h
  · simp [mostRecentFrom, hg]
  · simp [mostRecentFrom, Nat.not_lt.2 hle]

/-- Where no grain that plays has counted less, the search ends with the best it began with. -/
theorem mostRecentFrom_of_not_better {best : Option (Nat × Grain)} {gs : List Grain}
    (h : ∀ g ∈ gs, g.playing = false ∨ ∃ b, best = some b ∧ b.2.el.toNat ≤ g.el.toNat) (i : Nat) :
    mostRecentFrom i best gs = best := by
  induction gs generalizing i with
  | nil => rfl
  | cons g gs ih =>
    obtain ⟨hg, hgs⟩ := List.forall_mem_cons.1 h
    rw [mostRecentFrom_cons_of_not_better hg, ih hgs]

/-- The search ends with a playing grain that has counted less than every one before it and no more than any one after it. -/
theorem mostRecentFrom_of_youngest {before after : List Grain} {g : Grain} (hg : g.playing = true)
    (hbefore : ∀ x ∈ before, x.playing = true → g.el.toNat < x.el.toNat)
    (hafter : ∀ x ∈ after, x.playing = true → g.el.toNat ≤ x.el.toNat)
    {best : Option (Nat × Grain)} (hbest : OlderThan g.el.toNat best) (i : Nat) :
    mostRecentFrom i best (before ++ g :: after) = some (i + before.length, g) := by
  induction before generalizing i best with
  | nil =>
    have hrest : ∀ x ∈ after, x.playing = false ∨ ∃ b, some (i, g) = some b ∧ b.2.el.toNat ≤ x.el.toNat := fun x hx =>
      (Bool.eq_false_or_eq_true x.playing).symm.imp_right fun hplaying => ⟨_, rfl, hafter x hx hplaying⟩
    rw [List.nil_append, mostRecentFrom_cons_of_better hg hbest, mostRecentFrom_of_not_better hrest]
    rfl
  | cons x before ih =>
    obtain ⟨hx, hbefore⟩ := List.forall_mem_cons.1 hbefore
    rw [List.cons_append, List.length_cons, Nat.add_comm before.length, ← Nat.add_assoc]
    by_cases hbetter : x.playing = true ∧ OlderThan x.el.toNat best
    · obtain ⟨hplaying, holder⟩ := hbetter
      rw [mostRecentFrom_cons_of_better hplaying holder]
      exact ih hbefore (fun b hb => Option.some.inj hb ▸ hx hplaying) _
    · have hkept : x.playing = false ∨ ∃ b, best = some b ∧ b.2.el.toNat ≤ x.el.toNat := by
        simpa [OlderThan, imp_iff_not_or] using hbetter
      rw [mostRecentFrom_cons_of_not_better hkept]
      exact ih hbefore hbest _

/-- The answer of GP.MOST_RECENT for a grain, as a number (R118). -/
theorem mostRecentWord_some {slot : Nat} (hslot : slot < 256) (g : Grain) :
    mostRecentWord (some (slot, g)) = BitVec.ofNat 64 (g.el.toNat * 2 ^ 32 + slot * 2 ^ 8 + 1) := by
  refine eq_ofNat_of_toNat ?_
  simp only [mostRecentWord, halves_toNat, toNat_append_fields, BitVec.ofNat_eq_ofNat, BitVec.toNat_ofNat, Nat.zero_mod,
    Nat.mod_eq_of_lt hslot]
  omega

/-- Settles O33: the search passes over every grain before the youngest one, and no grain after it is better. -/
theorem poolMostRecentIsYoungest : Obligations.PoolMostRecentIsYoungest := by
  obtain ⟨_, _, _, _, ⟨_, _, _, _, _, _, _, _, _, hword, _⟩, _⟩ := writtenOutWordsDecode
  refine ⟨hword, fun s p h hlen => ?_⟩
  have hexec : exec .gpMostRecent s = .next (s.executed (.pool p) [mostRecentWord p.mostRecent]) := State.onPool_ready h
  rw [hexec]
  refine ⟨fun hnone => ?none, fun slot g hslot hg hyoungest => ?youngest⟩
  case none =>
    rw [Pool.mostRecent, mostRecentFrom_of_not_better fun x hx => .inl (hnone x hx)]
    rfl
  case youngest =>
    obtain ⟨hlt, hget⟩ := List.getElem?_eq_some_iff.1 hslot
    have hsplit : p.grain = p.grain.take slot ++ g :: p.grain.drop (slot + 1) := by
      rw [← hget, List.getElem_cons_drop, List.take_append_drop]
    have hbefore : ∀ x ∈ p.grain.take slot, x.playing = true → g.el.toNat < x.el.toNat := fun x hx hplaying => by
      obtain ⟨j, hj⟩ := List.mem_iff_getElem?.1 hx
      rw [List.getElem?_take, Option.ite_none_right_eq_some] at hj
      obtain ⟨hjslot, hj⟩ := hj
      exact (hyoungest j x hj hplaying).resolve_right fun hle => absurd hle.2 (by omega)
    have hafter : ∀ x ∈ p.grain.drop (slot + 1), x.playing = true → g.el.toNat ≤ x.el.toNat := fun x hx hplaying => by
      obtain ⟨j, hj⟩ := List.mem_iff_getElem?.1 (List.mem_of_mem_drop hx)
      exact (hyoungest j x hj hplaying).elim Nat.le_of_lt fun heq => Nat.le_of_eq heq.1
    have hfound : p.mostRecent = some (slot, g) := by
      have hsearch := mostRecentFrom_of_youngest hg hbefore hafter (best := none) nofun 0
      rw [← hsplit, List.length_take, Nat.min_eq_left (Nat.le_of_lt hlt), Nat.zero_add] at hsearch
      exact hsearch
    rw [hfound, mostRecentWord_some (by omega)]

/-! ### What no command but a start and a reset writes (R239) -/

/-- The same static buffer in the same phase. -/
def Pool.SameStatic (p p' : Pool) : Prop := p'.STAT = p.STAT ∧ p'.phase = p.phase

theorem Pool.SameStatic.refl (p : Pool) : p.SameStatic p := ⟨rfl, rfl⟩

theorem Pool.SameStatic.trans {p p' p'' : Pool} (h : p.SameStatic p') (h' : p'.SameStatic p'') : p.SameStatic p'' :=
  ⟨h'.1.trans h.1, h'.2.trans h.2⟩

/-- Outside FillingStatic the copy step does nothing, so that a tick keeps the static buffer (R235). -/
theorem Pool.tick_sameStatic {prm : Params} {p p' : Pool} {x y : Sample} (hphase : p.phase ≠ .fillingStatic)
    (h : p.tick prm x = .ok (p', y)) : p.SameStatic p' := by
  have hcopy : (p.takeInput prm x).advanceCopy prm = .ok (p.takeInput prm x) := if_neg hphase
  simp only [Pool.tick, hcopy] at h
  split at h
  next => cases h
  next => cases h; exact ⟨rfl, rfl⟩

theorem Pool.stopLooping_sameStatic {p : Pool} (hphase : p.phase ≠ .fillingStatic) : p.SameStatic p.stopLooping := by
  rw [p.stopLooping_eq, if_neg hphase]
  exact .refl p

/-- What every answer of a command's body keeps of the pool, the command keeps, whether it executes, faults or is rejected. -/
theorem State.onPool_keeps {s : State} {p : Pool} {i : Instr} {body : Pool → Except Cause (Pool × List Word64)}
    {P : Pool → Prop} (hu : s.unit = .pool p) (hp : P p) (hbody : ∀ p' res, body p = .ok (p', res) → P p') :
    ∃ (t : State) (p' : Pool), s.onPool i body = .next t ∧ t.unit = .pool p' ∧ P p' := by
  have hsel : s.unit.pool? = some p := UnitState.pool?_eq_some.2 hu
  unfold State.onPool
  obtain ⟨hnone, _⟩ | ⟨_, _, _, heq⟩ | ⟨a, a', res, ha, _, hok, heq⟩ | ⟨_, _, _, _, _, heq⟩ :=
    s.command_cases i UnitState.pool? UnitState.pool body
  · rw [hsel] at hnone; cases hnone
  · exact ⟨_, p, rfl, by rw [heq, State.reject_unit, hu], hp⟩
  · obtain rfl := Option.some.inj (hsel.symm.trans ha)
    exact ⟨_, a', rfl, by rw [heq, State.executed_unit], hbody a' res hok⟩
  · exact ⟨_, p, rfl, by rw [heq]; exact hu, hp⟩

/-- A command of the pool other than a start and a reset keeps the static buffer outside FillingStatic. -/
theorem exec_keeps_static {s : State} {p : Pool} {i : Instr} (hu : s.unit = .pool p) (hphase : p.phase ≠ .fillingStatic)
    (hk : i.kind = .pool) (hstart : i ≠ .gpStartLooping) (hreset : i ≠ .gpReset) :
    ∃ (t : State) (p' : Pool), exec i s = .next t ∧ t.unit = .pool p' ∧ p.SameStatic p' := by
  have hrefl := Pool.SameStatic.refl p
  cases i
  case gpStartLooping => exact absurd rfl hstart
  case gpReset => exact absurd rfl hreset
  case gpStopLooping =>
    refine State.onPool_keeps hu hrefl fun p' res hok => ?_
    cases hok
    exact Pool.stopLooping_sameStatic hphase
  case gpSchedule =>
    refine State.onPool_keeps hu hrefl fun p' res hok => ?_
    split at hok <;> cases hok
    exact ⟨rfl, rfl⟩
  case gpTick =>
    refine State.onPool_keeps hu hrefl fun p' res hok => ?_
    split at hok <;> cases hok
    next htick => exact Pool.tick_sameStatic hphase htick
  case gpStopAll | gpCountPlaying | gpCountWaiting | gpCountFinished | gpMostRecent =>
    refine State.onPool_keeps hu hrefl fun p' res hok => ?_
    cases hok
    exact ⟨rfl, rfl⟩
  all_goals cases hk

/-- A presented command of another unit is an illegal word (R113, R117). -/
theorem step_of_port_presenting_other {s : State} {i : Instr} {is : List Instr} {rest : List PortInput}
    (hp : s.port = presenting (i :: is) ++ rest) (hk : s.kind ≠ i.kind) :
    step s = .next (State.illegalWord { s with port := presenting is ++ rest } (encode i).cw (encode i).unit (encode i).op) :=
  (step_of_port_command hp).trans (runTransaction_of_decode_error (decode_encode_of_ne hk))

/-- A presented command of whatever unit, other than a start and a reset, keeps the static buffer outside FillingStatic. -/
theorem step_keeps_static {s : State} {p : Pool} {i : Instr} {is : List Instr} {rest : List PortInput} (hu : s.unit = .pool p)
    (hphase : p.phase ≠ .fillingStatic) (hstart : i ≠ .gpStartLooping) (hreset : i ≠ .gpReset)
    (hp : s.port = presenting (i :: is) ++ rest) :
    ∃ (t : State) (p' : Pool), step s = .next t ∧ t.unit = .pool p' ∧ p.SameStatic p' ∧ t.port = presenting is ++ rest := by
  obtain ⟨t, hstep, _, _, hport⟩ := everyStepAnswersAndKeepsConfiguration s
  have hkept : ∃ (t : State) (p' : Pool), step s = .next t ∧ t.unit = .pool p' ∧ p.SameStatic p' := by
    have hkind : s.kind = .pool := congrArg UnitState.kind hu
    by_cases hk : i.kind = .pool
    · rw [step_of_port_presenting_cons hp (hkind.trans hk.symm)]
      exact exec_keeps_static (s := { s with port := presenting is ++ rest }) hu hphase hk hstart hreset
    · rw [step_of_port_presenting_other hp (hkind ▸ Ne.symm hk)]
      refine ⟨_, p, rfl, ?_, .refl p⟩
      obtain ⟨_, _, ⟨_, heq⟩ | ⟨_, heq⟩⟩ := State.illegalWord_cases { s with port := presenting is ++ rest } (encode i).cw
        (encode i).unit (encode i).op <;> rw [heq] <;> exact hu
  obtain ⟨t', p', hstep', hunit, hsame⟩ := hkept
  obtain rfl := Host.Outcome.next.inj (hstep.symm.trans hstep')
  exact ⟨t, p', hstep, hunit, hsame, by rw [hport, hp]; rfl⟩

/-- Settles O34: by induction on the commands, each of which keeps the buffer and the phase. -/
theorem staticBufferIsStable : Obligations.StaticBufferIsStable := by
  intro s p is rest hu hphase hstart hreset hp
  induction is generalizing s p with
  | nil => exact ⟨s, p, rfl, hu, rfl, rfl⟩
  | cons i is ih =>
    obtain ⟨t, p', hstep, hunit, hsame, hport⟩ := step_keeps_static hu hphase (List.ne_of_not_mem_cons hstart).symm
      (List.ne_of_not_mem_cons hreset).symm hp
    obtain ⟨t', p'', hrun, hunit', hsame'⟩ := ih t p' hunit (hsame.2 ▸ hphase) (List.not_mem_of_not_mem_cons hstart)
      (List.not_mem_of_not_mem_cons hreset) hport
    exact ⟨t', p'', (run_succ_of_step hstep _).trans hrun, hunit', hsame.trans hsame'⟩

end Sys2Proof.Machine
end

section
/-! SUPPORT. The pool's tick from its three parts (spec/43_grain_pool.md R235, R238), and the copy of the rolling buffer into the static
buffer (R236). -/

namespace Sys2Proof.Machine

-- As in the tests: one kernel check at a time keeps the compile within the check's memory limit; no proof depends on it.
set_option Elab.async false

/-! ### The input and the copy step -/

/-- The pool after the input and the copy step of a tick, whose copy's delay is in range (R235, R236). -/
def Pool.afterCopy (prm : Params) (p : Pool) (x : Sample) : Pool :=
  { grain := p.grain
    ROLL := p.ROLL.tick prm.R prm.C x
    STAT :=
      if p.phase = .fillingStatic then
        p.STAT.tick prm.S prm.C ((p.ROLL.tick prm.R prm.C x).atDelay prm.R prm.C prm.L)
      else p.STAT
    roff := BitVec.ofNat 32 (min (p.roff.toNat + 1) (2 ^ 32 - 1))
    copy := if p.phase = .fillingStatic then BitVec.ofNat 32 (p.copy.toNat + 1) else p.copy
    phase := p.phaseAfterCopy prm }

/-- The parameters of a pool leave room in the rolling buffer for the copy's delay, and its copy count does not wrap. -/
structure Pool.CopyFits (prm : Params) (p : Pool) : Prop where
  delay : prm.L < prm.R
  count : p.copy.toNat + 1 < 2 ^ 32

theorem Pool.CopyFits.of_wf {prm : Params} {p : Pool} (hprm : prm.validPool) (h : p.Wf prm) : p.CopyFits prm := by
  obtain ⟨_, ⟨hdelay, _⟩, _, hS, _⟩ := hprm
  obtain ⟨_, _, _, _, hcopy, _⟩ := h
  exact ⟨hdelay, by omega⟩

/-- Where it fits, the copy step after the input is that pool. -/
theorem Pool.CopyFits.advanceCopy {prm : Params} {p : Pool} (h : p.CopyFits prm) (x : Sample) :
    (p.takeInput prm x).advanceCopy prm = .ok (p.afterCopy prm x) := by
  obtain ⟨hdelay, hcount⟩ := h
  have hroff : saturatingSucc p.roff = BitVec.ofNat 32 (min (p.roff.toNat + 1) (2 ^ 32 - 1)) :=
    eq_ofNat_of_toNat (saturatingSucc_toNat p.roff)
  have hcopy : (p.copy + 1).toNat = p.copy.toNat + 1 := by
    rw [BitVec.toNat_add]
    exact Nat.mod_eq_of_lt hcount
  by_cases hphase : p.phase = .fillingStatic
  · have hread := CBuf.read_of_lt hdelay prm.C (p.ROLL.tick prm.R prm.C x)
    simp only [Pool.advanceCopy, Pool.takeInput_phase, Pool.takeInput_ROLL, Pool.takeInput_STAT, Pool.takeInput_copy,
      Pool.takeInput_roff, Pool.takeInput_grain, hphase, if_true, hread, Pool.afterCopy, Pool.phaseAfterCopy, hroff, hcopy,
      true_and, ← eq_ofNat_of_toNat hcopy]
  · simp only [Pool.advanceCopy, Pool.takeInput_phase, hphase, if_false, Pool.afterCopy, Pool.phaseAfterCopy, false_and]
    rw [← hroff]
    rfl

/-! ### The reads (R153, R232, R235) -/

/-- A delay at which a buffer of capacity `n` reads (R153). -/
def InDelayRange (n : Nat) (d : B32) : Prop := finite32 d = true ∧ lt32 d zero32 = false ∧ ceil32 d < n

/-- A fractional read answers exactly at those delays. -/
theorem CBuf.exists_readInterp_iff {n c : Nat} {b : CBuf} {d : B32} :
    (∃ v, b.readInterp n c d = .ok v) ↔ InDelayRange n d := by
  constructor
  · rintro ⟨v, hv⟩
    by_contra hrange
    rw [CBuf.readInterp_of_illegal hrange] at hv
    cases hv
  · rintro ⟨hfin, hlt, hceil⟩
    obtain ⟨i, j, hi, hj, hin, hjn⟩ := exists_counts_of_delay hfin hlt hceil
    exact ⟨_, CBuf.readInterp_of_counts hfin hlt hi hj hin hjn c b⟩

/-- A grain's read answers exactly where its delay is in the range of the authoritative buffer, and then the sample there. -/
theorem Pool.exists_grainRead_iff {prm : Params} {p : Pool} {pos : B32} :
    (∃ v, p.grainRead prm pos = .ok v) ↔
      InDelayRange (if p.phase = .usingStatic then prm.S else prm.R) (p.grainDelay prm pos) := by
  unfold Pool.grainRead
  split <;> exact CBuf.exists_readInterp_iff

theorem Pool.grainRead_eq_sampleAt {prm : Params} {p : Pool} {pos : B32} {v : Sample} (h : p.grainRead prm pos = .ok v) :
    p.grainRead prm pos = .ok (p.sampleAt prm (p.grainDelay prm pos)) := by
  have hsample : p.sampleAt prm (p.grainDelay prm pos) = v := by
    unfold Pool.grainRead at h
    unfold Pool.sampleAt
    rw [h]
  rw [h, hsample]

/-- The delay of a read on a tick is counted with that tick's input and copy step. -/
theorem Pool.grainDelay_afterCopy (prm : Params) (p : Pool) (x : Sample) (g : Grain) :
    (p.afterCopy prm x).grainDelay prm g.pos = p.delayOnTick prm g := by
  have hroff : (p.afterCopy prm x).roff.toNat = min (p.roff.toNat + 1) (2 ^ 32 - 1) := by
    simp only [Pool.afterCopy, BitVec.toNat_ofNat]
    omega
  unfold Pool.grainDelay Pool.delayOnTick
  rw [hroff]
  by_cases hphase : p.phaseAfterCopy prm = .usingStatic <;> simp only [Pool.afterCopy, hphase, if_true, if_false]

/-- A pool is readable exactly when every playing grain's read on the tick answers. -/
theorem Pool.readable_iff {prm : Params} {p : Pool} (x : Sample) :
    p.Readable prm ↔ ∀ g ∈ p.grain, g.playing = true → ∃ v, (p.afterCopy prm x).grainRead prm g.pos = .ok v := by
  simp only [Pool.exists_grainRead_iff, Pool.grainDelay_afterCopy]
  rfl

/-! ### The sum (R235) -/

section Sum

variable {prm : Params} {p : Pool} {acc : Sample} {g : Grain} {gs : List Grain}

/-- A grain that does not play ticks without a read: a finished one stays as it is. -/
theorem Pool.sumGrains_cons_silent (h : g.playing = false) :
    Pool.sumGrains prm p acc (g :: gs) = (Pool.sumGrains prm p acc gs).map fun r => (r.1, g.tick.1 :: r.2) := by
  obtain ⟨hf, _, _⟩ | ⟨hf, hw, _⟩ | ⟨_, _, hp⟩ := g.state_cases
  case inl =>
    rw [Grain.tick_of_finished (Grain.finished_iff.1 hf), Pool.sumGrains, if_pos hf]
    cases Pool.sumGrains prm p acc gs <;> rfl
  case inr.inl =>
    rw [Pool.sumGrains, if_neg (Bool.eq_false_iff.1 hf), if_pos hw]
    cases Pool.sumGrains prm p acc gs <;> rfl
  case inr.inr => rw [h] at hp; cases hp

/-- A playing grain reads at its position, and adds its sample at its gain. -/
theorem Pool.sumGrains_cons_playing (h : g.playing = true) :
    Pool.sumGrains prm p acc (g :: gs) = (p.grainRead prm g.pos).bind fun x =>
      (Pool.sumGrains prm p (Sample.add acc (Sample.scale x g.tick.2.2)) gs).map fun r => (r.1, g.tick.1 :: r.2) := by
  obtain ⟨_, _, hp⟩ | ⟨_, _, hp⟩ | ⟨hf, hw, _⟩ := g.state_cases
  case inl | inr.inl => rw [h] at hp; cases hp
  case inr.inr =>
    obtain ⟨hrun, hwait⟩ := Grain.playing_iff.1 h
    have hpos : g.tick.2.1 = g.pos := by rw [Grain.tick_of_playing hrun hwait]
    rw [Pool.sumGrains, if_neg (Bool.eq_false_iff.1 hf), if_neg (Bool.eq_false_iff.1 hw), hpos]
    cases p.grainRead prm g.pos with
    | error c => rfl
    | ok x =>
      simp only [Except.bind]
      cases Pool.sumGrains prm p (Sample.add acc (Sample.scale x g.tick.2.2)) gs <;> rfl

/-- Where every playing grain's read answers, the sum runs over them in slot order, and every slot ticks. -/
theorem Pool.sumGrains_of_reads {read : Grain → Sample}
    (h : ∀ g ∈ gs, g.playing = true → p.grainRead prm g.pos = .ok (read g)) (acc : Sample) :
    Pool.sumGrains prm p acc gs = .ok
      ((gs.filter Grain.playing).foldl (fun acc g => Sample.add acc (Sample.scale (read g) g.tick.2.2)) acc,
        gs.map fun g => g.tick.1) := by
  induction gs generalizing acc with
  | nil => rfl
  | cons g gs ih =>
    obtain ⟨hg, hgs⟩ := List.forall_mem_cons.1 h
    cases hp : g.playing with
    | false => rw [Pool.sumGrains_cons_silent hp, ih hgs, List.filter_cons_of_neg (Bool.eq_false_iff.1 hp)]; rfl
    | true => rw [Pool.sumGrains_cons_playing hp, hg hp, List.filter_cons_of_pos hp, Except.bind, ih hgs]; rfl

/-- A sum that answers has read every playing grain. -/
theorem Pool.reads_of_sumGrains {r : Sample × List Grain} (h : Pool.sumGrains prm p acc gs = .ok r) :
    ∀ g ∈ gs, g.playing = true → ∃ v, p.grainRead prm g.pos = .ok v := by
  induction gs generalizing acc r with
  | nil => simp
  | cons g gs ih =>
    refine List.forall_mem_cons.2 ?_
    cases hp : g.playing with
    | false =>
      rw [Pool.sumGrains_cons_silent hp] at h
      cases hrest : Pool.sumGrains prm p acc gs with
      | ok r' => exact ⟨nofun, ih hrest⟩
      | error c => rw [hrest] at h; cases h
    | true =>
      rw [Pool.sumGrains_cons_playing hp] at h
      cases hread : p.grainRead prm g.pos with
      | error c => rw [hread] at h; cases h
      | ok x =>
        rw [hread, Except.bind] at h
        cases hrest : Pool.sumGrains prm p (Sample.add acc (Sample.scale x g.tick.2.2)) gs with
        | ok r' => exact ⟨fun _ => ⟨x, rfl⟩, ih hrest⟩
        | error c => rw [hrest] at h; cases h

end Sum

/-! ### The tick -/

/-- The wet sample of a tick on which every playing grain reads in range (R235). -/
def Pool.wetSample (prm : Params) (p : Pool) (x : Sample) : Sample :=
  (p.grain.filter Grain.playing).foldl
    (fun acc g => Sample.add acc (Sample.scale ((p.afterCopy prm x).sampleAt prm (p.delayOnTick prm g)) g.tick.2.2))
    (zeroSample prm.C)

/-- A tick of a readable pool (R235). -/
theorem Pool.tick_of_readable {prm : Params} {p : Pool} (hfits : p.CopyFits prm) (h : p.Readable prm) (x : Sample) :
    p.tick prm x = .ok ({ p.afterCopy prm x with grain := p.grain.map fun g => g.tick.1 }, p.wetSample prm x) := by
  have hreads : ∀ g ∈ (p.afterCopy prm x).grain, g.playing = true →
      (p.afterCopy prm x).grainRead prm g.pos = .ok ((p.afterCopy prm x).sampleAt prm (p.delayOnTick prm g)) := by
    intro g hg hp
    obtain ⟨v, hv⟩ := (Pool.readable_iff x).1 h g hg hp
    rw [← Pool.grainDelay_afterCopy prm p x g]
    exact Pool.grainRead_eq_sampleAt hv
  simp only [Pool.tick, hfits.advanceCopy x, Pool.sumGrains_of_reads hreads]
  rfl

/-- A tick of any other pool faults (R238). -/
theorem Pool.tick_of_not_readable {prm : Params} {p : Pool} (hfits : p.CopyFits prm) (h : ¬ p.Readable prm) (x : Sample) :
    p.tick prm x = .error .cbufReadRange := by
  simp only [Pool.tick, hfits.advanceCopy x]
  cases hsum : (p.afterCopy prm x).sumGrains prm (zeroSample prm.C) (p.afterCopy prm x).grain with
  | ok r => exact absurd ((Pool.readable_iff x).2 (Pool.reads_of_sumGrains hsum)) h
  | error c => rw [Pool.sumGrains_error hsum]

/-- Settles O31: the two answers of the tick, written out. -/
theorem poolTickSumsGrains : Obligations.PoolTickSumsGrains := by
  obtain ⟨_, _, _, _, ⟨_, _, _, _, hword, _⟩, _⟩ := writtenOutWordsDecode
  refine ⟨hword, fun s p input h hprm hwf => ?_⟩
  intro prm roll p'
  have hfits := Pool.CopyFits.of_wf hprm hwf
  exact ⟨fun hread => exec_gpTick_ready_of_ok h (Pool.tick_of_readable hfits hread _),
    fun hread => exec_gpTick_ready_of_error h (Pool.tick_of_not_readable hfits hread _)⟩

/-! ### The copy (R236) -/

/-- The samples that a buffer holds at delay `d` after each of a sequence of writes. -/
def CBuf.taps (n c d : Nat) (b : CBuf) (xs : List Sample) : List Sample :=
  (List.range xs.length).map fun i => (b.ticks n c (xs.take (i + 1))).atDelay n c d

@[simp] theorem CBuf.taps_length (n c d : Nat) (b : CBuf) (xs : List Sample) : (b.taps n c d xs).length = xs.length := by
  simp [CBuf.taps]

theorem CBuf.taps_concat (n c d : Nat) (b : CBuf) (xs : List Sample) (x : Sample) :
    b.taps n c d (xs ++ [x]) = b.taps n c d xs ++ [((b.ticks n c xs).tick n c x).atDelay n c d] := by
  have hinit : ∀ i ∈ List.range xs.length, (xs ++ [x]).take (i + 1) = xs.take (i + 1) := fun i hi =>
    List.take_append_of_le_length (List.mem_range.1 hi)
  have hlast : (xs ++ [x]).take (xs.length + 1) = xs ++ [x] := List.take_of_length_le (by simp)
  simp only [CBuf.taps, List.length_append, List.length_singleton, List.range_succ, List.map_append, List.map_cons,
    List.map_nil, hlast, CBuf.ticks_concat]
  congr 1
  exact List.map_congr_left fun i hi => by rw [hinit i hi]

theorem CBuf.length_of_mem_taps {n c d : Nat} {b : CBuf} (h : b.Wf n c) {xs : List Sample} (hxs : ∀ x ∈ xs, x.length = c) :
    ∀ y ∈ b.taps n c d xs, y.length = c := by
  intro y hy
  obtain ⟨i, _, rfl⟩ := List.mem_map.1 hy
  exact CBuf.slot_length (CBuf.ticks_wf h fun x hx => hxs x (List.mem_of_mem_take hx)) _

/-- `p` is what the inputs `xs`, since a start at the pool `p₀`, make of it while no grain is in use: the copy has taken one sample
for each of them, and hands off at `S` (R233, R235, R236). -/
structure Pool.Copying (prm : Params) (p₀ : Pool) (xs : List Sample) (p : Pool) : Prop where
  grains : ∀ g ∈ p.grain, g.finished = true
  ROLL : p.ROLL = p₀.ROLL.ticks prm.R prm.C xs
  STAT : p.STAT = p₀.STAT.ticks prm.S prm.C (p₀.ROLL.taps prm.R prm.C prm.L xs)
  roff : p.roff.toNat = xs.length
  copy : p.copy.toNat = xs.length
  phase : p.phase = if xs.length = prm.S then .usingStatic else .fillingStatic

theorem Pool.Copying.start {prm : Params} (hS : 0 < prm.S) {p : Pool} (h : ∀ g ∈ p.grain, g.finished = true) :
    Pool.Copying prm p [] p.startLooping :=
  ⟨h, rfl, rfl, rfl, rfl, (if_neg (Nat.ne_of_lt hS)).symm⟩

/-- Before the handoff one more input keeps this up, and the tick answers silence. -/
theorem Pool.Copying.tick {prm : Params} (hprm : prm.validPool) {p₀ p : Pool} {xs : List Sample} (h : Pool.Copying prm p₀ xs p)
    (hlen : xs.length < prm.S) (x : Sample) :
    ∃ p', p.tick prm x = .ok (p', zeroSample prm.C) ∧ Pool.Copying prm p₀ (xs ++ [x]) p' := by
  obtain ⟨hgrains, hROLL, hSTAT, hroff, hcopy, hphase⟩ := h
  obtain ⟨_, ⟨hdelay, _⟩, _, hS, _⟩ := hprm
  have hphase : p.phase = .fillingStatic := hphase.trans (if_neg (Nat.ne_of_lt hlen))
  have hsilent : ∀ g ∈ p.grain, ¬ g.playing = true := fun g hg hp =>
    absurd (Grain.finished_iff.1 (hgrains g hg)) (Nat.not_le.2 (Grain.playing_iff.1 hp).1)
  have hreadable : p.Readable prm := fun g hg hp => absurd hp (hsilent g hg)
  have hwet : p.wetSample prm x = zeroSample prm.C := by rw [Pool.wetSample, List.filter_eq_nil_iff.2 hsilent]; rfl
  refine ⟨_, hwet ▸ Pool.tick_of_readable ⟨hdelay, by omega⟩ hreadable x, ⟨?grains, ?ROLL, ?STAT, ?roff, ?copy, ?phase⟩⟩
  case grains =>
    intro g' hg'
    obtain ⟨g, hg, rfl⟩ := List.mem_map.1 hg'
    rw [Grain.tick_of_finished (Grain.finished_iff.1 (hgrains g hg))]
    exact hgrains g hg
  case ROLL => rw [CBuf.ticks_concat, ← hROLL]; rfl
  case STAT => rw [CBuf.taps_concat, CBuf.ticks_concat, ← hSTAT, ← hROLL]; exact if_pos hphase
  case roff =>
    simp only [Pool.afterCopy, hroff, BitVec.toNat_ofNat, List.length_append, List.length_singleton]
    omega
  case copy =>
    simp only [Pool.afterCopy, hphase, if_true, hcopy, BitVec.toNat_ofNat, List.length_append, List.length_singleton]
    omega
  case phase =>
    simp only [Pool.afterCopy, Pool.phaseAfterCopy, hphase, true_and, hcopy, List.length_append, List.length_singleton]

/-- A machine that runs presented GP.TICKs up to the handoff. -/
theorem run_gpTicks_copying {s : State} {p₀ p : Pool} {xs : List Sample} {ws : List Word64} {rest : List PortInput}
    (hready : s.Ready (.pool p)) (hprm : s.params.validPool) (h : Pool.Copying s.params p₀ xs p)
    (hlen : xs.length + ws.length ≤ s.params.S) (hp : s.port = presenting (ws.map Instr.gpTick) ++ rest) :
    ∃ (t : State) (p' : Pool), core.run ws.length s = .next t ∧ t.unit = .pool p' ∧ t.fault = s.fault ∧
      Pool.Copying s.params p₀ (xs ++ ws.map (smp s.params.C)) p' := by
  induction ws generalizing s p xs with
  | nil => exact ⟨s, p, rfl, hready.1, rfl, by rwa [List.map_nil, List.append_nil]⟩
  | cons w ws ih =>
    have hvalid := hready.2
    have hroom : xs.length < s.params.S := by rw [List.length_cons] at hlen; omega
    obtain ⟨p', htick, h'⟩ := h.tick hprm hroom (smp s.params.C w)
    have hstep := step_gpTick hready htick hp
    obtain ⟨t, p'', hrun, hunit, hfault, h''⟩ :=
      ih (s := State.executed { s with port := presenting (ws.map Instr.gpTick) ++ rest } (.pool p') _) ⟨rfl, hvalid⟩ hprm h'
        (by rw [List.length_append, List.length_singleton, Nat.add_assoc, Nat.add_comm 1]; exact hlen) rfl
    refine ⟨t, p'', (run_succ_of_step hstep _).trans hrun, hunit, hfault, ?_⟩
    rwa [List.append_assoc] at h''

/-- THE SNAPSHOT: after `S` inputs, delay `j` of the static buffer holds what the rolling buffer had at delay `j - M` at the start, and
for `j < M` the input of tick `M - j` (R236). -/
theorem Pool.Copying.snapshot {prm : Params} {p₀ p : Pool} {xs : List Sample} (hprm : prm.validPool) (hwf : p₀.Wf prm)
    (hxs : ∀ x ∈ xs, x.length = prm.C) (h : Pool.Copying prm p₀ xs p) (hlen : xs.length = prm.S) {j : Nat} (hj : j < prm.S)
    (z : Sample) :
    p.STAT.atDelay prm.S prm.C j =
      if prm.M ≤ j then p₀.ROLL.atDelay prm.R prm.C (j - prm.M) else xs.getD (prm.M - j - 1) z := by
  obtain ⟨hROLL, hSTAT, _⟩ := hwf
  obtain ⟨_, ⟨hdelay, _⟩, _⟩ := hprm
  have hS : prm.S = prm.L + prm.M := rfl
  have hxs' : ∀ x ∈ xs.take (prm.S - j), x.length = prm.C := fun x hx => hxs x (List.mem_of_mem_take hx)
  have htaken : (xs.take (prm.S - j)).length = prm.S - j := by rw [List.length_take]; omega
  have htap : (p₀.ROLL.taps prm.R prm.C prm.L xs).reverse[j]? =
      some ((p₀.ROLL.ticks prm.R prm.C (xs.take (prm.S - j))).atDelay prm.R prm.C prm.L) := by
    rw [List.getElem?_reverse (by rw [CBuf.taps_length]; omega), CBuf.taps_length, CBuf.taps, List.getElem?_map,
      List.getElem?_range (by omega), Option.map_some, show xs.length - 1 - j + 1 = prm.S - j by omega]
  rw [h.STAT, CBuf.atDelay_ticks hSTAT (CBuf.length_of_mem_taps hROLL hxs) hj, htap, Option.getD_some,
    CBuf.atDelay_ticks hROLL hxs' hdelay, htaken]
  split
  next hold =>
    rw [List.getElem?_eq_none (by rw [List.length_reverse]; omega), Option.getD_none]
    congr 1
    omega
  next hnew =>
    rw [List.getElem?_reverse (by omega), htaken, List.getElem?_take_of_lt (by omega),
      show prm.S - j - 1 - prm.L = prm.M - j - 1 by omega, List.getD_eq_getElem?_getD, List.getElem?_eq_getElem (by omega)]
    rfl

/-- Settles O35: the start begins a copy, each tick takes one sample, and after the last one the static buffer holds the snapshot. -/
theorem copyTakesSnapshot : Obligations.CopyTakesSnapshot := by
  intro s p ws rest hready hprm hwf hgrains hlen hp
  have hvalid := hready.2
  have hS : 0 < s.params.S := (Params.buffers_pos hprm).2
  have hstep := step_gpStartLooping hready hp
  obtain ⟨t, p', hrun, hunit, hfault, hcopying⟩ := run_gpTicks_copying
    (s := State.executed { s with port := presenting (ws.map Instr.gpTick) ++ rest } (.pool p.startLooping) [])
    ⟨rfl, hvalid⟩ hprm (Pool.Copying.start hS hgrains) (by rw [List.length_nil, Nat.zero_add]; exact hlen) rfl
  have hcopying : Pool.Copying s.params p (ws.map (smp s.params.C)) p' := hcopying
  have hlength : (ws.map (smp s.params.C)).length = ws.length := List.length_map _
  refine ⟨t, p', (run_succ_of_step hstep _).trans hrun, hunit, hfault, hcopying.copy.trans hlength,
    hcopying.roff.trans hlength, hlength ▸ hcopying.phase, fun hdone j hj => ?snapshot⟩
  have hsnapshot := hcopying.snapshot hprm hwf (by simp) (hlength.trans hdone) hj (smp s.params.C 0)
  rw [List.getD_map] at hsnapshot
  exact hsnapshot

end Sys2Proof.Machine
end

section
/-! SUPPORT. The loop engine with its pool (spec/46_loop_engine.md): the start and the stop of looping (R343, R344), and a tick on which
no event is due (R334). -/

namespace Sys2Proof.Machine

-- As in the tests: one kernel check at a time keeps the compile within the check's memory limit; no proof depends on it.
set_option Elab.async false

/-! ### Looping control (R343, R344) -/

section Looping

variable {prm : Params} {e : Engine} {m : Lem}

theorem Engine.startLooping_of_looping (hl : e.E.looping = true) : e.startLooping prm = .ok e := by
  simp [Engine.startLooping, hl]

/-- A start while not looping starts the LEM and then the pool's copy. -/
theorem Engine.startLooping_of_ok (hl : e.E.looping = false) (hm : e.E.startLooping prm.Q = .ok m) :
    e.startLooping prm = .ok { e with E := m, P := e.P.startLooping } := by
  simp [Engine.startLooping, hl, hm]

theorem Engine.stopLooping_of_not_looping (hl : e.E.looping = false) : e.stopLooping prm = .ok e := by
  simp [Engine.stopLooping, hl]

/-- A stop while looping stops the LEM and then the pool's copy. -/
theorem Engine.stopLooping_of_ok (hl : e.E.looping = true) (hm : e.E.stopLooping prm.Q = .ok m) :
    e.stopLooping prm = .ok { e with E := m, P := e.P.stopLooping } := by
  simp [Engine.stopLooping, hl, hm]

end Looping

/-- Settles O49: the LEM's start and stop under each condition, with the pool's behind them; a fault is the LEM's. -/
theorem engineLoopingControl : Obligations.EngineLoopingControl := by
  obtain ⟨⟨_, _, _, _, _, _, _, _, _, hstart, hstop, _⟩, _⟩ := writtenOutWordsDecode
  refine ⟨hstart, hstop, ?_⟩
  intro s e h t b
  have hstarts {e' : Engine} (he : e.startLooping s.params = .ok e') :
      exec .eStartLooping s = .next (s.executed (.engine e') []) :=
    State.onEngine_silently_of_ok (op := fun x => x.startLooping s.params) h he
  have hstops {e' : Engine} (he : e.stopLooping s.params = .ok e') :
      exec .eStopLooping s = .next (s.executed (.engine e') []) :=
    State.onEngine_silently_of_ok (op := fun x => x.stopLooping s.params) h he
  refine ⟨fun hl => ?startLooping, fun hl hb hlast hroom => ?started, fun l hl hb hq hlt => ?before,
    fun hl hb hlast hfull => ?full, fun hl => ?stopIdle, fun hl hb hcap => ?stopped⟩
  case startLooping => exact hstarts (Engine.startLooping_of_looping hl)
  case started =>
    exact hstarts (Engine.startLooping_of_ok hl ((Lem.startLooping_of_not_looping hl).trans
      (Lem.scheduleTwo_of_room hb (beforeLast_eq_false_iff.2 hlast) hroom)))
  case before =>
    exact exec_eStartLooping_ready_of_error h (Engine.startLooping_of_error hl ((Lem.startLooping_of_not_looping hl).trans
      (Lem.scheduleTwo_of_error (evSchedule_of_beforeLast hb ((beforeLast_of_getLast? hq).trans hlt) _))))
  case full =>
    have hlast := beforeLast_eq_false_iff.2 hlast
    refine exec_eStartLooping_ready_of_error h (Engine.startLooping_of_error hl
      ((Lem.startLooping_of_not_looping hl).trans ?_))
    obtain hfull | hone := hfull
    · exact Lem.scheduleTwo_of_error (evSchedule_of_full hb hlast hfull _)
    · exact Lem.scheduleTwo_of_room_for_one hb hlast hone
  case stopIdle => exact hstops (Engine.stopLooping_of_not_looping hl)
  case stopped =>
    rw [← e.P.stopLooping_eq]
    exact hstops (Engine.stopLooping_of_ok hl
      ((Lem.stopLooping_of_looping hl).trans (Lem.scheduleTwo_of_empty rfl hb hcap)))

/-! ### A quiet tick (R334) -/

/-- A tick of a LEM at a later time at which nothing is due accepts the time and nothing else (R292). -/
theorem Lem.tick_of_nothing_due {cap : Nat} {m : Lem} {st : B64} (hst : finite64 st = true)
    (hlater : ∀ c, m.cst = some c → lt64 c st = true) (hquiet : ∀ x ∈ m.q, le64 x.time st = false) :
    m.tick cap st = .ok ({ m with cst := some st }, []) :=
  Lem.tick_of_append (due := []) hst hlater rfl nofun hquiet

/-- Settles O54: the LEM returns no event, so the pool's tick is that of the engine's own pool, which is readable. -/
theorem engineQuietTickCompletes : Obligations.EngineQuietTickCompletes := by
  intro s sp e time input h hprm hwf hread htime hlater hquiet hsp hparams
  have hpool := Pool.tick_of_readable (Pool.CopyFits.of_wf hprm hwf) hread (smp s.params.C input)
  have htick := Engine.tick_of_parts (Lem.tick_of_nothing_due htime hlater hquiet) rfl hpool
  exact ⟨_, _, exec_gpTick_ready_of_ok hsp (hparams ▸ hpool), exec_eTick_ready_of_ok h htick⟩

end Sys2Proof.Machine
end
